-- ==== Sys2Proof/Word.lean ====
section
/-! DEFINITION. The word types of the block (spec/00_scope.md R7): bytes of the ring memory, 4-bit samples, gains and
volumes, and signed 16-bit output samples (spec/30_encoding.md R68). -/

namespace Sys2Proof

/-- One byte of the ring memory (R40). -/
abbrev Byte := BitVec 8

/-- A 4-bit field: a waveform sample, a volume, a stereo gain (R11, R12). -/
abbrev Nibble := BitVec 4

/-- One signed 16-bit output sample in two's complement (R68). -/
abbrev Sample := BitVec 16

end Sys2Proof
end

