-- ==== Sys2Proof/Config.lean ====
section
/-! DEFINITION. The configuration record `Cfg` (spec/00_scope.md R2) and the free values: what the spec leaves open and
no statement may rest on. The derived parameters and the two assignments REFCFG and TESTCFG are in Machine/Params.lean. -/

namespace Sys2Proof

/-- Which band-limited accumulator the block is built with (the field `Blip` of R2). -/
inductive BlipKind where
  /-- The reference instance `ZOH` (spec/42_synth_frame.md R138). -/
  | zoh
  /-- Any other instance that satisfies the seven laws of R137: the black box of R134 (U7). -/
  | external
  deriving DecidableEq, Repr

/-- The parameter record of spec/00_scope.md R2. Its fixed fields (32 table entries, 4-bit samples, 12-bit frequency,
4-bit volume, 18 bytes) are the types of `Register`. It is static (spec/70_reset_and_hazards.md R188). -/
structure Cfg where
  /-- `CH`, the number of audio channels. -/
  ch : Nat
  /-- `RING_LEN`, the number of ring slots (R4). -/
  ringLen : Nat
  /-- `CLOCKRATE`, synthesis clock ticks per second. -/
  clockRate : Nat
  /-- `FRAMERATE`, emulation ticks per second. -/
  frameRate : Nat
  /-- `SAMPLE_RATE`, output samples per second per side. -/
  sampleRate : Nat
  /-- `FREQ_SCALE`, the multiplier of the frequency field for the tone generator. -/
  freqScale : Nat
  /-- `RATE`, the numerator of the period formula. -/
  rate : Nat
  /-- `MIN_PERIOD`. -/
  minPeriod : Nat
  /-- `MAX_PERIOD`. -/
  maxPeriod : Nat
  /-- `AMP_MAX`, the full-scale amplitude. -/
  ampMax : Nat
  /-- `LFSR_BITS`, the width of the `phase` register. -/
  lfsrBits : Nat
  /-- `NOISE_FB[0]`. -/
  noiseFb0 : Nat
  /-- `NOISE_FB[1]`. -/
  noiseFb1 : Nat
  /-- `PCM_LEN`, samples in a snapshot's PCM buffer. -/
  pcmLen : Nat
  /-- `PCM_BITS`, bits per PCM sample. -/
  pcmBits : Nat
  /-- `Blip`, the accumulator. -/
  blip : BlipKind
  deriving DecidableEq, Repr

/-- FREE VALUE. The number the crossing draws at its `n`-th free draw (spec/40_ring_buffer.md R85, R86: "draw j").
The step reduces it to the range the rule sets. No body: a statement about it holds for every value (DESIGN CHOICE, safe, log entry 5). -/
opaque Config.freeDraw : Nat → Nat

/-- FREE VALUE. Sample `k` of the frame an accumulator other than `ZOH` reads out, for its rates and the whole history
of deltas submitted to it, frame by frame (spec/93_implementation_defined.md U7; DESIGN CHOICE, safe, log entry 7). No body. -/
opaque Config.externalBlip : Nat → Nat → List (List (Nat × Int)) → Nat → BitVec 16

/-- FREE VALUE. After how many frames without a delta such an accumulator has settled to a constant, for its rates and
its history up to the last delta (spec/42_synth_frame.md R137 law 6: "after finitely many frames"; DESIGN CHOICE, safe, log entry 7). No body. -/
opaque Config.externalSettle : Nat → Nat → List (List (Nat × Int)) → Nat

/-- FREE VALUE. What `ungray` gives, on a ring of the length given, for a pattern that is no code word
(spec/40_ring_buffer.md R91: "may return any value there"; DESIGN CHOICE, safe, log entry 18). No body. -/
opaque Config.ungrayOther : Nat → Nat → Nat

end Sys2Proof
end

