-- ==== Sys2Proof/Machine/Params.lean ====
section
/-! DEFINITION. The fixed and derived parameters, the well-formedness of a configuration, and the two assignments
REFCFG and TESTCFG (spec/00_scope.md R2 to R5, spec/93_implementation_defined.md U2). -/

namespace Sys2Proof

/-- `WAVE_VALUES`, the entries of a waveform table (R2, fixed). -/
def waveValues : Nat := 32

/-- `MAX_VOLUME` (R2, fixed). -/
def maxVolume : Nat := 15

/-- `REG_BYTES`, the size of one Register (R2, fixed; R62). -/
def regBytes : Nat := 18

/-- `END_TIME = CLOCKRATE / FRAMERATE`, the frame time budget in clock ticks (R3). -/
def Cfg.endTime (c : Cfg) : Nat := c.clockRate / c.frameRate

/-- `SAMPLES_PER_FRAME = SAMPLE_RATE / FRAMERATE` (R3). -/
def Cfg.samplesPerFrame (c : Cfg) : Nat := c.sampleRate / c.frameRate

/-- `PCM_PERIOD = END_TIME div PCM_LEN` (spec/41_oscillator.md R116). -/
def Cfg.pcmPeriod (c : Cfg) : Nat := c.endTime / c.pcmLen

/-- `PCM_MAX = 2^PCM_BITS - 1` (R117). -/
def Cfg.pcmMax (c : Cfg) : Nat := 2 ^ c.pcmBits - 1

/-- `PCM_BYTES = PCM_LEN * PCM_BITS / 8` (R5). -/
def Cfg.pcmBytes (c : Cfg) : Nat := c.pcmLen * c.pcmBits / 8

/-- `SNAP_BYTES = REG_BYTES * CH + CH + PCM_BYTES` (R5). -/
def Cfg.snapBytes (c : Cfg) : Nat := regBytes * c.ch + c.ch + c.pcmBytes

/-- The size of the ring memory, `RING_LEN * SNAP_BYTES` (spec/20_memory.md R40). -/
def Cfg.ringBytes (c : Cfg) : Nat := c.ringLen * c.snapBytes

/-- The largest amplitude of one generator, `AMP_MAX div CH` (R103, R117). -/
def Cfg.ampTop (c : Cfg) : Nat := c.ampMax / c.ch

/-- A feedback mask fits the shift register and has its top bit set (R107, U2). -/
def Cfg.maskWf (c : Cfg) (fb : Nat) : Bool := fb.testBit (c.lfsrBits - 1) && decide (fb < 2 ^ c.lfsrBits)

/-- A configuration is well-formed (R2, R3, R4, R107; the list of U2). -/
def Cfg.wf (c : Cfg) : Bool :=
  decide (1 ≤ c.ch) &&
  (decide (4 ≤ c.ringLen) && decide (c.ringLen % 2 = 0)) &&
  (decide (1 ≤ c.frameRate) && decide (c.clockRate % c.frameRate = 0) && decide (c.sampleRate % c.frameRate = 0)) &&
  (decide (1 ≤ c.endTime) && decide (1 ≤ c.samplesPerFrame)) &&
  (decide (1 ≤ c.minPeriod) && decide (c.minPeriod ≤ c.maxPeriod)) &&
  (decide (5 ≤ c.lfsrBits) && c.maskWf c.noiseFb0 && c.maskWf c.noiseFb1) &&
  (decide (1 ≤ c.pcmLen) && decide (1 ≤ c.pcmPeriod)) &&
  (decide (c.pcmBits = 8) || (decide (c.pcmBits = 4) && decide (c.pcmLen % 2 = 0)))

/-- The reference configuration REFCFG (R2). -/
def refCfg : Cfg where
  ch := 4
  ringLen := 12
  clockRate := 2088960
  frameRate := 60
  sampleRate := 44100
  freqScale := 2
  rate := 130560
  minPeriod := 10
  maxPeriod := 4096
  ampMax := 32767
  lfsrBits := 15
  noiseFb0 := 0x6000
  noiseFb1 := 0x4100
  pcmLen := 128
  pcmBits := 8
  blip := .zoh

/-- The small configuration TESTCFG of the hand-checkable vectors (R2). -/
def testCfg : Cfg where
  ch := 2
  ringLen := 4
  clockRate := 15360
  frameRate := 60
  sampleRate := 480
  freqScale := 2
  rate := 1024
  minPeriod := 4
  maxPeriod := 128
  ampMax := 32767
  lfsrBits := 15
  noiseFb0 := 0x6000
  noiseFb1 := 0x4100
  pcmLen := 4
  pcmBits := 8
  blip := .zoh

end Sys2Proof
end

