-- ==== Sys2Proof/Syntax.lean ====
section
/-! DEFINITION. The data the block exchanges (Register, stereo gains, Snapshot: spec/10_state.md R11, R12), the
operations of spec/30_encoding.md R60 as one inductive `Instr` (one constructor per row of opcode_table.json), and the
inputs that request them. -/

namespace Sys2Proof

/-- A side (spec/00_scope.md section 5.3): left is index 0, right is index 1. -/
inductive Side where
  | L
  | R
  deriving DecidableEq, Repr

/-- The noise color (R64): bit 0 of `wave[0]`. -/
inductive Color where
  | zero
  | one
  deriving DecidableEq, Repr

/-- What the waveform multiplexer selects (spec/41_oscillator.md R102): three outcomes. -/
inductive Gen where
  | noise (color : Color)
  | tone
  deriving DecidableEq, Repr

/-- A channel Register (R11): a 32-entry table of 4-bit samples, a 12-bit frequency code, a 4-bit volume. -/
structure Register where
  wave : Vector Nibble 32
  freq : BitVec 12
  volume : Nibble
  deriving DecidableEq, Repr

/-- The two stereo gains of one channel (R12, R65). -/
structure Stereo where
  left : Nibble
  right : Nibble
  deriving DecidableEq, Repr

/-- A Snapshot (R12): one Register and one gain pair per channel and the PCM buffer, each sample unsigned and
zero-extended to a byte (R67). -/
structure Snapshot where
  reg : List Register
  stereo : List Stereo
  pcm : List Byte
  deriving DecidableEq, Repr

/-- Which oscillator a micro-operation works on: `osc[side][ch]` (R22) or `pcmosc[side]` (R23). -/
inductive OscId where
  | chan (side : Side) (ch : Nat)
  | pcm (side : Side)
  deriving DecidableEq, Repr

/-- The operands a channel generator takes beside its Register word (DESIGN CHOICE, safe, log entry 10; spec/41_oscillator.md R106: `o = osc[side][i]`,
`B = blip[side]`, `gain` the stereo gain of that side). -/
structure GenCtx where
  side : Side
  ch : Nat
  gain : Nibble
  deriving DecidableEq, Repr

/-- The operand of a SYNC step (spec/30_encoding.md R72, spec/40_ring_buffer.md R85). -/
inductive SyncPick where
  /-- `SYNC_HEAD` with `v` omitted: the true index. -/
  | current
  /-- `SYNC_HEAD v`: the view becomes `v`. -/
  | value (v : Nat)
  /-- The crossing's own draw: a free value within the range of the rule (U9). -/
  | draw
  deriving DecidableEq, Repr

/-- The operations of the block: one constructor per row of spec/opcode_table.json (R60). -/
inductive Instr where
  /-- RESET (spec/70_reset_and_hazards.md R170). -/
  | reset
  /-- PUSH s (spec/40_ring_buffer.md R82); the snapshot by its raw bytes, lowest address first (R66). -/
  | push (snap : List Byte)
  /-- RENDER (spec/42_synth_frame.md R132). -/
  | render
  /-- RT_SELECT (R83). -/
  | rtSelect
  /-- RT_ADVANCE (R84). -/
  | rtAdvance
  /-- SYNC_HEAD v (R85). -/
  | syncHead (pick : SyncPick)
  /-- SYNC_TAIL v (R86). -/
  | syncTail (pick : SyncPick)
  /-- SYNTH_SIDE side cur (R131). -/
  | synthSide (side : Side) (cur : List Byte)
  /-- NOISE_RUN.0 (R109): the table is all 0x0, so only `freq` and `volume` are operands. -/
  | noiseRun0 (g : GenCtx) (freq : BitVec 12) (volume : Nibble)
  /-- NOISE_RUN.1 (R109): the table is all 0xF. -/
  | noiseRun1 (g : GenCtx) (freq : BitVec 12) (volume : Nibble)
  /-- TONE_RUN (R106). -/
  | toneRun (g : GenCtx) (r : Register)
  /-- TONE_STEP (R105). -/
  | toneStep (g : GenCtx) (r : Register)
  /-- NOISE_STEP color (R108). -/
  | noiseStep (g : GenCtx) (color : Color) (volume : Nibble)
  /-- PCM_RUN (R115); the PCM buffer as samples. -/
  | pcmRun (side : Side) (pcm : List Byte)
  /-- PCM_STEP (R114). -/
  | pcmStep (side : Side) (pcm : List Byte)
  /-- UPDATE_AMP new (R104). -/
  | updateAmp (osc : OscId) (new : Nat)
  /-- BLIP_ADD_DELTA t d (R135). -/
  | blipAddDelta (side : Side) (t : Nat) (d : Int)
  /-- BLIP_READ_OUT n (R136). -/
  | blipReadOut (side : Side) (n : Nat)
  deriving DecidableEq, Repr

/-- One thing an agent does next (spec/10_state.md R27): a word at a port (R61), a Register word at a generator
(format REG), or an operation of a format that has no word (AUTO, MICRO, IFACE). -/
inductive Input where
  /-- The 1-bit word SYS: `rst`. -/
  | sys (w : BitVec 1)
  /-- The 2-bit word PPORT (`p_push` in bit 0, `rst` in bit 1) and the operand `p_snap`, byte by byte. -/
  | pport (w : BitVec 2) (snap : List Byte)
  /-- The 3-bit word CPORT (`c_render` in bit 0, `c_busy` in bit 1, `rst` in bit 2). -/
  | cport (w : BitVec 3)
  /-- The 144-bit word REG and the generator it is given to. -/
  | reg (g : GenCtx) (w : BitVec 144)
  /-- An operation that no bit pattern requests, run by itself (DESIGN CHOICE, safe, log entry 13). -/
  | internal (i : Instr)
  deriving DecidableEq, Repr

end Sys2Proof
end

