-- ==== Sys2Proof/Machine/Flags.lean ====
section
/-! DEFINITION. The four computed conditions of spec/10_state.md R25 (`noise`, `color`, `full`, `empty`), never latched,
and the index arithmetic they use (spec/40_ring_buffer.md R81). -/

namespace Sys2Proof.Machine

/-- `prev(i) = (i + N - 1) mod N` (R81). -/
def prevIdx (n i : Nat) : Nat := (i + n - 1) % n

/-- `next(i) = (i + 1) mod N` (R81). -/
def nextIdx (n i : Nat) : Nat := (i + 1) % n

/-- `back2(i) = (i + N - 2) mod N` (R81). -/
def back2 (n i : Nat) : Nat := (i + n - 2) % n

/-- `(b - a) mod N` for indices below `N`: how far `b` lies ahead of `a` round the ring (R29). -/
def ringDist (n a b : Nat) : Nat := (b + n - a) % n

/-- `noise(r)` (spec/30_encoding.md R64): the table is flat at 0x0 or at 0xF. -/
def noise (r : Register) : Bool :=
  r.wave.toList.all (fun x => x == 0x0#4) || r.wave.toList.all (fun x => x == 0xF#4)

/-- `color(r) = r.wave[0][0]` (R64). -/
def color (r : Register) : Color := if (r.wave.getD 0 0).getLsbD 0 then .one else .zero

/-- `full`: `head = (tail_seen - 2) mod RING_LEN` (R25, R82). -/
def full (n head tailSeen : Nat) : Bool := head == back2 n tailSeen

/-- `empty`: `tail = head_seen` (R25, R84). -/
def empty (tail headSeen : Nat) : Bool := tail == headSeen

end Sys2Proof.Machine
end

