-- ==== Sys2Proof/Machine/Gray.lean ====
section
/-! DEFINITION. The gray code of the pointer crossing (spec/40_ring_buffer.md R90, R91; widths by spec/10_state.md R15). Code
words are natural numbers below `2^PTR_BITS` (DESIGN CHOICE, safe, log entry 9). -/

namespace Sys2Proof.Machine

/-- The least `k` at or above `from` with `2^k >= n`, searching `fuel` steps. -/
def leastPow (n : Nat) : Nat → Nat → Nat
  | 0, k => k
  | fuel + 1, k => if n ≤ 2 ^ k then k else leastPow n fuel (k + 1)

/-- `PTR_BITS`: the smallest `k` with `2^k >= RING_LEN` (R15). -/
def ptrBits (n : Nat) : Nat := leastPow n n 0

/-- `G(x) = x ^ (x >> 1)`, the reflected binary gray code (R90). -/
def reflected (x : Nat) : Nat := x ^^^ (x >>> 1)

/-- `gray(i)` on a ring of even length `n` (R90). -/
def gray (n i : Nat) : Nat := if i < n / 2 then reflected i else reflected (2 ^ ptrBits n - n + i)

/-- `Ginv(c)` on `k` bits (R91): `x[k-1] = c[k-1]` and `x[b] = x[b+1] ^ c[b]`, that is `x = c ^ (x >> 1)`. -/
def reflectedInv : Nat → Nat → Nat
  | 0, _ => 0
  | k + 1, c => c ^^^ reflectedInv k (c >>> 1)

/-- `ungray(c)` (R91) on the `n` code words: `Ginv(c)` in the lower half, `Ginv(c) - (2^k - N)` in the upper half, whose code
words are those with `2^k - N/2 <= Ginv(c) < 2^k`. On every other pattern the rule allows any value and no run applies it:
there it is a free value (DESIGN CHOICE, safe, log entry 18). -/
def ungray (n c : Nat) : Nat :=
  let x := reflectedInv (ptrBits n) c
  if x < n / 2 then x
  else if 2 ^ ptrBits n - n / 2 ≤ x ∧ x < 2 ^ ptrBits n then x - (2 ^ ptrBits n - n)
  else Config.ungrayOther n c

end Sys2Proof.Machine
end

