-- ==== Sys2Proof/WellFormed.lean ====
section
/-! DEFINITION. Which operands an operation may have, for a configuration: the checks of syntax. No bit pattern of a
snapshot is ill-formed (spec/30_encoding.md R70); the checks are about sizes, channel numbers and the stated
preconditions of the accumulator's calls. -/

namespace Sys2Proof

/-- A snapshot operand is `SNAP_BYTES` bytes (R66), of any value (R70). -/
def snapWf (c : Cfg) (snap : List Byte) : Bool := snap.length == c.snapBytes

/-- The PCM operand is `PCM_LEN` samples of `PCM_BITS` bits (R12, R67). -/
def pcmWf (c : Cfg) (pcm : List Byte) : Bool := pcm.length == c.pcmLen && pcm.all (fun s => decide (s.toNat < 2 ^ c.pcmBits))

/-- The channel number names a channel (R22). -/
def GenCtx.wf (c : Cfg) (g : GenCtx) : Bool := decide (g.ch < c.ch)

/-- The oscillator exists (R22, R23). -/
def OscId.wf (c : Cfg) : OscId → Bool
  | .chan _ ch => decide (ch < c.ch)
  | .pcm _ => true

/-- A written SYNC value is an index (R20, R21); whether the rule allows it depends on the state (R85). -/
def SyncPick.wf (c : Cfg) : SyncPick → Bool
  | .current => true
  | .value v => decide (v < c.ringLen)
  | .draw => true

/-- The operation's operands are well-formed. A flat table at 0x0 or 0xF is not an operand of TONE_RUN, whose patterns are
what NOISE_RUN leaves (R71). The accumulator's preconditions are those of spec/42_synth_frame.md R134. -/
def Instr.wf (c : Cfg) : Instr → Bool
  | .reset => true
  | .push snap => snapWf c snap
  | .render => true
  | .rtSelect => true
  | .rtAdvance => true
  | .syncHead pick => pick.wf c
  | .syncTail pick => pick.wf c
  | .synthSide _ cur => snapWf c cur
  | .noiseRun0 g _ _ => g.wf c
  | .noiseRun1 g _ _ => g.wf c
  | .toneRun g r => g.wf c && !Machine.noise r
  | .toneStep g _ => g.wf c
  | .noiseStep g _ _ => g.wf c
  | .pcmRun _ pcm => pcmWf c pcm
  | .pcmStep _ pcm => pcmWf c pcm
  | .updateAmp osc _ => osc.wf c
  | .blipAddDelta _ t _ => decide (t < c.endTime)
  | .blipReadOut _ n => n == c.samplesPerFrame

end Sys2Proof
end

