-- ==== Sys2Proof/Decode.lean ====
section
/-! DEFINITION. The formats of spec/30_encoding.md: the Register (R62, R63), the stereo byte (R65), the PCM buffer (R67),
the snapshot (R66, spec/20_memory.md R41), the port words (R61) and the generator decode with its priority (R71), each
with its encoder. Decoding is total: it gives an operation, or says by name why there is none. -/

namespace Sys2Proof

/-! ### The Register -/

/-- `wave[0 .. 31]` as one number, `wave[0]` lowest. -/
def packNibbles : List Nibble → Nat
  | [] => 0
  | x :: xs => x.toNat + 16 * packNibbles xs

/-- The Register of a 144-bit value `W` (R62): `freq = W[11:0]`, `volume = W[15:12]`, `wave[j] = W[16+4j+3 : 16+4j]`. -/
def registerOfWord (w : BitVec 144) : Register where
  wave := ⟨⟨(List.range 32).map fun j => w.extractLsb' (16 + 4 * j) 4⟩, by simp⟩
  freq := w.extractLsb' 0 12
  volume := w.extractLsb' 12 4

/-- The 144-bit value of a Register (R62). -/
def wordOfRegister (r : Register) : BitVec 144 :=
  BitVec.ofNat 144 (r.freq.toNat + 2 ^ 12 * r.volume.toNat + 2 ^ 16 * packNibbles r.wave.toList)

/-- Field assembly from the 18 bytes `b[0 .. 17]` of a Register (R63). -/
def registerOfBytes (b : List Byte) : Register where
  wave := ⟨⟨(List.range 32).map fun j => ((b.getD (2 + j / 2) 0 >>> (4 * (j % 2))) &&& 0x0F#8).setWidth 4⟩, by simp⟩
  freq := BitVec.ofNat 12 ((b.getD 1 0 &&& 0x0F#8).toNat * 256 + (b.getD 0 0).toNat)
  volume := (b.getD 1 0 >>> 4).setWidth 4

/-- The encoder of R63: `b[0] = freq & 0xFF`, `b[1] = (volume << 4) | (freq >> 8)`, `b[2+k] = wave[2k] | (wave[2k+1] << 4)`. -/
def bytesOfRegister (r : Register) : List Byte :=
  (r.freq &&& 0xFF#12).setWidth 8 ::
  (((r.volume.setWidth 8 <<< 4) ||| (r.freq >>> 8).setWidth 8) ::
  (List.range 16).map fun k =>
    (r.wave.getD (2 * k) 0).setWidth 8 ||| ((r.wave.getD (2 * k + 1) 0).setWidth 8 <<< 4))

/-! ### Stereo, PCM and snapshot -/

/-- The stereo gains of a byte (R65): `left = byte[3:0]`, `right = byte[7:4]`. -/
def stereoOfByte (b : Byte) : Stereo where
  left := b.extractLsb' 0 4
  right := b.extractLsb' 4 4

/-- The byte of two stereo gains (R65). -/
def byteOfStereo (s : Stereo) : Byte := (s.right.setWidth 8 <<< 4) ||| s.left.setWidth 8

/-- Sample `k` of a PCM buffer held in bytes (R67): byte `k`, or for 4-bit samples a nibble of byte `k div 2`. -/
def pcmSample (c : Cfg) (b : List Byte) (k : Nat) : Byte :=
  if c.pcmBits = 4 then (b.getD (k / 2) 0 >>> (4 * (k % 2))) &&& 0x0F#8 else b.getD k 0

/-- The PCM buffer's `PCM_LEN` samples (R67). -/
def pcmOfBytes (c : Cfg) (b : List Byte) : List Byte := (List.range c.pcmLen).map (pcmSample c b)

/-- The PCM buffer's bytes (R67). -/
def bytesOfPcm (c : Cfg) (pcm : List Byte) : List Byte :=
  if c.pcmBits = 4 then (List.range c.pcmBytes).map fun k => pcm.getD (2 * k) 0 ||| (pcm.getD (2 * k + 1) 0 <<< 4) else pcm

/-- The snapshot of `SNAP_BYTES` bytes (R66) at the offsets of spec/20_memory.md R41: `reg[c]` at `18 * c`, `stereo[c]` at
`18 * CH + c`, `pcm` at `19 * CH`. -/
def snapshotOfBytes (c : Cfg) (b : List Byte) : Snapshot where
  reg := (List.range c.ch).map fun i => registerOfBytes ((b.drop (regBytes * i)).take regBytes)
  stereo := (List.range c.ch).map fun i => stereoOfByte (b.getD (regBytes * c.ch + i) 0)
  pcm := pcmOfBytes c (b.drop ((regBytes + 1) * c.ch))

/-- The bytes of a snapshot, `reg[0] ‖ … ‖ stereo[0] ‖ … ‖ pcm` (R66). -/
def bytesOfSnapshot (c : Cfg) (s : Snapshot) : List Byte :=
  s.reg.flatMap bytesOfRegister ++ s.stereo.map byteOfStereo ++ bytesOfPcm c s.pcm

/-! ### Generator decode -/

/-- The mask `M` of R71: the 144-bit mask with bits 143:16, the waveform field, set. -/
def waveMask : BitVec 144 := 0xFFFFFFFFFFFFFFFFFFFFFFFFFFFFFFFF0000#144

/-- The generator a Register word selects (R71), in the priority order of the opcode table: `W & M = 0`, then
`W & M = M`, then every other pattern. -/
def genOfWord (w : BitVec 144) : Gen :=
  if w &&& waveMask = 0 then .noise .zero else if w &&& waveMask = waveMask then .noise .one else .tone

/-- The Register a noise word stands for: a flat table at 0x0 or at 0xF (R64). -/
def flatRegister (col : Color) (freq : BitVec 12) (volume : Nibble) : Register where
  wave := Vector.replicate 32 (match col with | .zero => 0x0#4 | .one => 0xF#4)
  freq := freq
  volume := volume

/-! ### Operations -/

/-- Why an input is no operation of the block. -/
inductive Reject where
  /-- The operands are not well-formed (`Instr.wf`): no port can carry them. -/
  | illFormed
  /-- An operation that has a word was given without it: SYS, PPORT, CPORT and REG operations come as words (R61). -/
  | needsWord
  deriving DecidableEq, Repr

/-- What an input is decoded to. -/
inductive Decoded where
  | op (i : Instr)
  /-- `p_push` = 0, `c_render` = 0 or `rst` = 0: no operation (R61). -/
  | noOperation
  /-- `c_render` = 1 while `c_busy` = 1: an ignored request (R61, spec/70_reset_and_hazards.md R183). -/
  | ignored
  | reject (r : Reject)
  deriving DecidableEq, Repr

/-- The operation `i`, if its operands are well-formed. -/
def checked (c : Cfg) (i : Instr) : Decoded := if i.wf c then .op i else .reject .illFormed

/-- The operation is requested by a bit pattern (R61): formats SYS, PPORT, CPORT and REG. -/
def Instr.hasWord : Instr → Bool
  | .reset => true
  | .push _ => true
  | .render => true
  | .rtSelect => false
  | .rtAdvance => false
  | .syncHead _ => false
  | .syncTail _ => false
  | .synthSide _ _ => false
  | .noiseRun0 _ _ _ => true
  | .noiseRun1 _ _ _ => true
  | .toneRun _ _ => true
  | .toneStep _ _ => false
  | .noiseStep _ _ _ => false
  | .pcmRun _ _ => false
  | .pcmStep _ _ => false
  | .updateAmp _ _ => false
  | .blipAddDelta _ _ _ => false
  | .blipReadOut _ _ => false

/-- A SYS word: `rst` = 1 is RESET. -/
def decodeSys (w : BitVec 1) : Decoded := if w &&& 1#1 = 1#1 then .op .reset else .noOperation

/-- A PPORT word with its operand: `rst` = 1 is RESET and overrides the push (spec/60_exceptions.md R153 c; DEDUCED, safe, log entry 12); the
match and mask of PUSH are 0x1 and 0x3. -/
def decodePport (c : Cfg) (w : BitVec 2) (snap : List Byte) : Decoded :=
  if w.getLsbD 1 then .op .reset else if w &&& 0x3#2 = 0x1#2 then checked c (.push snap) else .noOperation

/-- A CPORT word: `rst` = 1 is RESET; the match and mask of RENDER are 0x1 and 0x7; `c_render` while `c_busy` is ignored. -/
def decodeCport (w : BitVec 3) : Decoded :=
  if w.getLsbD 2 then .op .reset else if w &&& 0x7#3 = 0x1#3 then .op .render
  else if w.getLsbD 0 then .ignored else .noOperation

/-- The generator run a Register word selects, with its fields pulled out (R62, R71). -/
def runOfWord (g : GenCtx) (w : BitVec 144) : Instr :=
  match genOfWord w with
  | .noise .zero => .noiseRun0 g (w.extractLsb' 0 12) (w.extractLsb' 12 4)
  | .noise .one => .noiseRun1 g (w.extractLsb' 0 12) (w.extractLsb' 12 4)
  | .tone => .toneRun g (registerOfWord w)

/-- Every input decodes: to an operation, to nothing, or to a named rejection. -/
def decode (c : Cfg) : Input → Decoded
  | .sys w => decodeSys w
  | .pport w snap => decodePport c w snap
  | .cport w => decodeCport w
  | .reg g w => checked c (runOfWord g w)
  | .internal i => if i.hasWord then .reject .needsWord else checked c i

/-- The words of an operation (R61, R62, R71). -/
def encode : Instr → Input
  | .reset => .sys 0x1#1
  | .push snap => .pport 0x1#2 snap
  | .render => .cport 0x1#3
  | .noiseRun0 g freq volume => .reg g (wordOfRegister (flatRegister .zero freq volume))
  | .noiseRun1 g freq volume => .reg g (wordOfRegister (flatRegister .one freq volume))
  | .toneRun g r => .reg g (wordOfRegister r)
  | .rtSelect => .internal .rtSelect
  | .rtAdvance => .internal .rtAdvance
  | .syncHead pick => .internal (.syncHead pick)
  | .syncTail pick => .internal (.syncTail pick)
  | .synthSide side cur => .internal (.synthSide side cur)
  | .toneStep g r => .internal (.toneStep g r)
  | .noiseStep g col volume => .internal (.noiseStep g col volume)
  | .pcmRun side pcm => .internal (.pcmRun side pcm)
  | .pcmStep side pcm => .internal (.pcmStep side pcm)
  | .updateAmp osc new => .internal (.updateAmp osc new)
  | .blipAddDelta side t d => .internal (.blipAddDelta side t d)
  | .blipReadOut side n => .internal (.blipReadOut side n)

/-! ### The opcode table's words -/

/-- The input a word of opcode_table.json stands for: 1, 2 and 3 bits are the words SYS, PPORT (with a snapshot of zero
bytes) and CPORT; a Register word is given to the generator of side L, channel 0, with gain 0. The table writes the same
number 0x1 for RESET, PUSH and RENDER, which only their formats tell apart: a whole byte is read as the SYS word, since
RESET overrides the other two (DESIGN CHOICE, safe, log entry 11). -/
def tableInput (c : Cfg) (nbits w : Nat) : Input :=
  if nbits = 2 then .pport (BitVec.ofNat 2 w) (List.replicate c.snapBytes 0)
  else if nbits = 3 then .cport (BitVec.ofNat 3 w)
  else if nbits ≤ 8 then .sys (BitVec.ofNat 1 w)
  else .reg ⟨.L, 0, 0⟩ (BitVec.ofNat 144 w)

/-- The operation the decoder reads from a word of opcode_table.json, in the reference configuration. -/
def decodeTableWord (nbits w : Nat) : Option Instr :=
  match decode refCfg (tableInput refCfg nbits w) with
  | .op i => some i
  | .noOperation => none
  | .ignored => none
  | .reject _ => none

end Sys2Proof
end

