-- ==== Sys2Proof/Machine/State.lean ====
section
/-! DEFINITION. The state of the block as plain data (spec/10_state.md), the reasons a step can stop, and the state after
RESET (R28). -/

namespace Sys2Proof.Machine

/-- One oscillator state `{time, phase, amp}` (R22, R23). `phase` is `LFSR_BITS` bits wide for a channel and an index into
the PCM buffer for the PCM sub-channel; the widths are invariants (DESIGN CHOICE, safe, log entry 9). -/
structure Osc where
  /-- Clock ticks from the start of the next frame to the generator's next step. -/
  time : Nat
  /-- The table index, the LFSR contents, or the PCM index (R112, R23). -/
  phase : Nat
  /-- The amplitude last submitted. -/
  amp : Nat
  deriving DecidableEq, Repr

/-- The state of a band-limited accumulator (R24, spec/42_synth_frame.md R134). -/
inductive BlipState where
  /-- The instance ZOH (R138): the running level and one bin per sample. -/
  | zoh (level : Int) (acc : List Int)
  /-- Any other instance, by what has been submitted to it: the frames read out so far, oldest first, and the present
  frame, each as the sum of the deltas at each time, times rising, no zero sums (DESIGN CHOICE, safe, log entry 7). -/
  | external (past : List (List (Nat × Int))) (now : List (Nat × Int))
  deriving DecidableEq, Repr

/-- All the consumer holds for one side: `osc[s][0 .. CH-1]`, `pcmosc[s]`, `blip[s]` (R22 to R24), and the samples of the
side's last read-out (the model's own latch of the result of SYNTH_SIDE and BLIP_READ_OUT, DESIGN CHOICE, unsafe, log entry 14). -/
structure SideState where
  osc : List Osc
  pcmosc : Osc
  blip : BlipState
  out : List Sample
  deriving DecidableEq, Repr

/-- One frame of audio, the result of a RENDER (R139): `SAMPLES_PER_FRAME` samples a side. -/
structure Frame where
  left : List Sample
  right : List Sample
  deriving DecidableEq, Repr

/-- The state of the machine. -/
structure State where
  /-- The configuration, static (R27, spec/70_reset_and_hazards.md R188; DESIGN CHOICE, safe, log entry 1). -/
  cfg : Cfg
  /-- The ring memory `slot[0 .. RING_LEN-1]` (R13): addresses strictly rising, no byte 0x00 listed. -/
  mem : List Host.Cell
  /-- The next write slot, producer-owned (R15). -/
  head : Nat
  /-- The next read slot, consumer-owned (R16). -/
  tail : Nat
  /-- `head` as the consumer observes it (R20). -/
  headSeen : Nat
  /-- `tail` as the producer observes it (R21). -/
  tailSeen : Nat
  /-- The left side's synthesizer state. -/
  left : SideState
  /-- The right side's synthesizer state. -/
  right : SideState
  /-- A render is in progress (R26). -/
  busy : Bool
  /-- The snapshot RT_SELECT chose last (R83); the model's own latch of a result (DESIGN CHOICE, unsafe, log entry 14). -/
  cur : List Byte
  /-- The frames delivered, oldest first (R139); the model's own record of the output. -/
  frames : List Frame
  /-- What the agents do next, oldest first (R27); the model's own (DESIGN CHOICE, safe, log entry 3). -/
  inputs : List Input
  /-- How many free draws the crossing has made (R85, R86); the model's own (DESIGN CHOICE, safe, log entry 5). -/
  draws : Nat
  deriving DecidableEq, Repr

/-- Why the machine faults. The block itself raises nothing (spec/60_exceptions.md R150). -/
inductive Fault where
  /-- PUSH or RT_SELECT reached `addr`, past the end of the ring memory, which does not exist (spec/20_memory.md R40).
  Only a state with an index at or above `RING_LEN` gets here, and no such state is reachable (U4; DEDUCED, safe, log entry 15). -/
  | ringAddress (addr : Nat)
  deriving DecidableEq, Repr

/-- Why the model gives an operation no next state (all safe; DESIGN CHOICE, safe, log entry 16). -/
inductive Refusal where
  /-- An instruction that has no meaning yet; raised by `exec` alone. Safe. -/
  | notModelled (mnemonic : String)
  /-- The step refuses a configuration that is not well-formed (spec/00_scope.md R3, U2). Safe. -/
  | configNotWellFormed
  /-- The step refuses an input the decoder rejects. Safe. -/
  | rejected (r : Reject)
  /-- PUSH or SYNTH_SIDE with a snapshot that is not `SNAP_BYTES` bytes: no port carries one (R61, R66). Safe. -/
  | snapshotSize
  /-- PCM_RUN or PCM_STEP with a buffer that is not `PCM_LEN` samples (R12). Safe. -/
  | pcmSize
  /-- A generator operation on a channel at or above `CH` (R22). Safe. -/
  | noSuchChannel
  /-- A generator step, UPDATE_AMP or BLIP_ADD_DELTA at a time at or past `END_TIME`: outside the accumulator's contract
  (spec/42_synth_frame.md R134), and no run issues it (R121). Safe. -/
  | timeOutsideFrame
  /-- BLIP_READ_OUT or SYNTH_SOUND with a count other than `SAMPLES_PER_FRAME` (R133, R134, U6). Safe. -/
  | sampleCount
  /-- SYNC_HEAD v or SYNC_TAIL v with a value the rule does not allow (spec/30_encoding.md R72, R85, R86). Safe. -/
  | syncValue
  deriving DecidableEq, Repr

/-- The cleared oscillator (R28). -/
def Osc.init : Osc := ⟨0, 0, 0⟩

/-- `Blip.init` (R134): for ZOH level 0 and every bin 0 (R138), for another instance nothing submitted. -/
def BlipState.init (c : Cfg) : BlipState :=
  match c.blip with
  | .zoh => .zoh 0 (List.replicate c.samplesPerFrame 0)
  | .external => .external [] []

/-- One side after RESET (R28). -/
def SideState.init (c : Cfg) : SideState where
  osc := List.replicate c.ch Osc.init
  pcmosc := Osc.init
  blip := BlipState.init c
  out := []

/-- The machine right after RESET in the configuration `c` (R28): every piece of state at its reset value, nothing
delivered and nothing requested yet. -/
def State.resetWith (c : Cfg) : State where
  cfg := c
  mem := []
  head := 0
  tail := 0
  headSeen := 0
  tailSeen := 0
  left := SideState.init c
  right := SideState.init c
  busy := false
  cur := List.replicate c.snapBytes 0
  frames := []
  inputs := []
  draws := 0

/-- The machine right after RESET, in the reference configuration REFCFG (DESIGN CHOICE, unsafe, log entry 2). -/
def State.reset : State := State.resetWith refCfg

end Sys2Proof.Machine
end

