-- ==== Sys2Proof/Machine/Ops.lean ====
section
/-! DEFINITION. The named operations over the ring memory, the indices, the two sides and the oscillators, which every
meaning is written over; and fetching the next input. The block raises no exception and has no trap entry or return
(spec/60_exceptions.md R150, R154), so no such operation stands here. -/

namespace Sys2Proof.Machine

/-- The result of a step of this machine. -/
abbrev Result := Host.Outcome State Fault Refusal

/-! ### Ring memory (spec/20_memory.md) -/

/-- What an unlisted address reads as: the reset contents 0x00 (R28). -/
def unlistedByte : Byte := 0x00

/-- The byte at an address. -/
def readByte : List Host.Cell → Nat → Byte
  | [], _ => unlistedByte
  | (a, b) :: rest, x => if a = x then b else readByte rest x

/-- Write one byte and keep the canonical form: addresses rising, no unlisted value listed. -/
def writeByte : List Host.Cell → Nat → Byte → List Host.Cell
  | [], x, v => if v = unlistedByte then [] else [(x, v)]
  | (a, b) :: rest, x, v =>
    if x < a then (if v = unlistedByte then (a, b) :: rest else (x, v) :: (a, b) :: rest)
    else if x = a then (if v = unlistedByte then rest else (x, v) :: rest)
    else (a, b) :: writeByte rest x v

/-- Write bytes at rising addresses, the first at `x`. -/
def writeBytes : List Host.Cell → Nat → List Byte → List Host.Cell
  | m, _, [] => m
  | m, x, b :: bs => writeBytes (writeByte m x b) (x + 1) bs

/-- The memory is in canonical form: no listed byte is 0x00, and addresses rise strictly. -/
def memWf : List Host.Cell → Bool
  | [] => true
  | (a, b) :: rest => decide (b ≠ unlistedByte) && rest.all (fun cell => decide (a < cell.1)) && memWf rest

/-- `MemRead(addr, n)` (R7): `n` bytes, lowest address first; none where an address does not exist (R40). -/
def memRead (c : Cfg) (m : List Host.Cell) (addr n : Nat) : Option (List Byte) :=
  if addr + n ≤ c.ringBytes then some ((List.range n).map fun k => readByte m (addr + k)) else none

/-- `MemWrite(addr, n, v)` (R7); none where an address does not exist (R40). -/
def memWrite (c : Cfg) (m : List Host.Cell) (addr : Nat) (v : List Byte) : Option (List Host.Cell) :=
  if addr + v.length ≤ c.ringBytes then some (writeBytes m addr v) else none

/-- Slot `i` starts at byte address `i * SNAP_BYTES` (R41). -/
def slotAddr (c : Cfg) (i : Nat) : Nat := i * c.snapBytes

/-! ### Indices (spec/40_ring_buffer.md) -/

/-- `head_gray`, the only form in which `head` leaves the producer domain (spec/10_state.md R17; DEDUCED, safe, log entry 6). -/
def State.headGray (s : State) : Nat := gray s.cfg.ringLen s.head

/-- `tail_gray` (spec/10_state.md R18). -/
def State.tailGray (s : State) : Nat := gray s.cfg.ringLen s.tail

/-- The slot RT_SELECT chooses, `(tail + N - 1) mod N` (R83). -/
def State.readSlot (s : State) : Nat := prevIdx s.cfg.ringLen s.tail

/-- Advance `head` unless the ring is full for the producer (R82). -/
def advanceHead (s : State) : State :=
  if full s.cfg.ringLen s.head s.tailSeen then s else { s with head := nextIdx s.cfg.ringLen s.head }

/-- Advance `tail` unless the ring is empty for the consumer (R84). -/
def advanceTail (s : State) : State :=
  if empty s.tail s.headSeen then s else { s with tail := nextIdx s.cfg.ringLen s.tail }

/-- How many places a SYNC step moves the view `seen` of the index `idx` (R85, R86): all of the distance `d` where the
value is omitted, the distance to a written value the rule allows, or a free draw from `0 .. d` (U9). -/
def syncMove (n seen idx draws : Nat) : SyncPick → Option Nat
  | .current => some (ringDist n seen idx)
  | .value v => if v < n ∧ ringDist n seen v ≤ ringDist n seen idx then some (ringDist n seen v) else none
  | .draw => some (Config.freeDraw draws % (ringDist n seen idx + 1))

/-- A free draw reads the draw counter and advances it. -/
def drawsAfter (draws : Nat) : SyncPick → Nat
  | .current => draws
  | .value _ => draws
  | .draw => draws + 1

/-! ### Sides and oscillators (spec/10_state.md R22 to R24) -/

/-- The synthesizer state of a side. -/
def State.side (s : State) : Side → SideState
  | .L => s.left
  | .R => s.right

/-- Replace the synthesizer state of a side. -/
def State.setSide (s : State) (side : Side) (x : SideState) : State :=
  match side with
  | .L => { s with left := x }
  | .R => { s with right := x }

/-- What a generator works on: one oscillator state `o` and the accumulator state `B` of its side
(spec/41_oscillator.md: the `o` and `B` of every rule). -/
structure Voice where
  osc : Osc
  blip : BlipState
  deriving DecidableEq, Repr

/-- The side an oscillator belongs to. -/
def oscSide : OscId → Side
  | .chan side _ => side
  | .pcm side => side

/-- The oscillator's state, where the oscillator exists. -/
def SideState.osc? (x : SideState) : OscId → Option Osc
  | .chan _ ch => x.osc[ch]?
  | .pcm _ => some x.pcmosc

/-- Store a generator's result: its oscillator state and its side's accumulator. -/
def SideState.putVoice (x : SideState) (id : OscId) (v : Voice) : SideState :=
  match id with
  | .chan _ ch => { x with osc := x.osc.set ch v.osc, blip := v.blip }
  | .pcm _ => { x with pcmosc := v.osc, blip := v.blip }

/-- Run `f` on one oscillator and its side's accumulator. -/
def onVoice (id : OscId) (f : Voice → Voice) (s : State) : Result :=
  match (s.side (oscSide id)).osc? id with
  | none => .refused .noSuchChannel
  | some o => .next (s.setSide (oscSide id) ((s.side (oscSide id)).putVoice id (f ⟨o, (s.side (oscSide id)).blip⟩)))

/-- Run one generator step, which is issued only inside the frame, while `o.time < END_TIME`
(spec/41_oscillator.md R100, R121). -/
def onVoiceInFrame (id : OscId) (f : Voice → Voice) (s : State) : Result :=
  match (s.side (oscSide id)).osc? id with
  | none => .refused .noSuchChannel
  | some o => if o.time < s.cfg.endTime then onVoice id f s else .refused .timeOutsideFrame

/-! ### Fetching the next input -/

/-- Bit 1 of a CPORT word is `c_busy`, which the block itself drives (spec/30_encoding.md R61). -/
def withBusy (busy : Bool) : Input → Input
  | .cport w => .cport ((w &&& 0b101#3) ||| (if busy then 0b010#3 else 0b000#3))
  | .sys w => .sys w
  | .pport w snap => .pport w snap
  | .reg g w => .reg g w
  | .internal i => .internal i

/-- The oldest input, decoded, and the state without it; none where no agent does anything. -/
def fetch (s : State) : Option (Decoded × State) :=
  match s.inputs with
  | [] => none
  | inp :: rest => some (decode s.cfg (withBusy s.busy inp), { s with inputs := rest })

/-- The value of `c_busy` a CPORT word shows; other words leave it as it is. -/
def busyOf (busy : Bool) : Input → Bool
  | .cport w => w.getLsbD 1
  | .sys _ => busy
  | .pport _ _ => busy
  | .reg _ _ => busy
  | .internal _ => busy

/-- Put an input first in line, with the `c_busy` its word shows. -/
def placeInput (s : State) (inp : Input) : State := { s with inputs := inp :: s.inputs, busy := busyOf s.busy inp }

end Sys2Proof.Machine
end

