-- ==== Sys2Proof/Machine/Operands.lean ====
section
/-! DEFINITION. The functions of spec/41_oscillator.md that turn a Register, a gain or a sample into a period, a generator
choice or an amplitude. All on unbounded integers (R118). -/

namespace Sys2Proof.Machine

/-- `clamp(x, lo, hi)` (spec/00_scope.md section 5.1). -/
def clampInt (x lo hi : Int) : Int := if x < lo then lo else if x > hi then hi else x

/-- `FREQ2PERIOD(f)` (R101). -/
def freq2period (c : Cfg) (f : Nat) : Nat :=
  if f = 0 then c.maxPeriod else (clampInt ((c.rate / f : Nat) - 1 : Int) c.minPeriod c.maxPeriod).toNat

/-- The tone generator's period: `FREQ2PERIOD(r.freq * FREQ_SCALE)` (R101, R106). -/
def tonePeriod (c : Cfg) (freq : BitVec 12) : Nat := freq2period c (freq.toNat * c.freqScale)

/-- The noise generator's period: `FREQ2PERIOD(r.freq)` (R101, R109). -/
def noisePeriod (c : Cfg) (freq : BitVec 12) : Nat := freq2period c freq.toNat

/-- `GEN_SELECT(r)`, the waveform multiplexer (R102). -/
def genSelect (r : Register) : Gen := if noise r then .noise (color r) else .tone

/-- `GET_AMP(volume, a)`, in exactly this order (R103). -/
def getAmp (c : Cfg) (volume a : Nat) : Nat := a * c.ampMax / maxVolume * volume / maxVolume / c.ch

/-- Sample `j` of the waveform table. -/
def Register.sample (r : Register) (j : Nat) : Nat := (r.wave.getD j 0).toNat

/-- The tone level `a = (r.wave[phase] * gain) div MAX_VOLUME` (R111). -/
def toneLevel (r : Register) (gain : Nibble) (phase : Nat) : Nat := Register.sample r phase * gain.toNat / maxVolume

/-- The noise level: the gain when the low bit of `phase` is 1, else 0 (R110). -/
def noiseLevel (gain : Nibble) (phase : Nat) : Nat := if phase % 2 = 1 then gain.toNat else 0

/-- The amplitude of a tone at table index `phase` (R105). -/
def toneAmp (c : Cfg) (r : Register) (gain : Nibble) (phase : Nat) : Nat :=
  getAmp c r.volume.toNat (toneLevel r gain phase)

/-- The amplitude of the noise generator for LFSR contents `phase` (R108). -/
def noiseAmp (c : Cfg) (volume gain : Nibble) (phase : Nat) : Nat := getAmp c volume.toNat (noiseLevel gain phase)

/-- `NOISE_FB[color]` (R108). -/
def noiseFb (c : Cfg) : Color → Nat
  | .zero => c.noiseFb0
  | .one => c.noiseFb1

/-- One shift of the LFSR, Galois form to the right (R108). -/
def lfsrStep (fb phase : Nat) : Nat := (phase >>> 1) ^^^ (if phase % 2 = 1 then fb else 0)

/-- The seed (R107): contents 0 are replaced by 1. -/
def lfsrSeed (phase : Nat) : Nat := if phase = 0 then 1 else phase

/-- `PCM_AMP(s)` (R117). -/
def pcmAmp (c : Cfg) (s : Nat) : Nat := s * c.ampMax / c.pcmMax / c.ch

/-- The stereo gain a side uses (spec/42_synth_frame.md R131). -/
def gainOf (side : Side) (g : Stereo) : Nibble :=
  match side with
  | .L => g.left
  | .R => g.right

end Sys2Proof.Machine
end

