-- ==== Sys2Proof/Machine/Blip.lean ====
section
/-! DEFINITION. The band-limited accumulator behind its interface (spec/42_synth_frame.md R134 to R138): the reference
instance ZOH, and any other instance that satisfies the laws of R137, known by its history. -/

namespace Sys2Proof.Machine

/-- A level as a 16-bit sample: saturated, never wrapped (R137 law 7, R138). -/
def clamp16 (x : Int) : Sample := BitVec.ofInt 16 (clampInt x (-32768) 32767)

/-- The bin of a time (R138): `(t * SAMPLES_PER_FRAME) div END_TIME`. -/
def zohBin (c : Cfg) (t : Nat) : Nat := t * c.samplesPerFrame / c.endTime

/-- The read-out loop of ZOH (R138): the level after `n` bins and the samples. -/
def zohScan : Int → List Int → Nat → Int × List Sample
  | level, _, 0 => (level, [])
  | level, acc, n + 1 =>
    let r := zohScan (level + acc.headD 0) acc.tail n
    (r.1, clamp16 (level + acc.headD 0) :: r.2)

/-- Add `d` to the sum at time `t`, times rising, no zero sum listed: two frames that differ only in the order of their
deltas, in zero deltas, or in how one time's sum is split are the same list (R137 laws 1 to 3). -/
def insertDelta (t : Nat) (d : Int) : List (Nat × Int) → List (Nat × Int)
  | [] => if d = 0 then [] else [(t, d)]
  | (u, e) :: rest =>
    if t < u then (if d = 0 then (u, e) :: rest else (t, d) :: (u, e) :: rest)
    else if t = u then (if e + d = 0 then rest else (u, e + d) :: rest)
    else (u, e) :: insertDelta t d rest

/-- The history without the frames at its end in which nothing changed. -/
def settledPart (h : List (List (Nat × Int))) : List (List (Nat × Int)) := (h.reverse.dropWhile List.isEmpty).reverse

/-- `S` of R137 law 6: the sum of all deltas submitted since `init`. -/
def deltaSum (h : List (List (Nat × Int))) : Int := (h.map fun f => (f.map Prod.snd).sum).sum

/-- Sample `k` of the frame another lawful instance reads out after the history `h` (the frame read out is its last):
0 while nothing was ever submitted (law 5), the saturated sum once it has settled (law 6), else a free value (U7). -/
def externalSample (c : Cfg) (h : List (List (Nat × Int))) (k : Nat) : Sample :=
  if settledPart h = [] then 0#16
  else if Config.externalSettle c.clockRate c.sampleRate (settledPart h) < h.length - (settledPart h).length then
    clamp16 (deltaSum h)
  else Config.externalBlip c.clockRate c.sampleRate h k

/-- `Blip.add_delta` (R134, R135, R138). -/
def addDelta (c : Cfg) (b : BlipState) (t : Nat) (d : Int) : BlipState :=
  match b with
  | .zoh level acc => .zoh level (acc.modify (zohBin c t) (fun x => x + d))
  | .external past now => .external past (insertDelta t d now)

/-- `Blip.read_out` (R134, R136, R138): `n` samples, and the accumulator at the start of the next frame. -/
def readOut (c : Cfg) (b : BlipState) (n : Nat) : BlipState × List Sample :=
  match b with
  | .zoh level acc =>
    let r := zohScan level acc n
    (.zoh r.1 (List.replicate c.samplesPerFrame 0), r.2)
  | .external past now =>
    (.external (past ++ [now]) [], (List.range n).map (externalSample c (past ++ [now])))

/-- BLIP_ADD_DELTA t d on side `s` (R135). The interface requires `t < END_TIME` (R134). -/
def execBlipAddDelta (side : Side) (t : Nat) (d : Int) (s : State) : Result :=
  if t < s.cfg.endTime then .next (s.setSide side { s.side side with blip := addDelta s.cfg (s.side side).blip t d })
  else .refused .timeOutsideFrame

/-- The read-out of one side, its samples latched in `out` (R136). -/
def readOutSide (c : Cfg) (n : Nat) (x : SideState) : SideState :=
  { x with blip := (readOut c x.blip n).1, out := (readOut c x.blip n).2 }

/-- BLIP_READ_OUT n on side `s` (R136). The interface requires `n = SAMPLES_PER_FRAME` (R134). -/
def execBlipReadOut (side : Side) (n : Nat) (s : State) : Result :=
  if n = s.cfg.samplesPerFrame then .next (s.setSide side (readOutSide s.cfg n (s.side side)))
  else .refused .sampleCount

end Sys2Proof.Machine
end

