-- ==== Sys2Proof/Machine/Oscillator.lean ====
section
/-! DEFINITION. The delta generator and the three generators (spec/41_oscillator.md): UPDATE_AMP, TONE_STEP, TONE_RUN,
NOISE_STEP, NOISE_RUN of both colors, PCM_STEP, PCM_RUN. -/

namespace Sys2Proof.Machine

/-- UPDATE_AMP(o, new, B) (R104): the signed change goes to the accumulator at `o.time`; a zero change is not submitted,
which the rule allows and law 1 of R137 hides (DEDUCED, safe, log entry 8). -/
def updateAmp (c : Cfg) (new : Nat) (v : Voice) : Voice where
  osc := { v.osc with amp := new }
  blip := if (new : Int) - v.osc.amp = 0 then v.blip else addDelta c v.blip v.osc.time ((new : Int) - v.osc.amp)

/-- Replace the phase register (R112: one register serves both generators). -/
def Voice.setPhase (v : Voice) (p : Nat) : Voice := { v with osc := { v.osc with phase := p } }

/-- Replace the time register. -/
def Voice.setTime (v : Voice) (t : Nat) : Voice := { v with osc := { v.osc with time := t } }

/-- TONE_STEP (R105): advance the index modulo 32, then look up. -/
def toneStep (c : Cfg) (r : Register) (gain : Nibble) (v : Voice) : Voice :=
  updateAmp c (toneAmp c r gain ((v.osc.phase + 1) % waveValues)) (v.setPhase ((v.osc.phase + 1) % waveValues))

/-- NOISE_STEP (R108): shift, then level by the new low bit. -/
def noiseStep (c : Cfg) (col : Color) (volume gain : Nibble) (v : Voice) : Voice :=
  updateAmp c (noiseAmp c volume gain (lfsrStep (noiseFb c col) v.osc.phase))
    (v.setPhase (lfsrStep (noiseFb c col) v.osc.phase))

/-- PCM_STEP (R114): look up, then advance the index modulo `PCM_LEN`. -/
def pcmStep (c : Cfg) (pcm : List Byte) (v : Voice) : Voice :=
  (updateAmp c (pcmAmp c (pcm.getD v.osc.phase 0).toNat) v).setPhase ((v.osc.phase + 1) % c.pcmLen)

/-- The loop of every run: while `o.time < END_TIME`, one step, then `o.time <- o.time + period`. Every period is at least
1 (R101, R116), so `END_TIME - o.time` turns are enough (R140). -/
def genLoop (c : Cfg) (period : Nat) (stepOne : Voice → Voice) : Nat → Voice → Voice
  | 0, v => v
  | fuel + 1, v =>
    if v.osc.time < c.endTime then
      genLoop c period stepOne fuel ((stepOne v).setTime ((stepOne v).osc.time + period))
    else v

/-- A run over one frame: the loop, then the time carry `o.time <- o.time - END_TIME` (R113). -/
def genRun (c : Cfg) (period : Nat) (stepOne : Voice → Voice) (v : Voice) : Voice :=
  let w := genLoop c period stepOne (c.endTime - v.osc.time) v
  w.setTime (w.osc.time - c.endTime)

/-- TONE_RUN (R106). -/
def toneRun (c : Cfg) (r : Register) (gain : Nibble) (v : Voice) : Voice :=
  genRun c (tonePeriod c r.freq) (toneStep c r gain) v

/-- NOISE_RUN (R109): the seed of R107, then the loop. -/
def noiseRun (c : Cfg) (col : Color) (freq : BitVec 12) (volume gain : Nibble) (v : Voice) : Voice :=
  genRun c (noisePeriod c freq) (noiseStep c col volume gain) (v.setPhase (lfsrSeed v.osc.phase))

/-- PCM_RUN (R115). -/
def pcmRun (c : Cfg) (pcm : List Byte) (v : Voice) : Voice := genRun c c.pcmPeriod (pcmStep c pcm) v

/-- The generator a channel's Register selects, over one frame (R100, R131). -/
def channelRun (c : Cfg) (r : Register) (gain : Nibble) (v : Voice) : Voice :=
  match genSelect r with
  | .tone => toneRun c r gain v
  | .noise col => noiseRun c col r.freq r.volume gain v

/-- NOISE_RUN.0 on one channel (R109). -/
def execNoiseRun0 (g : GenCtx) (freq : BitVec 12) (volume : Nibble) (s : State) : Result :=
  onVoice (.chan g.side g.ch) (noiseRun s.cfg .zero freq volume g.gain) s

/-- NOISE_RUN.1 on one channel (R109). -/
def execNoiseRun1 (g : GenCtx) (freq : BitVec 12) (volume : Nibble) (s : State) : Result :=
  onVoice (.chan g.side g.ch) (noiseRun s.cfg .one freq volume g.gain) s

/-- TONE_RUN on one channel (R106). -/
def execToneRun (g : GenCtx) (r : Register) (s : State) : Result :=
  onVoice (.chan g.side g.ch) (toneRun s.cfg r g.gain) s

/-- TONE_STEP on one channel (R105). -/
def execToneStep (g : GenCtx) (r : Register) (s : State) : Result :=
  onVoiceInFrame (.chan g.side g.ch) (toneStep s.cfg r g.gain) s

/-- NOISE_STEP on one channel (R108). -/
def execNoiseStep (g : GenCtx) (col : Color) (volume : Nibble) (s : State) : Result :=
  onVoiceInFrame (.chan g.side g.ch) (noiseStep s.cfg col volume g.gain) s

/-- PCM_RUN on one side (R115). -/
def execPcmRun (side : Side) (pcm : List Byte) (s : State) : Result :=
  if pcm.length = s.cfg.pcmLen then onVoice (.pcm side) (pcmRun s.cfg pcm) s else .refused .pcmSize

/-- PCM_STEP on one side (R114). -/
def execPcmStep (side : Side) (pcm : List Byte) (s : State) : Result :=
  if pcm.length = s.cfg.pcmLen then onVoiceInFrame (.pcm side) (pcmStep s.cfg pcm) s else .refused .pcmSize

/-- UPDATE_AMP on one oscillator (R104). -/
def execUpdateAmp (id : OscId) (new : Nat) (s : State) : Result := onVoiceInFrame id (updateAmp s.cfg new) s

end Sys2Proof.Machine
end

