-- ==== Sys2Proof/Machine/Ring.lean ====
section
/-! DEFINITION. The ring buffer operations (spec/40_ring_buffer.md): PUSH, RT_SELECT, RT_ADVANCE, SYNC_HEAD, SYNC_TAIL. -/

namespace Sys2Proof.Machine

/-- PUSH s (R82): the slot at `head` is always written; then `head` advances unless the ring is full. -/
def execPush (snap : List Byte) (s : State) : Result :=
  if snap.length = s.cfg.snapBytes then
    match memWrite s.cfg s.mem (slotAddr s.cfg s.head) snap with
    | none => .fault (.ringAddress (slotAddr s.cfg s.head))
    | some m => .next (advanceHead { s with mem := m })
  else .refused .snapshotSize

/-- RT_SELECT (R83): `cur` is slot `(tail + N - 1) mod N`. -/
def execRtSelect (s : State) : Result :=
  match memRead s.cfg s.mem (slotAddr s.cfg s.readSlot) s.cfg.snapBytes with
  | none => .fault (.ringAddress (slotAddr s.cfg s.readSlot))
  | some b => .next { s with cur := b }

/-- RT_ADVANCE (R84): `tail` advances unless it equals `head_seen`. -/
def execRtAdvance (s : State) : Result := .next (advanceTail s)

/-- SYNC_HEAD (R85): `head_seen` moves towards `head`, never past it. -/
def execSyncHead (pick : SyncPick) (s : State) : Result :=
  match syncMove s.cfg.ringLen s.headSeen s.head s.draws pick with
  | none => .refused .syncValue
  | some j => .next { s with headSeen := (s.headSeen + j) % s.cfg.ringLen, draws := drawsAfter s.draws pick }

/-- SYNC_TAIL (R86): `tail_seen` moves towards `tail`, never past it. -/
def execSyncTail (pick : SyncPick) (s : State) : Result :=
  match syncMove s.cfg.ringLen s.tailSeen s.tail s.draws pick with
  | none => .refused .syncValue
  | some j => .next { s with tailSeen := (s.tailSeen + j) % s.cfg.ringLen, draws := drawsAfter s.draws pick }

end Sys2Proof.Machine
end

