-- ==== Sys2Proof/Machine/Synth.lean ====
section
/-! DEFINITION. Frame synthesis (spec/42_synth_frame.md): SYNTH_SIDE, RENDER, the host call SYNTH_SOUND, and the delivery of
a frame (R139, spec/30_encoding.md R68). -/

namespace Sys2Proof.Machine

/-- The channel loop of R131 from channel `i` on: each channel's generator in ascending order over the side's accumulator.
Gives the oscillator states and the accumulator. -/
def runChannels (c : Cfg) (side : Side) (snap : Snapshot) : Nat → List Osc → BlipState → List Osc × BlipState
  | _, [], b => ([], b)
  | i, o :: rest, b =>
    let v := channelRun c (snap.reg.getD i (registerOfWord 0)) (gainOf side (snap.stereo.getD i (stereoOfByte 0))) ⟨o, b⟩
    let r := runChannels c side snap (i + 1) rest v.blip
    (v.osc :: r.1, r.2)

/-- Every generator of one side (R131): the channels, then the PCM sub-channel. -/
def runSide (c : Cfg) (side : Side) (snap : Snapshot) (x : SideState) : SideState :=
  let r := runChannels c side snap 0 x.osc x.blip
  let v := pcmRun c snap.pcm ⟨x.pcmosc, r.2⟩
  { x with osc := r.1, pcmosc := v.osc, blip := v.blip }

/-- SYNTH_SIDE(s, cur) (R131): every generator of the side, then the read-out of one frame. It touches nothing of the
other side (R143). -/
def synthSide (c : Cfg) (side : Side) (snap : Snapshot) (x : SideState) : SideState :=
  readOutSide c c.samplesPerFrame (runSide c side snap x)

/-- SYNTH_SIDE on the machine. -/
def synthSideOn (side : Side) (cur : List Byte) (s : State) : State :=
  s.setSide side (synthSide s.cfg side (snapshotOfBytes s.cfg cur) (s.side side))

/-- SYNTH_SIDE side cur (R131). -/
def execSynthSide (side : Side) (cur : List Byte) (s : State) : Result :=
  if cur.length = s.cfg.snapBytes then .next (synthSideOn side cur s) else .refused .snapshotSize

/-- Deliver the frame the two sides have read out (R139). -/
def deliver (s : State) : State := { s with frames := s.frames ++ [⟨s.left.out, s.right.out⟩] }

/-- The rest of a render after RT_SELECT (R132): side L, side R, then RT_ADVANCE, then the frame is returned. -/
def finishRender (cur : List Byte) (s : State) : State :=
  { deliver (advanceTail (synthSideOn .R cur (synthSideOn .L cur s))) with busy := false }

/-- RENDER (R132), one atomic transition (DEDUCED, safe, log entry 4); ignored while `busy` (spec/70_reset_and_hazards.md R183). -/
def execRender (s : State) : Result :=
  if s.busy then .next s
  else match execRtSelect { s with busy := true } with
    | .next t => .next (finishRender t.cur t)
    | .fault f => .fault f
    | .refused r => .refused r

/-- The host call SYNTH_SOUND(sample_count) (R133): a RENDER, for exactly one frame's worth of stereo pairs. -/
def synthSound (sampleCount : Nat) (s : State) : Result :=
  if sampleCount = s.cfg.samplesPerFrame then execRender s else .refused .sampleCount

/-! ### Delivery -/

/-- The pairs presented on `c_left`, `c_right`, in order (R139). -/
def Frame.pairs (f : Frame) : List (Sample × Sample) := f.left.zip f.right

/-- The interleaved stereo buffer: `out[2k] = left[k]`, `out[2k + 1] = right[k]` (R139, spec/30_encoding.md R68). -/
def Frame.interleaved (f : Frame) : List Sample := (Frame.pairs f).flatMap fun p => [p.1, p.2]

/-- A sample's two bytes, little-endian (spec/20_memory.md R42, spec/30_encoding.md R68). -/
def sampleBytes (x : Sample) : List Byte := [x.extractLsb' 0 8, x.extractLsb' 8 8]

/-- The interleaved buffer as bytes (spec/30_encoding.md R68). -/
def Frame.bytes (f : Frame) : List Byte := (Frame.interleaved f).flatMap sampleBytes

end Sys2Proof.Machine
end

