-- ==== Sys2Proof/Machine/System.lean ====
section
/-! DEFINITION. RESET, the only system operation (spec/70_reset_and_hazards.md R170). -/

namespace Sys2Proof.Machine

/-- RESET (R170): every piece of the block's state takes its reset value. The configuration is static (R188); what has
been delivered and what the agents do next lie outside the block (DESIGN CHOICE, unsafe, log entry 14). -/
def execReset (s : State) : Result :=
  .next { State.resetWith s.cfg with frames := s.frames, inputs := s.inputs, draws := s.draws }

end Sys2Proof.Machine
end

