-- ==== Sys2Proof/Machine/Dispatch.lean ====
section
/-! DEFINITION. One arm per operation of spec/opcode_table.json. -/

namespace Sys2Proof.Machine

def exec (i : Instr) (s : State) : Host.Outcome State Fault Refusal :=
  match i with
  | .reset => Sys2Proof.Machine.execReset s
  | .push snap => Sys2Proof.Machine.execPush snap s
  | .render => Sys2Proof.Machine.execRender s
  | .rtSelect => Sys2Proof.Machine.execRtSelect s
  | .rtAdvance => Sys2Proof.Machine.execRtAdvance s
  | .syncHead pick => Sys2Proof.Machine.execSyncHead pick s
  | .syncTail pick => Sys2Proof.Machine.execSyncTail pick s
  | .synthSide side cur => Sys2Proof.Machine.execSynthSide side cur s
  | .noiseRun0 g freq volume => Sys2Proof.Machine.execNoiseRun0 g freq volume s
  | .noiseRun1 g freq volume => Sys2Proof.Machine.execNoiseRun1 g freq volume s
  | .toneRun g r => Sys2Proof.Machine.execToneRun g r s
  | .toneStep g r => Sys2Proof.Machine.execToneStep g r s
  | .noiseStep g color volume => Sys2Proof.Machine.execNoiseStep g color volume s
  | .pcmRun side pcm => Sys2Proof.Machine.execPcmRun side pcm s
  | .pcmStep side pcm => Sys2Proof.Machine.execPcmStep side pcm s
  | .updateAmp osc new => Sys2Proof.Machine.execUpdateAmp osc new s
  | .blipAddDelta side t d => Sys2Proof.Machine.execBlipAddDelta side t d s
  | .blipReadOut side n => Sys2Proof.Machine.execBlipReadOut side n s

end Sys2Proof.Machine
end

