-- ==== Sys2Proof/Machine/Step.lean ====
section
/-! DEFINITION. One step of the machine: the oldest input is taken, decoded and run. -/

namespace Sys2Proof.Machine

/-- One step. A configuration that is not well-formed is refused (spec/00_scope.md R3). With no input nothing happens:
`p_push` = 0 and `c_render` = 0 are no operation (spec/30_encoding.md R61), and neither side ever waits. -/
def step (s : State) : Host.Outcome State Fault Refusal :=
  if s.cfg.wf then
    match fetch s with
    | none => .next s
    | some (.op i, t) => exec i t
    | some (.noOperation, t) => .next t
    | some (.ignored, t) => .next t
    | some (.reject r, _) => .refused (.rejected r)
  else .refused .configNotWellFormed

/-- `s` with the operation of an opcode-table word first in line, so that the next step runs it. -/
def State.withFetchWord (s : State) (nbits w : Nat) : State := placeInput s (tableInput s.cfg nbits w)

end Sys2Proof.Machine
end

