-- ==== Sys2Proof/Machine/Crossing.lean ====
section
/-! DEFINITION. The hardware realisation of a pointer crossing, for the record (spec/40_ring_buffer.md R92,
spec/10_state.md R19): a gray register of the sending domain and the two synchroniser stages of the receiving domain. The
machine uses R85 and R86 instead, as R92 says (DEDUCED, safe, log entry 6); the statements show that they cover it. -/

namespace Sys2Proof.Machine

/-- The registers of one crossing, each a gray code word. -/
structure Crossing where
  /-- `head_gray` or `tail_gray`, clocked by the sender. -/
  source : Nat
  /-- `hs1`, the first stage, clocked by the receiver. -/
  stage1 : Nat
  /-- `hs2`, the second stage. -/
  stage2 : Nat
  deriving DecidableEq, Repr

/-- The crossing after RESET: all words `gray(0)` (R28). -/
def Crossing.init : Crossing := ⟨0, 0, 0⟩

/-- A clock edge of the sender at which the index becomes `i`. -/
def Crossing.send (n i : Nat) (x : Crossing) : Crossing := { x with source := gray n i }

/-- A clock edge of the receiver: `hs1 <- head_gray ; hs2 <- hs1` (R92). -/
def Crossing.edge (x : Crossing) : Crossing := { x with stage1 := x.source, stage2 := x.stage1 }

/-- The index the receiver observes: `head_seen = ungray(hs2)` (R92). -/
def Crossing.seen (n : Nat) (x : Crossing) : Nat := ungray n x.stage2

end Sys2Proof.Machine
end

