-- ==== Sys2Proof/Machine/Trace.lean ====
section
/-! DEFINITION. Traces and pseudo-operations (spec/30_encoding.md R72, R73) and what can be observed from outside
(spec/42_synth_frame.md R142). -/

namespace Sys2Proof.Machine

/-- Run operations one after the other, stopping at the first that gives no next state. -/
def runTrace : List Instr → State → Result
  | [], s => .next s
  | i :: rest, s =>
    match exec i s with
    | .next t => runTrace rest t
    | .fault f => .fault f
    | .refused r => .refused r

/-- `TICK s` (R73): `sound_tick_end()` is a PUSH. -/
def tick (snap : List Byte) : List Instr := [.push snap]

/-- `SYNC` (R73): both views catch up with the present values. -/
def sync : List Instr := [.syncHead .current, .syncTail .current]

/-- `RENDER_TICK` (R73): the document's `render_tick()`, no synthesis between. -/
def renderTick : List Instr := [.rtSelect, .rtAdvance]

/-- The micro-operations of one RENDER in the order of R140; `cur` is what RT_SELECT returns. -/
def renderMicro (cur : List Byte) : List Instr := [.rtSelect, .synthSide .L cur, .synthSide .R cur, .rtAdvance]

/-- The operations of a trace (R72): those a port or the crossing causes. -/
def inTrace : Instr → Bool
  | .reset => true
  | .push _ => true
  | .render => true
  | .syncHead _ => true
  | .syncTail _ => true
  | .rtSelect => false
  | .rtAdvance => false
  | .synthSide _ _ => false
  | .noiseRun0 _ _ _ => false
  | .noiseRun1 _ _ _ => false
  | .toneRun _ _ => false
  | .toneStep _ _ => false
  | .noiseStep _ _ _ => false
  | .pcmRun _ _ => false
  | .pcmStep _ _ => false
  | .updateAmp _ _ => false
  | .blipAddDelta _ _ _ => false
  | .blipReadOut _ _ => false

/-- What can be observed from outside (R142): the frames and `c_busy`. -/
def State.observed (s : State) : List Frame × Bool := (s.frames, s.busy)

end Sys2Proof.Machine
end

