-- ==== Sys2Proof/Safety.lean ====
section
/-! DEFINITION. What a good state is, in the terms the statements use: the ring invariant (spec/10_state.md R29), the ranges
and shapes of the state (R13 to R24), the sound invariant of whole renders (R143, R138, R118), and the fairness of the
crossing (spec/70_reset_and_hazards.md R186). -/

namespace Sys2Proof.Machine

/-- The ring invariant (R29): going round the ring from `tail_seen` one meets `tail`, then `head_seen`, then `head`, within
`RING_LEN - 2` steps in all. -/
abbrev State.RingInv (s : State) : Prop :=
  s.head < s.cfg.ringLen ∧ s.tail < s.cfg.ringLen ∧ s.headSeen < s.cfg.ringLen ∧ s.tailSeen < s.cfg.ringLen ∧
  ringDist s.cfg.ringLen s.tailSeen s.tail + ringDist s.cfg.ringLen s.tail s.headSeen +
    ringDist s.cfg.ringLen s.headSeen s.head ≤ s.cfg.ringLen - 2

/-- The ring memory is in canonical form and lies inside its address space (R40). -/
abbrev State.MemInv (s : State) : Prop :=
  memWf s.mem = true ∧ ∀ cell ∈ s.mem, cell.1 < s.cfg.ringBytes

/-- A frame's deltas are in canonical form: times rise strictly, lie inside the frame, and no sum is zero. -/
def deltasWf (c : Cfg) : List (Nat × Int) → Bool
  | [] => true
  | (t, d) :: rest => decide (t < c.endTime) && decide (d ≠ 0) && rest.all (fun e => decide (t < e.1)) && deltasWf c rest

/-- The accumulator is one of the configured instance, of the right shape (R134, R138). -/
def blipWf (c : Cfg) : BlipState → Bool
  | .zoh _ acc => c.blip == .zoh && acc.length == c.samplesPerFrame
  | .external past now => c.blip == .external && past.all (deltasWf c) && deltasWf c now

/-- The shape of a side (R22 to R24): `CH` oscillators with phases of `LFSR_BITS` bits, a PCM index inside the buffer, an
accumulator of the configured instance. -/
abbrev SideState.Shape (c : Cfg) (x : SideState) : Prop :=
  x.osc.length = c.ch ∧ (∀ o ∈ x.osc, o.phase < 2 ^ c.lfsrBits) ∧ x.pcmosc.phase < c.pcmLen ∧ blipWf c x.blip = true

/-- The invariant of the machine, which every step keeps: a well-formed configuration, the memory's form, the ring
invariant, the shapes of both sides and of the selected snapshot. -/
abbrev State.Inv (s : State) : Prop :=
  s.cfg.wf = true ∧ s.MemInv ∧ s.RingInv ∧ s.left.Shape s.cfg ∧ s.right.Shape s.cfg ∧ s.cur.length = s.cfg.snapBytes

/-- What an oscillator's registers may hold between renders: an amplitude of at most `AMP_MAX div CH` and a carried time
below the longest period (R22, R113, R118). -/
abbrev SideState.Ranges (c : Cfg) (x : SideState) : Prop :=
  (∀ o ∈ x.osc, o.amp ≤ c.ampTop ∧ o.time < c.maxPeriod) ∧ x.pcmosc.amp ≤ c.ampTop ∧ x.pcmosc.time < c.pcmPeriod

/-- With ZOH, between renders: the level is the sum of the amplitudes of the side's generators, and every bin is empty
(spec/42_synth_frame.md R138). -/
def levelTracks (c : Cfg) (x : SideState) : Bool :=
  match x.blip with
  | .zoh level acc => level == ((x.osc.map Osc.amp).sum + x.pcmosc.amp : Nat) && acc == List.replicate c.samplesPerFrame 0
  | .external _ now => now.isEmpty

/-- The two sides agree on everything a gain does not reach (R143). -/
abbrev State.SidesAgree (s : State) : Prop :=
  s.left.osc.map (fun o => (o.time, o.phase)) = s.right.osc.map (fun o => (o.time, o.phase)) ∧
  s.left.pcmosc = s.right.pcmosc

/-- The invariant of whole renders, which every operation of a trace keeps (R143, R118, R138). -/
abbrev State.SoundInv (s : State) : Prop :=
  s.left.Ranges s.cfg ∧ s.right.Ranges s.cfg ∧ levelTracks s.cfg s.left = true ∧ levelTracks s.cfg s.right = true ∧
  s.SidesAgree

/-- Everything outside the side `side` and the MODEL's own record of the run is the same in both states. -/
abbrev State.SameOutside (s t : State) (side : Side) : Prop :=
  t.cfg = s.cfg ∧ t.mem = s.mem ∧ t.head = s.head ∧ t.tail = s.tail ∧ t.headSeen = s.headSeen ∧ t.tailSeen = s.tailSeen ∧
  t.busy = s.busy ∧ t.cur = s.cur ∧ t.frames = s.frames ∧ t.inputs = s.inputs ∧ t.draws = s.draws ∧
  (side = .L → t.right = s.right) ∧ (side = .R → t.left = s.left)

/-! ### The words of the statements -/

/-- How many steps a run takes over one frame: `ceil((END_TIME - time) / period)` from a time inside the frame, else none
(spec/41_oscillator.md R106 e). -/
def stepsIn (c : Cfg) (period time : Nat) : Nat := if time < c.endTime then (c.endTime - time + period - 1) / period else 0

/-- The accumulator after `n` steps of a run: step `k` submits the change from amplitude `amp k` to `amp (k + 1)` at the
time `t0 + k * period` (R104, R106). -/
def submitRun (c : Cfg) (period t0 : Nat) (amp : Nat → Nat) : Nat → BlipState → BlipState
  | 0, b => b
  | n + 1, b => addDelta c (submitRun c period t0 amp n b) (t0 + n * period) ((amp (n + 1) : Int) - amp n)

/-- The deltas of `n` steps of a run, in order: step `k` at the time `t0 + k * period`, the change from `amp k` to
`amp (k + 1)` (R104, R106; the deltas of `submitRun`, one by one). -/
def runDeltas (period t0 : Nat) (amp : Nat → Nat) (n : Nat) : List (Nat × Int) :=
  (List.range n).map fun k => (t0 + k * period, (amp (k + 1) : Int) - amp k)

/-- The sum of all deltas an accumulator has been given since `init` (spec/42_synth_frame.md R137 law 6). -/
def submitted : BlipState → Int
  | .zoh level acc => level + acc.sum
  | .external past now => deltaSum (past ++ [now])

/-- Calls on an accumulator: a delta at a time, or a read-out of one frame. -/
abbrev BlipCall := Option (Nat × Int)

/-- Every sample a sequence of calls reads out. -/
def samplesRead (c : Cfg) : BlipState → List BlipCall → List Sample
  | _, [] => []
  | b, some (t, d) :: rest => samplesRead c (addDelta c b t d) rest
  | b, none :: rest => (readOut c b c.samplesPerFrame).2 ++ samplesRead c (readOut c b c.samplesPerFrame).1 rest

/-- The accumulator after `m` frames in which nothing is submitted. -/
def quietFrames (c : Cfg) : Nat → BlipState → BlipState
  | 0, b => b
  | m + 1, b => quietFrames c m (readOut c b c.samplesPerFrame).1

/-- The bytes of the slot RT_SELECT chooses (R83). -/
def State.selected (s : State) : List Byte :=
  (List.range s.cfg.snapBytes).map fun k => readByte s.mem (slotAddr s.cfg s.readSlot + k)

/-- Pushes and SYNC steps only: what may come before a first render (R174). -/
def beforeRender (i : Instr) : Bool := inTrace i && i != .reset && i != .render

/-- How far a view has moved round the ring in the `j` steps after step `k` of a run. -/
def viewMoved (n : Nat) (view : Nat → Nat) (k : Nat) : Nat → Nat
  | 0 => 0
  | j + 1 => viewMoved n view k j + ringDist n (view (k + j)) (view (k + j + 1))

/-- Weak fairness of the crossing in an infinite run without RESET (R186): for every value `head` takes, `head_seen` later
takes that value or one beyond it; likewise `tail_seen`. Assumed for liveness only; safety needs no fairness. -/
def FairCrossing (n : Nat) (run : Nat → State) : Prop :=
  (∀ k, ∃ j, ringDist n (run k).headSeen (run k).head ≤ viewMoved n (fun i => (run i).headSeen) k j) ∧
  (∀ k, ∃ j, ringDist n (run k).tailSeen (run k).tail ≤ viewMoved n (fun i => (run i).tailSeen) k j)

end Sys2Proof.Machine
end

