-- ==== Sys2Proof/Certificates/Slice0/Obligations.lean ====
section
/-! DEFINITION. What is to be proved of the model: each statement says which rule of spec/ it formalises. -/

open Sys2Proof Sys2Proof.Machine

/-! ### Encoding (spec/30_encoding.md) -/

/-- Decoding the encoding of any well-formed operation gives it back, every operand at every value (R61, R62, R71). -/
def Obligations.DecodeOfEncode : Prop :=
  ∀ (c : Cfg) (i : Instr), i.wf c = true → decode c (encode i) = .op i

/-- A Register word has one meaning: the operation it decodes to encodes to that word (R62, R71). -/
def Obligations.EncodeOfDecodedRegisterWord : Prop :=
  ∀ (c : Cfg) (g : GenCtx) (w : BitVec 144) (i : Instr), decode c (.reg g w) = .op i → encode i = .reg g w

/-- R63: the fields assembled from the 18 bytes, all unsigned, and the encoder as the inverse. -/
def Obligations.RegisterFieldsFromBytes : Prop :=
  (∀ b : List Byte, b.length = 18 →
    (registerOfBytes b).freq.toNat = (b.getD 1 0).toNat % 16 * 256 + (b.getD 0 0).toNat ∧
    (registerOfBytes b).volume.toNat = (b.getD 1 0).toNat / 16 ∧
    (∀ j, j < 32 → ((registerOfBytes b).wave.getD j 0).toNat = (b.getD (2 + j / 2) 0).toNat / 16 ^ (j % 2) % 16) ∧
    bytesOfRegister (registerOfBytes b) = b) ∧
  (∀ r : Register, (bytesOfRegister r).length = 18 ∧ registerOfBytes (bytesOfRegister r) = r) ∧
  bytesOfRegister ⟨Vector.ofFn fun j : Fin 32 => if j.val < 16 then 15 else 0, 440, 15⟩ =
    [0xB8, 0xF1, 0xFF, 0xFF, 0xFF, 0xFF, 0xFF, 0xFF, 0xFF, 0xFF, 0, 0, 0, 0, 0, 0, 0, 0] ∧
  bytesOfRegister ⟨Vector.ofFn fun j : Fin 32 => BitVec.ofNat 4 (if j.val < 16 then j.val else 31 - j.val), 0xABC, 5⟩ =
    [0xBC, 0x5A, 0x10, 0x32, 0x54, 0x76, 0x98, 0xBA, 0xDC, 0xFE, 0xEF, 0xCD, 0xAB, 0x89, 0x67, 0x45, 0x23, 0x01]

/-- R62: the byte layout and the 144-bit value `W` (byte 0 in bits 7:0) are the same Register, field by field, and the
three fields fill the word with no bit to spare. -/
def Obligations.RegisterWordLayout : Prop :=
  (∀ b : List Byte, b.length = 18 →
    registerOfBytes b = registerOfWord (BitVec.ofNat 144 (b.foldr (fun x n => x.toNat + 256 * n) 0))) ∧
  (∀ w : BitVec 144, (registerOfWord w).freq = w.extractLsb' 0 12 ∧ (registerOfWord w).volume = w.extractLsb' 12 4 ∧
    (∀ j, j < 32 → (registerOfWord w).wave.getD j 0 = w.extractLsb' (16 + 4 * j) 4) ∧
    wordOfRegister (registerOfWord w) = w) ∧
  (∀ r : Register, registerOfWord (wordOfRegister r) = r)

/-- R65, R66, R67: the layout, byte by byte: the two gains of every stereo byte; `reg[i]` at `18 * i`, `stereo[i]` at
`18 * CH + i` and the PCM buffer at `19 * CH`, an even 4-bit sample in bits 3:0 and an odd one in bits 7:4. Every pattern of
`SNAP_BYTES` bytes decodes (R70) with nothing dropped, and a snapshot of the right shape survives its encoding. -/
def Obligations.SnapshotRoundTrip : Prop :=
  (∀ b : Byte, (stereoOfByte b).left.toNat = b.toNat % 16 ∧ (stereoOfByte b).right.toNat = b.toNat / 16 ∧
    byteOfStereo (stereoOfByte b) = b) ∧
  (∀ c : Cfg, c.snapBytes = 18 * c.ch + c.ch + c.pcmLen * c.pcmBits / 8) ∧
  (∀ (c : Cfg) (b : List Byte), c.wf = true → b.length = c.snapBytes →
    (snapshotOfBytes c b).reg.length = c.ch ∧ (snapshotOfBytes c b).stereo.length = c.ch ∧
    (snapshotOfBytes c b).pcm.length = c.pcmLen ∧
    (∀ i, i < c.ch →
      (snapshotOfBytes c b).reg[i]? = some (registerOfBytes ((b.drop (18 * i)).take 18)) ∧
      (snapshotOfBytes c b).stereo[i]? = some (stereoOfByte (b.getD (18 * c.ch + i) 0))) ∧
    (∀ k, k < c.pcmLen → ((snapshotOfBytes c b).pcm.getD k 0).toNat =
      if c.pcmBits = 4 then (b.getD (19 * c.ch + k / 2) 0).toNat / 16 ^ (k % 2) % 16
      else (b.getD (19 * c.ch + k) 0).toNat) ∧
    bytesOfSnapshot c (snapshotOfBytes c b) = b) ∧
  (∀ (c : Cfg) (s : Snapshot), c.wf = true → s.reg.length = c.ch → s.stereo.length = c.ch → pcmWf c s.pcm = true →
    (bytesOfSnapshot c s).length = c.snapBytes ∧ snapshotOfBytes c (bytesOfSnapshot c s) = s)

/-- R64 and R102: which generator a Register selects, and that nothing but its table decides; and the priority decode of
the 144-bit word by mask and match (R71) selects the same. -/
def Obligations.GeneratorSelect : Prop :=
  (∀ w : BitVec 144, genOfWord w = genSelect (registerOfWord w)) ∧
  ∀ r : Register,
    (genSelect r = .noise .zero ↔ ∀ j, j < 32 → r.wave.getD j 0 = 0x0#4) ∧
    (genSelect r = .noise .one ↔ ∀ j, j < 32 → r.wave.getD j 0 = 0xF#4) ∧
    (genSelect r = .tone ↔ ¬ (∀ j, j < 32 → r.wave.getD j 0 = 0x0#4) ∧ ¬ (∀ j, j < 32 → r.wave.getD j 0 = 0xF#4)) ∧
    (noise r = true → (color r = .one ↔ (r.wave.getD 0 0).getLsbD 0 = true))

/-- Words written out from the spec's encodings decode to the operations they stand for: the three strobes (R61), a strobe
while busy, V1's square at 440 and its two flat tables. The model's own choices here: the widths 1, 2 and 3 tell the formats
apart, the PPORT word carries a snapshot of zero bytes, and the Register word goes to side L, channel 0, gain 0 (log entry
11); the words are read in REFCFG, whose snapshots have 204 bytes (log entry 2). -/
def Obligations.WrittenOutWordsDecode : Prop :=
  decodeTableWord 1 1 = some .reset ∧
  decodeTableWord 2 1 = some (.push (List.replicate 204 0)) ∧
  decodeTableWord 2 0 = none ∧
  decodeTableWord 3 1 = some .render ∧
  decodeTableWord 3 3 = none ∧
  decodeTableWord 144 0xFFFFFFFFFFFFFFFFF1B8 =
    some (.toneRun ⟨.L, 0, 0⟩ ⟨Vector.ofFn fun j : Fin 32 => if j.val < 16 then 15 else 0, 440, 15⟩) ∧
  decodeTableWord 144 0xF3E8 = some (.noiseRun0 ⟨.L, 0, 0⟩ 1000 15) ∧
  decodeTableWord 144 0xFFFFFFFFFFFFFFFFFFFFFFFFFFFFFFFFA3E8 = some (.noiseRun1 ⟨.L, 0, 0⟩ 1000 10)

/-- R61: what each port value requests, with `c_busy` as the block drives it: `rst` is RESET whatever else stands in the
word, a strobe requests its operation, a strobe while busy is an ignored request, and no strobe is no operation. -/
def Obligations.PortValuesDecode : Prop :=
  ∀ (c : Cfg) (busy : Bool) (snap : List Byte), snap.length = c.snapBytes →
    decode c (withBusy busy (.sys 1)) = .op .reset ∧
    decode c (withBusy busy (.sys 0)) = .noOperation ∧
    (∀ w : BitVec 2, decode c (withBusy busy (.pport w snap)) =
      if w.getLsbD 1 then .op .reset else if w.getLsbD 0 then .op (.push snap) else .noOperation) ∧
    (∀ w : BitVec 3, decode c (withBusy busy (.cport w)) =
      if w.getLsbD 2 then .op .reset
      else if w.getLsbD 0 then (if busy then .ignored else .op .render) else .noOperation)

/-! ### The step -/

/-- A step runs the operation the oldest input decodes to, on the state without that input. -/
def Obligations.StepRunsDecodedOperation : Prop :=
  ∀ (s : State) (inp : Input) (rest : List Input) (i : Instr),
    s.cfg.wf = true → s.inputs = inp :: rest → decode s.cfg (withBusy s.busy inp) = .op i →
    step s = exec i { s with inputs := rest }

/-- Where no agent requests anything, a step changes nothing but the input it takes; an input that is no word of the block
and a configuration that is not well-formed (R3) are refused. -/
def Obligations.StepWithoutOperation : Prop :=
  (∀ s : State, s.cfg.wf = true → s.inputs = [] → step s = .next s) ∧
  (∀ (s : State) (inp : Input) (rest : List Input), s.cfg.wf = true → s.inputs = inp :: rest →
    (decode s.cfg (withBusy s.busy inp) = .noOperation ∨ decode s.cfg (withBusy s.busy inp) = .ignored →
      step s = .next { s with inputs := rest }) ∧
    (∀ r, decode s.cfg (withBusy s.busy inp) = .reject r → step s = .refused (.rejected r))) ∧
  (∀ s : State, s.cfg.wf = false → step s = .refused .configNotWellFormed)

/-- R183: a render strobe while busy starts nothing, queues nothing and changes no state. -/
def Obligations.RenderWhileBusyIgnored : Prop :=
  (∀ s : State, s.busy = true → exec .render s = .next s) ∧
  (∀ (s : State) (w : BitVec 3) (rest : List Input), s.cfg.wf = true → s.busy = true → w.getLsbD 0 = true →
    w.getLsbD 2 = false → s.inputs = .cport w :: rest → step s = .next { s with inputs := rest })

/-! ### Reset (spec/70_reset_and_hazards.md, spec/10_state.md) -/

/-- R28: the value of every piece of state after RESET, from every state; the configuration is static (R188). -/
def Obligations.ResetValues : Prop :=
  ∀ s : State, s.cfg.wf = true → ∃ t, exec .reset s = .next t ∧
    t.head = 0 ∧ t.tail = 0 ∧ t.headGray = 0 ∧ t.tailGray = 0 ∧ t.headSeen = 0 ∧ t.tailSeen = 0 ∧
    (∀ a, readByte t.mem a = 0x00) ∧
    (∀ side, (t.side side).osc = List.replicate s.cfg.ch ⟨0, 0, 0⟩ ∧ (t.side side).pcmosc = ⟨0, 0, 0⟩ ∧
      (t.side side).blip = BlipState.init s.cfg ∧
      (s.cfg.blip = .zoh → (t.side side).blip = .zoh 0 (List.replicate s.cfg.samplesPerFrame 0))) ∧
    t.busy = false ∧ t.cfg = s.cfg

/-- RESET in the reset state changes nothing (R170), and both invariants hold there, in every well-formed configuration.
The model's choice (log entry 14): from any state RESET keeps the frames delivered, the inputs to come and the draws. -/
def Obligations.ResetStateIsGood : Prop :=
  ∀ c : Cfg, c.wf = true →
    exec .reset (State.resetWith c) = .next (State.resetWith c) ∧
    (State.resetWith c).Inv ∧ (State.resetWith c).SoundInv ∧
    ∀ s : State, s.cfg = c →
      exec .reset s = .next { State.resetWith c with frames := s.frames, inputs := s.inputs, draws := s.draws }

/-! ### Invariants and whole-machine rules -/

/-- Every step keeps the machine's invariant: the memory's canonical form inside its address space, the ring invariant of
R29, the shapes and ranges of R13, R22 and R23. -/
def Obligations.EveryStepKeepsInvariant : Prop :=
  ∀ s t : State, s.Inv → step s = .next t → t.Inv

/-- R29, R89: every operation, at a port, of the crossing or inside a render, keeps the ring invariant. -/
def Obligations.EveryOperationKeepsRingInvariant : Prop :=
  ∀ (i : Instr) (s t : State), s.cfg.wf = true → s.RingInv → exec i s = .next t → t.RingInv

/-- R52, with the sums of R29 it rests on: the distances add up to the way from `tail_seen` to `head`, so the producer's
slot and the consumer's slot are never the same, and their bytes do not meet. -/
def Obligations.SlotExclusivity : Prop :=
  ∀ s : State, s.cfg.wf = true → s.RingInv →
    ringDist s.cfg.ringLen s.tailSeen s.tail + ringDist s.cfg.ringLen s.tail s.headSeen +
      ringDist s.cfg.ringLen s.headSeen s.head = ringDist s.cfg.ringLen s.tailSeen s.head ∧
    ringDist s.cfg.ringLen s.tail s.head ≤ s.cfg.ringLen - 2 ∧
    1 ≤ ringDist s.cfg.ringLen s.readSlot s.head ∧
    ringDist s.cfg.ringLen s.readSlot s.head ≤ s.cfg.ringLen - 1 ∧
    s.head ≠ s.readSlot ∧
    (∀ j k, j < s.cfg.snapBytes → k < s.cfg.snapBytes →
      slotAddr s.cfg s.head + j ≠ slotAddr s.cfg s.readSlot + k)

/-- R188: no operation and no step changes the configuration. -/
def Obligations.ConfigurationIsStatic : Prop :=
  (∀ (i : Instr) (s t : State), exec i s = .next t → t.cfg = s.cfg) ∧
  (∀ s t : State, step s = .next t → t.cfg = s.cfg)

/-- R150: nothing faults. From a state that meets the ring invariant no operation ends in a fault. -/
def Obligations.NothingFaults : Prop :=
  ∀ s : State, s.cfg.wf = true → s.RingInv →
    (∀ (i : Instr) (f : Fault), exec i s ≠ .fault f) ∧ (∀ f : Fault, step s ≠ .fault f)

/-- R10, R45, R155: who may write what. But for RESET, only PUSH writes the slots and `head`, only RENDER and RT_ADVANCE
write `tail`, only the crossing writes the two views, neither PUSH nor the crossing nor the ring's own micro-operations
touch the synthesizer, and only RENDER delivers a frame. -/
def Obligations.OwnershipByDomain : Prop :=
  ∀ (i : Instr) (s t : State), exec i s = .next t → i ≠ .reset →
    ((∀ snap, i ≠ .push snap) → t.mem = s.mem ∧ t.head = s.head) ∧
    (i ≠ .render → i ≠ .rtAdvance → t.tail = s.tail) ∧
    ((∀ pick, i ≠ .syncHead pick) → t.headSeen = s.headSeen) ∧
    ((∀ pick, i ≠ .syncTail pick) → t.tailSeen = s.tailSeen) ∧
    ((∃ snap, i = .push snap) ∨ (∃ pick, i = .syncHead pick) ∨ (∃ pick, i = .syncTail pick) ∨ i = .rtSelect ∨
        i = .rtAdvance → t.left = s.left ∧ t.right = s.right) ∧
    (i ≠ .render → t.frames = s.frames) ∧
    (i ≠ .render → t.busy = s.busy) ∧
    t.inputs = s.inputs

/-- Every operation of a trace keeps the invariant of whole renders: the ranges of R22 and R118, the level of ZOH equal to
the sum of the amplitudes (R138), and the two sides equal in everything a gain does not reach (R143). -/
def Obligations.TraceOperationsKeepSoundInvariant : Prop :=
  ∀ (i : Instr) (s t : State), s.Inv → s.SoundInv → inTrace i = true → exec i s = .next t → t.SoundInv

/-! ### The ring (spec/40_ring_buffer.md) -/

/-- R82: PUSH always writes slot `head`; `head` advances by one unless it is `(tail_seen - 2) mod RING_LEN`. Every byte
outside that slot and every other piece of state stay as they are. -/
def Obligations.PushWritesSlotAndAdvances : Prop :=
  ∀ (s : State) (snap : List Byte), s.cfg.wf = true → s.MemInv → s.RingInv → snap.length = s.cfg.snapBytes →
    ∃ t, exec (.push snap) s = .next t ∧
      (∀ k, k < s.cfg.snapBytes → readByte t.mem (s.head * s.cfg.snapBytes + k) = snap.getD k 0) ∧
      (∀ a, a < s.head * s.cfg.snapBytes ∨ s.head * s.cfg.snapBytes + s.cfg.snapBytes ≤ a →
        readByte t.mem a = readByte s.mem a) ∧
      t = { s with
        mem := t.mem
        head := if s.head = (s.tailSeen + s.cfg.ringLen - 2) % s.cfg.ringLen then s.head
          else (s.head + 1) % s.cfg.ringLen }

/-- R93 b, R51, R94: with the views caught up after every operation and PUSH and RENDER in turn, from RESET on: after any
number of rounds the next render selects the snapshot pushed last (the zero snapshot before the first), so that push
number `p` is rendered by render number `p + 1`; both indices stand at the number of rounds. -/
def Obligations.PushIsRenderedByTheNextRenderButOne : Prop :=
  ∀ (c : Cfg) (snaps : List (List Byte)), c.wf = true → (∀ x ∈ snaps, x.length = c.snapBytes) →
    ∃ s, runTrace (snaps.flatMap fun x => .push x :: sync ++ .render :: sync) (State.resetWith c) = .next s ∧
      s.selected = snaps.getLast?.getD (List.replicate c.snapBytes 0) ∧
      s.head = snaps.length % c.ringLen ∧ s.tail = s.head ∧ s.headSeen = s.head ∧ s.tailSeen = s.head ∧
      s.frames.length = snaps.length

/-- R83: RT_SELECT reads slot `(tail + N - 1) mod N`, byte by byte, and changes nothing else. -/
def Obligations.SelectReadsSlotBehindTail : Prop :=
  ∀ s : State, s.cfg.wf = true → s.RingInv → ∃ t, exec .rtSelect s = .next t ∧
    t = { s with cur := t.cur } ∧ t.cur.length = s.cfg.snapBytes ∧
    ∀ k, k < s.cfg.snapBytes → t.cur.getD k 0 =
      readByte s.mem ((s.tail + s.cfg.ringLen - 1) % s.cfg.ringLen * s.cfg.snapBytes + k)

/-- R84: RT_ADVANCE moves `tail` on by one unless it equals `head_seen`, and changes nothing else. -/
def Obligations.AdvanceUnlessEmpty : Prop :=
  ∀ s : State, exec .rtAdvance s =
    .next { s with tail := if s.tail = s.headSeen then s.tail else (s.tail + 1) % s.cfg.ringLen }

/-- R85: SYNC_HEAD can leave `head_seen` at each value from where it is to `head` and at no other; with the value omitted
it is `head`; a free draw is one of those values. -/
def Obligations.SyncHeadReachesExactlyTheRange : Prop :=
  ∀ s : State, s.cfg.wf = true → s.RingInv →
    (∀ v, (∃ j, j ≤ ringDist s.cfg.ringLen s.headSeen s.head ∧ v = (s.headSeen + j) % s.cfg.ringLen) →
      exec (.syncHead (.value v)) s = .next { s with headSeen := v }) ∧
    (∀ v, ¬ (∃ j, j ≤ ringDist s.cfg.ringLen s.headSeen s.head ∧ v = (s.headSeen + j) % s.cfg.ringLen) →
      exec (.syncHead (.value v)) s = .refused .syncValue) ∧
    exec (.syncHead .current) s = .next { s with headSeen := s.head } ∧
    (∃ j, j ≤ ringDist s.cfg.ringLen s.headSeen s.head ∧ exec (.syncHead .draw) s =
      .next { s with headSeen := (s.headSeen + j) % s.cfg.ringLen, draws := s.draws + 1 })

/-- R86: the same for SYNC_TAIL, `tail_seen` and `tail`. -/
def Obligations.SyncTailReachesExactlyTheRange : Prop :=
  ∀ s : State, s.cfg.wf = true → s.RingInv →
    (∀ v, (∃ j, j ≤ ringDist s.cfg.ringLen s.tailSeen s.tail ∧ v = (s.tailSeen + j) % s.cfg.ringLen) →
      exec (.syncTail (.value v)) s = .next { s with tailSeen := v }) ∧
    (∀ v, ¬ (∃ j, j ≤ ringDist s.cfg.ringLen s.tailSeen s.tail ∧ v = (s.tailSeen + j) % s.cfg.ringLen) →
      exec (.syncTail (.value v)) s = .refused .syncValue) ∧
    exec (.syncTail .current) s = .next { s with tailSeen := s.tail } ∧
    (∃ j, j ≤ ringDist s.cfg.ringLen s.tailSeen s.tail ∧ exec (.syncTail .draw) s =
      .next { s with tailSeen := (s.tailSeen + j) % s.cfg.ringLen, draws := s.draws + 1 })

/-- R87: while the ring is full a push leaves `head` alone, and a run of two pushes keeps only the second. -/
def Obligations.FullRingKeepsOnlyTheLastPush : Prop :=
  ∀ (s : State) (a b : List Byte), s.cfg.wf = true → s.MemInv → s.RingInv →
    full s.cfg.ringLen s.head s.tailSeen = true → a.length = s.cfg.snapBytes → b.length = s.cfg.snapBytes →
    (∃ t, exec (.push a) s = .next t ∧ t.head = s.head) ∧
    runTrace [.push a, .push b] s = runTrace [.push b] s

/-- R88: while the ring is empty for the consumer, a render leaves `tail` alone and the next selection returns the same
snapshot bit for bit, whatever the producer pushes in between. -/
def Obligations.EmptyRingReselectsTheSameSnapshot : Prop :=
  ∀ (s : State) (snap : List Byte), s.Inv → s.busy = false → s.tail = s.headSeen → snap.length = s.cfg.snapBytes →
    ∃ t u, exec .render s = .next t ∧ exec (.push snap) t = .next u ∧
      t.tail = s.tail ∧ t.selected = s.selected ∧ u.tail = s.tail ∧ u.selected = s.selected

/-- R153 a, R132: a PUSH and a RENDER do not interact: in either order they give the same state, frames included. -/
def Obligations.PushAndRenderCommute : Prop :=
  ∀ (s : State) (snap : List Byte), s.Inv → snap.length = s.cfg.snapBytes →
    ∃ t, runTrace [.push snap, .render] s = .next t ∧ runTrace [.render, .push snap] s = .next t

/-! ### The pointer crossing (spec/40_ring_buffer.md R90 to R92) -/

/-- R90: the code words, on `PTR_BITS` bits, are distinct and change in exactly one bit from each index to the next, the
wrap included; and the spec's five tables. -/
def Obligations.GrayStepChangesOneBit : Prop :=
  (∀ n, 4 ≤ n → n % 2 = 0 →
    (2 ^ (ptrBits n - 1) < n ∧ n ≤ 2 ^ ptrBits n) ∧
    (∀ x, reflected x = x ^^^ (x >>> 1)) ∧
    (∀ i, i < n → gray n i = reflected (if i < n / 2 then i else 2 ^ ptrBits n - n + i)) ∧
    (∀ i, i < n → gray n i < 2 ^ ptrBits n ∧ ∃ k, k < ptrBits n ∧ gray n i ^^^ gray n (nextIdx n i) = 2 ^ k) ∧
    (∀ i j, i < n → j < n → gray n i = gray n j → i = j)) ∧
  (∀ k i, 2 ≤ k → i < 2 ^ k → gray (2 ^ k) i = i ^^^ (i >>> 1)) ∧
  (List.range 4).map (gray 4) = [0b00, 0b01, 0b11, 0b10] ∧
  (List.range 6).map (gray 6) = [0b000, 0b001, 0b011, 0b111, 0b101, 0b100] ∧
  (List.range 8).map (gray 8) = [0b000, 0b001, 0b011, 0b010, 0b110, 0b111, 0b101, 0b100] ∧
  (List.range 12).map (gray 12) = [0b0000, 0b0001, 0b0011, 0b0010, 0b0110, 0b0111, 0b1111, 0b1110, 0b1010, 0b1011,
    0b1001, 0b1000] ∧
  (List.range 16).map (gray 16) = [0b0000, 0b0001, 0b0011, 0b0010, 0b0110, 0b0111, 0b0101, 0b0100, 0b1100, 0b1101,
    0b1111, 0b1110, 0b1010, 0b1011, 0b1001, 0b1000]

/-- R91: `ungray` is the inverse of `gray` on the code words. -/
def Obligations.UngrayInvertsGray : Prop :=
  ∀ n i, 4 ≤ n → n % 2 = 0 → i < n → ungray n (gray n i) = i

/-- R92, R85: a crossing whose source and stages hold the code words of indices in ring order shows the receiver the index
of its second stage; a receiver's edge shows it the index of the first, which lies within the range SYNC_HEAD draws
from, and leaves the three words in ring order again. -/
def Obligations.CrossingStaysWithinTheSyncRange : Prop :=
  ∀ n old mid now, 4 ≤ n → n % 2 = 0 → old < n → mid < n → now < n →
    ringDist n old mid + ringDist n mid now = ringDist n old now →
    (Crossing.mk (gray n now) (gray n mid) (gray n old)).seen n = old ∧
    (Crossing.mk (gray n now) (gray n mid) (gray n old)).edge.seen n = mid ∧
    (∃ j, j ≤ ringDist n old now ∧ mid = (old + j) % n) ∧
    (Crossing.mk (gray n now) (gray n mid) (gray n old)).edge =
      Crossing.mk (gray n now) (gray n now) (gray n mid) ∧
    ringDist n mid now + ringDist n now now = ringDist n mid now

/-! ### The oscillator (spec/41_oscillator.md) -/

/-- R101: the period is `RATE div f - 1` clamped to `[MIN_PERIOD, MAX_PERIOD]`, the longest for `f` = 0, so at least 1; the
tone generator calls it with `freq * FREQ_SCALE`, the noise generator with `freq`. -/
def Obligations.PeriodFormula : Prop :=
  ∀ c : Cfg, c.wf = true →
    freq2period c 0 = c.maxPeriod ∧
    (∀ f, 0 < f → freq2period c f = max c.minPeriod (min c.maxPeriod (c.rate / f - 1))) ∧
    (∀ f, c.minPeriod ≤ freq2period c f ∧ freq2period c f ≤ c.maxPeriod ∧ 1 ≤ freq2period c f) ∧
    (∀ freq, tonePeriod c freq = freq2period c (freq.toNat * c.freqScale) ∧
      noisePeriod c freq = freq2period c freq.toNat)

/-- R103, R110, R111, R117: the amplitude of a volume and a level, in the order of evaluation the rule gives; the tone level,
the noise level and the PCM amplitude; every amplitude lies in `0 .. AMP_MAX div CH`, and is 0 for a volume, a level or a
sample of 0; the tone level lies in 0 to 15. -/
def Obligations.AmplitudeFormulasAndBounds : Prop :=
  ∀ c : Cfg, c.wf = true →
    (∀ volume a, getAmp c volume a = ((((a * c.ampMax) / 15) * volume) / 15) / c.ch) ∧
    (∀ volume a, volume ≤ 15 → a ≤ 15 → getAmp c volume a ≤ c.ampMax / c.ch) ∧
    (∀ volume a, volume = 0 ∨ a = 0 → getAmp c volume a = 0) ∧
    (∀ r gain phase, toneLevel r gain phase = (r.wave.getD phase 0).toNat * gain.toNat / 15 ∧
      toneLevel r gain phase ≤ 15 ∧ toneLevel r 15 phase = (r.wave.getD phase 0).toNat ∧
      toneAmp c r gain phase = getAmp c r.volume.toNat (toneLevel r gain phase) ∧
      toneAmp c r gain phase ≤ c.ampMax / c.ch) ∧
    (∀ volume gain phase, noiseAmp c volume gain phase =
      if phase % 2 = 1 then getAmp c volume.toNat gain.toNat else 0) ∧
    (∀ x, pcmAmp c x = ((x * c.ampMax) / (2 ^ c.pcmBits - 1)) / c.ch) ∧
    (∀ x, x < 2 ^ c.pcmBits → pcmAmp c x ≤ c.ampMax / c.ch)

/-- R104: UPDATE_AMP stores the new amplitude and submits the signed change at the oscillator's time; nothing else of the
machine moves. -/
def Obligations.UpdateAmpSubmitsTheChange : Prop :=
  ∀ (s : State) (id : OscId) (o : Osc) (new : Nat),
    blipWf s.cfg (s.side (oscSide id)).blip = true →
    (s.side (oscSide id)).osc? id = some o → o.time < s.cfg.endTime →
    ∃ t, exec (.updateAmp id new) s = .next t ∧ s.SameOutside t (oscSide id) ∧
      t.side (oscSide id) = (s.side (oscSide id)).putVoice id
        ⟨⟨o.time, o.phase, new⟩, addDelta s.cfg (s.side (oscSide id)).blip o.time ((new : Int) - o.amp)⟩

/-- R105: a tone step advances the index modulo 32, looks the sample up, and submits the change of amplitude. -/
def Obligations.ToneStepAdvancesThenLooksUp : Prop :=
  ∀ (s : State) (g : GenCtx) (r : Register) (o : Osc),
    blipWf s.cfg (s.side g.side).blip = true → (s.side g.side).osc[g.ch]? = some o → o.time < s.cfg.endTime →
    ∃ t, exec (.toneStep g r) s = .next t ∧ s.SameOutside t g.side ∧
      t.side g.side = (s.side g.side).putVoice (.chan g.side g.ch)
        ⟨⟨o.time, (o.phase + 1) % 32, toneAmp s.cfg r g.gain ((o.phase + 1) % 32)⟩,
          addDelta s.cfg (s.side g.side).blip o.time ((toneAmp s.cfg r g.gain ((o.phase + 1) % 32) : Int) - o.amp)⟩

/-- R108: a noise step shifts the LFSR to the right, with the color's mask when the bit shifted out is 1, and takes its
level from the new low bit. -/
def Obligations.NoiseStepShiftsThenTestsTheNewBit : Prop :=
  ∀ (s : State) (g : GenCtx) (col : Color) (volume : Nibble) (o : Osc),
    blipWf s.cfg (s.side g.side).blip = true → (s.side g.side).osc[g.ch]? = some o → o.time < s.cfg.endTime →
    ∃ t phase, exec (.noiseStep g col volume) s = .next t ∧ s.SameOutside t g.side ∧
      phase = (o.phase / 2) ^^^ (if o.phase % 2 = 1 then (match col with | .zero => s.cfg.noiseFb0 | .one => s.cfg.noiseFb1)
        else 0) ∧
      t.side g.side = (s.side g.side).putVoice (.chan g.side g.ch)
        ⟨⟨o.time, phase, getAmp s.cfg volume.toNat (if phase % 2 = 1 then g.gain.toNat else 0)⟩,
          addDelta s.cfg (s.side g.side).blip o.time
            ((getAmp s.cfg volume.toNat (if phase % 2 = 1 then g.gain.toNat else 0) : Int) - o.amp)⟩

/-- R114: a PCM step looks the sample up, then advances the index modulo `PCM_LEN`. -/
def Obligations.PcmStepLooksUpThenAdvances : Prop :=
  ∀ (s : State) (side : Side) (pcm : List Byte),
    blipWf s.cfg (s.side side).blip = true → pcm.length = s.cfg.pcmLen → (s.side side).pcmosc.time < s.cfg.endTime →
    ∃ t, exec (.pcmStep side pcm) s = .next t ∧ s.SameOutside t side ∧
      t.side side = (s.side side).putVoice (.pcm side)
        ⟨⟨(s.side side).pcmosc.time, ((s.side side).pcmosc.phase + 1) % s.cfg.pcmLen,
            pcmAmp s.cfg (pcm.getD (s.side side).pcmosc.phase 0).toNat⟩,
          addDelta s.cfg (s.side side).blip (s.side side).pcmosc.time
            ((pcmAmp s.cfg (pcm.getD (s.side side).pcmosc.phase 0).toNat : Int) - (s.side side).pcmosc.amp)⟩

/-- A generator step, UPDATE_AMP or BLIP_ADD_DELTA at a time outside the frame is outside the accumulator's contract (R134,
R121) and is refused by name; a channel at or above `CH` does not exist (R22); a snapshot or a PCM buffer of another
length than R5 and R12 give is no operand. -/
def Obligations.OperandsOutsideTheContractAreRefused : Prop :=
  (∀ (s : State) (g : GenCtx) (o : Osc), (s.side g.side).osc[g.ch]? = some o → s.cfg.endTime ≤ o.time →
    (∀ r, exec (.toneStep g r) s = .refused .timeOutsideFrame) ∧
    (∀ col volume, exec (.noiseStep g col volume) s = .refused .timeOutsideFrame) ∧
    (∀ new, exec (.updateAmp (.chan g.side g.ch) new) s = .refused .timeOutsideFrame)) ∧
  (∀ (s : State) (side : Side), s.cfg.endTime ≤ (s.side side).pcmosc.time →
    (∀ pcm, pcm.length = s.cfg.pcmLen → exec (.pcmStep side pcm) s = .refused .timeOutsideFrame) ∧
    (∀ new, exec (.updateAmp (.pcm side) new) s = .refused .timeOutsideFrame)) ∧
  (∀ (s : State) (side : Side) (t : Nat) (d : Int), s.cfg.endTime ≤ t →
    exec (.blipAddDelta side t d) s = .refused .timeOutsideFrame) ∧
  (∀ (s : State) (g : GenCtx), (s.side g.side).osc.length ≤ g.ch →
    (∀ r, exec (.toneStep g r) s = .refused .noSuchChannel ∧ exec (.toneRun g r) s = .refused .noSuchChannel) ∧
    (∀ col volume, exec (.noiseStep g col volume) s = .refused .noSuchChannel) ∧
    (∀ new, exec (.updateAmp (.chan g.side g.ch) new) s = .refused .noSuchChannel) ∧
    (∀ freq volume, exec (.noiseRun0 g freq volume) s = .refused .noSuchChannel ∧
      exec (.noiseRun1 g freq volume) s = .refused .noSuchChannel)) ∧
  (∀ (s : State) (side : Side) (b : List Byte), b.length ≠ s.cfg.snapBytes →
    exec (.push b) s = .refused .snapshotSize ∧ exec (.synthSide side b) s = .refused .snapshotSize) ∧
  (∀ (s : State) (side : Side) (pcm : List Byte), pcm.length ≠ s.cfg.pcmLen →
    exec (.pcmRun side pcm) s = .refused .pcmSize ∧ exec (.pcmStep side pcm) s = .refused .pcmSize)

/-- R106: a whole tone run in closed form: `n` steps at the period apart, the index moved by `n` modulo 32, the amplitude of
the last step, the time carry, and every change submitted at its time. -/
def Obligations.ToneRunResult : Prop :=
  ∀ (s : State) (g : GenCtx) (r : Register) (o : Osc) (n : Nat) (amp : Nat → Nat),
    s.cfg.wf = true → blipWf s.cfg (s.side g.side).blip = true → (s.side g.side).osc[g.ch]? = some o →
    n = stepsIn s.cfg (tonePeriod s.cfg r.freq) o.time →
    (∀ k, amp k = if k = 0 then o.amp else toneAmp s.cfg r g.gain ((o.phase + k) % 32)) →
    ∃ t, exec (.toneRun g r) s = .next t ∧ s.SameOutside t g.side ∧
      t.side g.side = (s.side g.side).putVoice (.chan g.side g.ch)
        ⟨⟨o.time + n * tonePeriod s.cfg r.freq - s.cfg.endTime, if n = 0 then o.phase else (o.phase + n) % 32, amp n⟩,
          submitRun s.cfg (tonePeriod s.cfg r.freq) o.time amp n (s.side g.side).blip⟩

/-- R109, for both colors: a whole noise run in closed form: the seed, `n` shifts, the amplitude of the last step, the time
carry, and every change submitted at its time. -/
def Obligations.NoiseRunResult : Prop :=
  ∀ (s : State) (g : GenCtx) (col : Color) (freq : BitVec 12) (volume : Nibble) (o : Osc) (n : Nat) (amp : Nat → Nat),
    s.cfg.wf = true → blipWf s.cfg (s.side g.side).blip = true → (s.side g.side).osc[g.ch]? = some o →
    n = stepsIn s.cfg (noisePeriod s.cfg freq) o.time →
    (∀ k, amp k = if k = 0 then o.amp else
      noiseAmp s.cfg volume g.gain ((lfsrStep (noiseFb s.cfg col))^[k] (if o.phase = 0 then 1 else o.phase))) →
    ∃ t, (match col with
        | .zero => exec (.noiseRun0 g freq volume) s = .next t
        | .one => exec (.noiseRun1 g freq volume) s = .next t) ∧ s.SameOutside t g.side ∧
      t.side g.side = (s.side g.side).putVoice (.chan g.side g.ch)
        ⟨⟨o.time + n * noisePeriod s.cfg freq - s.cfg.endTime,
            (lfsrStep (noiseFb s.cfg col))^[n] (if o.phase = 0 then 1 else o.phase), amp n⟩,
          submitRun s.cfg (noisePeriod s.cfg freq) o.time amp n (s.side g.side).blip⟩

/-- R115: a whole PCM run in closed form: `n` steps `PCM_PERIOD` apart, looking up before each advance. -/
def Obligations.PcmRunResult : Prop :=
  ∀ (s : State) (side : Side) (pcm : List Byte) (o : Osc) (n : Nat) (amp : Nat → Nat),
    s.cfg.wf = true → blipWf s.cfg (s.side side).blip = true → o = (s.side side).pcmosc → o.phase < s.cfg.pcmLen →
    pcm.length = s.cfg.pcmLen → n = stepsIn s.cfg s.cfg.pcmPeriod o.time →
    (∀ k, amp k = if k = 0 then o.amp else pcmAmp s.cfg (pcm.getD ((o.phase + k - 1) % s.cfg.pcmLen) 0).toNat) →
    ∃ t, exec (.pcmRun side pcm) s = .next t ∧ s.SameOutside t side ∧
      t.side side = (s.side side).putVoice (.pcm side)
        ⟨⟨o.time + n * s.cfg.pcmPeriod - s.cfg.endTime, (o.phase + n) % s.cfg.pcmLen, amp n⟩,
          submitRun s.cfg s.cfg.pcmPeriod o.time amp n (s.side side).blip⟩

/-- R113: every run ends with a carried time that keeps the step grid across the frame boundary: the time it would have
gone on at, less one frame, and below the period if it took a step. -/
def Obligations.RunsCarryTheirTime : Prop :=
  ∀ (c : Cfg) (v : Voice), c.wf = true →
    (∀ r gain, (toneRun c r gain v).osc.time + c.endTime =
        v.osc.time + stepsIn c (tonePeriod c r.freq) v.osc.time * tonePeriod c r.freq ∧
      (v.osc.time < c.endTime → (toneRun c r gain v).osc.time < tonePeriod c r.freq)) ∧
    (∀ col freq volume gain, (noiseRun c col freq volume gain v).osc.time + c.endTime =
        v.osc.time + stepsIn c (noisePeriod c freq) v.osc.time * noisePeriod c freq ∧
      (v.osc.time < c.endTime → (noiseRun c col freq volume gain v).osc.time < noisePeriod c freq)) ∧
    (∀ pcm, (pcmRun c pcm v).osc.time + c.endTime = v.osc.time + stepsIn c c.pcmPeriod v.osc.time * c.pcmPeriod ∧
      (v.osc.time < c.endTime → (pcmRun c pcm v).osc.time < c.pcmPeriod))

/-- R121: the deltas of a run, one by one and in order: step `k` at the time `o.time + k * period`, the change from the
amplitude before it to the amplitude after it. Their times increase strictly and lie inside the frame, and what the run
leaves in the accumulator is what these deltas make of it. -/
def Obligations.RunsSubmitInsideTheFrame : Prop :=
  ∀ (c : Cfg) (v : Voice) (amp : Nat → Nat), c.wf = true → blipWf c v.blip = true →
    (∀ r gain ds, (∀ k, amp k = if k = 0 then v.osc.amp else toneAmp c r gain ((v.osc.phase + k) % 32)) →
      ds = runDeltas (tonePeriod c r.freq) v.osc.time amp (stepsIn c (tonePeriod c r.freq) v.osc.time) →
      ds.Pairwise (fun a b => a.1 < b.1) ∧ (∀ e ∈ ds, e.1 < c.endTime) ∧
      (toneRun c r gain v).blip = ds.foldl (fun b e => addDelta c b e.1 e.2) v.blip) ∧
    (∀ col freq volume gain ds, (∀ k, amp k = if k = 0 then v.osc.amp else
        noiseAmp c volume gain ((lfsrStep (noiseFb c col))^[k] (if v.osc.phase = 0 then 1 else v.osc.phase))) →
      ds = runDeltas (noisePeriod c freq) v.osc.time amp (stepsIn c (noisePeriod c freq) v.osc.time) →
      ds.Pairwise (fun a b => a.1 < b.1) ∧ (∀ e ∈ ds, e.1 < c.endTime) ∧
      (noiseRun c col freq volume gain v).blip = ds.foldl (fun b e => addDelta c b e.1 e.2) v.blip) ∧
    (∀ pcm ds, v.osc.phase < c.pcmLen → (∀ k, amp k = if k = 0 then v.osc.amp else
        pcmAmp c (pcm.getD ((v.osc.phase + k - 1) % c.pcmLen) 0).toNat) →
      ds = runDeltas c.pcmPeriod v.osc.time amp (stepsIn c c.pcmPeriod v.osc.time) →
      ds.Pairwise (fun a b => a.1 < b.1) ∧ (∀ e ∈ ds, e.1 < c.endTime) ∧
      (pcmRun c pcm v).blip = ds.foldl (fun b e => addDelta c b e.1 e.2) v.blip)

/-- R107: the LFSR is never zero while noise runs: a run seeds contents 0 with 1, and the step is a bijection on the
register's values that fixes 0; a configuration whose mask lacks the top bit is not well-formed. -/
def Obligations.LfsrNeverZero : Prop :=
  (∀ (c : Cfg) (col : Color), (noiseFb c col).testBit (c.lfsrBits - 1) = false → c.wf = false) ∧
  ∀ (c : Cfg) (col : Color), c.wf = true →
    lfsrStep (noiseFb c col) 0 = 0 ∧
    (∀ p, p < 2 ^ c.lfsrBits → lfsrStep (noiseFb c col) p < 2 ^ c.lfsrBits ∧
      (p ≠ 0 → lfsrStep (noiseFb c col) p ≠ 0)) ∧
    (∀ p q, p < 2 ^ c.lfsrBits → q < 2 ^ c.lfsrBits →
      lfsrStep (noiseFb c col) p = lfsrStep (noiseFb c col) q → p = q) ∧
    (∀ q, q < 2 ^ c.lfsrBits → ∃ p, p < 2 ^ c.lfsrBits ∧ lfsrStep (noiseFb c col) p = q) ∧
    (∀ freq volume gain v, v.osc.phase = 0 →
      noiseRun c col freq volume gain v = noiseRun c col freq volume gain (v.setPhase 1)) ∧
    (∀ freq volume gain v, v.osc.phase < 2 ^ c.lfsrBits → (noiseRun c col freq volume gain v).osc.phase ≠ 0)

/-! ### The accumulator (spec/42_synth_frame.md) -/

/-- R137 laws 1 to 3, for ZOH and for every other instance: a zero delta, the order of two deltas, and the splitting of one
time's sum cannot be told apart, since the states are equal. -/
def Obligations.AccumulatorIgnoresOrder : Prop :=
  ∀ (c : Cfg) (b : BlipState) (t₁ t₂ : Nat) (d₁ d₂ : Int), c.wf = true → blipWf c b = true → t₁ < c.endTime → t₂ < c.endTime →
    addDelta c b t₁ 0 = b ∧
    addDelta c (addDelta c b t₁ d₁) t₂ d₂ = addDelta c (addDelta c b t₂ d₂) t₁ d₁ ∧
    addDelta c (addDelta c b t₁ d₁) t₁ d₂ = addDelta c b t₁ (d₁ + d₂) ∧
    blipWf c (addDelta c b t₁ d₁) = true ∧ submitted (addDelta c b t₁ d₁) = submitted b + d₁

/-- R137 laws 4 and 5: a read-out returns exactly the samples asked for, and from `init` with zero deltas only every sample
ever read is 0. -/
def Obligations.AccumulatorLengthAndSilence : Prop :=
  ∀ c : Cfg, c.wf = true →
    (∀ b n, (readOut c b n).2.length = n) ∧
    (∀ calls : List BlipCall, (∀ t d, some (t, d) ∈ calls → d = 0 ∧ t < c.endTime) →
      ∀ x ∈ samplesRead c (BlipState.init c) calls, x = 0#16)

/-- R137 laws 6 and 7: if nothing more is submitted, the samples become constant after finitely many frames, at the sum of
all deltas submitted, saturated to 16 bits. -/
def Obligations.AccumulatorSettlesAtTheSum : Prop :=
  ∀ (c : Cfg) (b : BlipState), c.wf = true → blipWf c b = true →
    submitted (readOut c b c.samplesPerFrame).1 = submitted b ∧
    ∃ k, ∀ m, k ≤ m → ∀ x ∈ (readOut c (quietFrames c m b) c.samplesPerFrame).2,
      x.toInt = max (-32768) (min 32767 (submitted b))

/-- R138: ZOH. A delta is added to bin `(t * SAMPLES_PER_FRAME) div END_TIME` alone, which is below `SAMPLES_PER_FRAME`;
sample `k` is the level after bins `0 .. k`, saturated; the level itself is not clamped and the bins are cleared. -/
def Obligations.ZeroOrderHold : Prop :=
  ∀ (c : Cfg) (level : Int) (acc : List Int), c.wf = true → acc.length = c.samplesPerFrame →
    (∀ t d, t < c.endTime → t * c.samplesPerFrame / c.endTime < c.samplesPerFrame ∧
      ∃ acc', addDelta c (.zoh level acc) t d = .zoh level acc' ∧ acc'.length = acc.length ∧
        ∀ k, acc'.getD k 0 = acc.getD k 0 + if k = t * c.samplesPerFrame / c.endTime then d else 0) ∧
    (readOut c (.zoh level acc) c.samplesPerFrame).1 = .zoh (level + acc.sum) (List.replicate c.samplesPerFrame 0) ∧
    (∀ k, k < c.samplesPerFrame → ((readOut c (.zoh level acc) c.samplesPerFrame).2.getD k 0).toInt =
      max (-32768) (min 32767 (level + (acc.take (k + 1)).sum)))

/-- R135, R136: BLIP_ADD_DELTA inside the frame and BLIP_READ_OUT of one frame complete, on one side's accumulator only;
another count is refused (R134, U6). -/
def Obligations.AccumulatorCalls : Prop :=
  ∀ (s : State) (side : Side),
    (∀ t d, t < s.cfg.endTime → ∃ u, exec (.blipAddDelta side t d) s = .next u ∧ s.SameOutside u side ∧
      u.side side = { s.side side with blip := addDelta s.cfg (s.side side).blip t d }) ∧
    (∃ u, exec (.blipReadOut side s.cfg.samplesPerFrame) s = .next u ∧ s.SameOutside u side ∧
      (u.side side).osc = (s.side side).osc ∧ (u.side side).pcmosc = (s.side side).pcmosc ∧
      ((u.side side).blip, (u.side side).out) = readOut s.cfg (s.side side).blip s.cfg.samplesPerFrame ∧
      (u.side side).out.length = s.cfg.samplesPerFrame) ∧
    (∀ n, n ≠ s.cfg.samplesPerFrame → exec (.blipReadOut side n) s = .refused .sampleCount)

/-! ### Frame synthesis (spec/42_synth_frame.md) -/

/-- R131: SYNTH_SIDE runs, for each channel in ascending order, the generator its Register selects with that side's gain,
then the PCM sub-channel, and reads one frame out. `bs i` is the accumulator after `i` channels. Each oscillator's new state
depends on nothing but its own; the accumulator and the samples are what the read-out makes of all the runs in order. -/
def Obligations.SynthSideRunsEveryGenerator : Prop :=
  ∀ (s : State) (side : Side) (cur : List Byte), s.cfg.wf = true → cur.length = s.cfg.snapBytes →
    (s.side side).osc.length = s.cfg.ch →
    ∃ (t : State) (bs : Nat → BlipState), exec (.synthSide side cur) s = .next t ∧ s.SameOutside t side ∧
      (t.side side).osc.length = s.cfg.ch ∧ bs 0 = (s.side side).blip ∧
      (∀ (i : Nat) (o : Osc) (r : Register) (gain : Nibble) (run : Voice → Voice),
        (s.side side).osc[i]? = some o → r = registerOfBytes ((cur.drop (18 * i)).take 18) →
        gain = (match side with
          | .L => (stereoOfByte (cur.getD (18 * s.cfg.ch + i) 0)).left
          | .R => (stereoOfByte (cur.getD (18 * s.cfg.ch + i) 0)).right) →
        (∀ v, run v = match genSelect r with
          | .tone => toneRun s.cfg r gain v
          | .noise col => noiseRun s.cfg col r.freq r.volume gain v) →
        (∀ b, (t.side side).osc[i]? = some (run ⟨o, b⟩).osc) ∧ bs (i + 1) = (run ⟨o, bs i⟩).blip) ∧
      (∀ b : BlipState, (t.side side).pcmosc =
        (pcmRun s.cfg (pcmOfBytes s.cfg (cur.drop (19 * s.cfg.ch))) ⟨(s.side side).pcmosc, b⟩).osc) ∧
      ((t.side side).blip, (t.side side).out) = readOut s.cfg
        (pcmRun s.cfg (pcmOfBytes s.cfg (cur.drop (19 * s.cfg.ch))) ⟨(s.side side).pcmosc, bs s.cfg.ch⟩).blip
        s.cfg.samplesPerFrame ∧
      (t.side side).out.length = s.cfg.samplesPerFrame

/-- R143: the two sides are synthesized independently: in either order, and even from different snapshots, the result is
the same, and each leaves the other side alone. -/
def Obligations.SidesAreIndependent : Prop :=
  ∀ (s : State) (a b : List Byte), a.length = s.cfg.snapBytes → b.length = s.cfg.snapBytes →
    ∃ t, runTrace [.synthSide .L a, .synthSide .R b] s = .next t ∧
      runTrace [.synthSide .R b, .synthSide .L a] s = .next t ∧
      (∀ u, exec (.synthSide .L a) s = .next u → u.right = s.right ∧ u.left = t.left) ∧
      (∀ u, exec (.synthSide .R b) s = .next u → u.left = s.left ∧ u.right = t.right)

/-- R131 with R137 law 2: the order in which two generators of a side are run cannot be observed: the accumulator and both
oscillators come out the same, for two channels and for a channel and the PCM sub-channel, with ZOH and with any other
accumulator as the model carries it (log entry 7). `channelRun` is the generator a Register selects. -/
def Obligations.ChannelOrderCannotBeObserved : Prop :=
  ∀ (c : Cfg) (r₁ r₂ : Register) (g₁ g₂ : Nibble) (pcm : List Byte) (o₁ o₂ p : Osc) (b : BlipState),
    c.wf = true → blipWf c b = true →
    (∀ v, channelRun c r₁ g₁ v = match genSelect r₁ with
      | .tone => toneRun c r₁ g₁ v
      | .noise col => noiseRun c col r₁.freq r₁.volume g₁ v) ∧
    ((channelRun c r₂ g₂ ⟨o₂, (channelRun c r₁ g₁ ⟨o₁, b⟩).blip⟩).blip =
      (channelRun c r₁ g₁ ⟨o₁, (channelRun c r₂ g₂ ⟨o₂, b⟩).blip⟩).blip ∧
    (channelRun c r₂ g₂ ⟨o₂, (channelRun c r₁ g₁ ⟨o₁, b⟩).blip⟩).osc = (channelRun c r₂ g₂ ⟨o₂, b⟩).osc) ∧
    (channelRun c r₁ g₁ ⟨o₁, (channelRun c r₂ g₂ ⟨o₂, b⟩).blip⟩).osc = (channelRun c r₁ g₁ ⟨o₁, b⟩).osc ∧
    (pcmRun c pcm ⟨p, (channelRun c r₁ g₁ ⟨o₁, b⟩).blip⟩).blip =
      (channelRun c r₁ g₁ ⟨o₁, (pcmRun c pcm ⟨p, b⟩).blip⟩).blip ∧
    (pcmRun c pcm ⟨p, (channelRun c r₁ g₁ ⟨o₁, b⟩).blip⟩).osc = (pcmRun c pcm ⟨p, b⟩).osc ∧
    (channelRun c r₁ g₁ ⟨o₁, (pcmRun c pcm ⟨p, b⟩).blip⟩).osc = (channelRun c r₁ g₁ ⟨o₁, b⟩).osc

/-- R132, R140: RENDER is its micro-operations in order, RT_SELECT, SYNTH_SIDE L, SYNTH_SIDE R, RT_ADVANCE, and then the
frame of the two read-outs is returned. -/
def Obligations.RenderIsItsMicroOperations : Prop :=
  ∀ s : State, s.Inv → s.busy = false →
    ∃ u, runTrace (renderMicro s.selected) s = .next u ∧
      exec .render s = .next { u with frames := u.frames ++ [⟨u.left.out, u.right.out⟩] }

/-- R132: RENDER completes and what it leaves: one more frame of `SAMPLES_PER_FRAME` samples a side, synthesized from the
selected slot alone; `tail` moved on unless empty; the ring memory, the producer's state and the views unchanged. -/
def Obligations.RenderReturnsOneFrame : Prop :=
  ∀ s : State, s.Inv → s.busy = false →
    ∃ (t : State) (f : Frame), exec .render s = .next t ∧ t.frames = s.frames ++ [f] ∧
      f.left.length = s.cfg.samplesPerFrame ∧ f.right.length = s.cfg.samplesPerFrame ∧
      t.left = synthSide s.cfg .L (snapshotOfBytes s.cfg s.selected) s.left ∧
      t.right = synthSide s.cfg .R (snapshotOfBytes s.cfg s.selected) s.right ∧
      f = ⟨t.left.out, t.right.out⟩ ∧
      t.tail = (if s.tail = s.headSeen then s.tail else (s.tail + 1) % s.cfg.ringLen) ∧
      t.cur = s.selected ∧ t.busy = false ∧ t.mem = s.mem ∧ t.head = s.head ∧ t.headSeen = s.headSeen ∧
      t.tailSeen = s.tailSeen ∧ t.cfg = s.cfg ∧ t.inputs = s.inputs ∧ t.draws = s.draws

/-- R45, R47, R142: what a RENDER returns depends on nothing but the consumer's own state and the selected slot: two
states that agree on those, whatever the producer's side holds, return the same frame. -/
def Obligations.RenderReadsOnlyTheConsumersState : Prop :=
  ∀ s₁ s₂ t₁ : State, s₁.cfg = s₂.cfg → s₁.tail = s₂.tail → s₁.headSeen = s₂.headSeen → s₁.left = s₂.left →
    s₁.right = s₂.right → s₁.busy = s₂.busy → s₁.selected = s₂.selected → exec .render s₁ = .next t₁ →
    ∃ t₂, exec .render s₂ = .next t₂ ∧ t₂.left = t₁.left ∧ t₂.right = t₁.right ∧ t₂.tail = t₁.tail ∧
      ∃ fs, t₁.frames = s₁.frames ++ fs ∧ t₂.frames = s₂.frames ++ fs

/-- R174, R94: whatever is pushed and whatever the crossing shows before it, the first RENDER after RESET returns
`SAMPLES_PER_FRAME` pairs (0, 0), with either kind of accumulator. -/
def Obligations.FirstRenderIsSilent : Prop :=
  ∀ (c : Cfg) (ops : List Instr) (s : State), c.wf = true → (∀ i ∈ ops, beforeRender i = true) →
    runTrace ops (State.resetWith c) = .next s →
    ∃ t, exec .render s = .next t ∧
      t.frames = [⟨List.replicate c.samplesPerFrame 0, List.replicate c.samplesPerFrame 0⟩]

/-- R139, R68: a frame is delivered left first: `out[2k] = left[k]`, `out[2k + 1] = right[k]`, and as bytes each sample is
two's complement, low byte first. -/
def Obligations.FrameIsInterleavedLeftFirst : Prop :=
  (∀ f : Frame, f.left.length = f.right.length →
    (Frame.pairs f).length = f.left.length ∧ (Frame.interleaved f).length = 2 * f.left.length ∧
    (∀ k, k < f.left.length → (Frame.pairs f).getD k (0, 0) = (f.left.getD k 0, f.right.getD k 0) ∧
      (Frame.interleaved f).getD (2 * k) 0 = f.left.getD k 0 ∧
      (Frame.interleaved f).getD (2 * k + 1) 0 = f.right.getD k 0) ∧
    Frame.bytes f = (Frame.interleaved f).flatMap sampleBytes) ∧
  (∀ x : Sample, ∃ lo hi, sampleBytes x = [lo, hi] ∧ x.toNat = lo.toNat + 256 * hi.toNat)

/-- R73, R133: the pseudo-operations do what their expansions say. SYNC: both views become the present indices.
RENDER_TICK: the slot behind `tail` is selected and `tail` moves on unless empty, with no synthesis between. TICK is a PUSH.
SYNTH n is a RENDER for exactly one frame's worth of pairs, and refused for any other count (U6). -/
def Obligations.PseudoOperationsExpand : Prop :=
  ∀ s : State, s.cfg.wf = true → s.RingInv →
    (∀ snap, snap.length = s.cfg.snapBytes → ∃ t, runTrace (tick snap) s = .next t ∧ exec (.push snap) s = .next t) ∧
    synthSound s.cfg.samplesPerFrame s = exec .render s ∧
    (∀ n, n ≠ s.cfg.samplesPerFrame → synthSound n s = .refused .sampleCount) ∧
    runTrace sync s = .next { s with headSeen := s.head, tailSeen := s.tail } ∧
    runTrace renderTick s = .next { s with
      cur := s.selected
      tail := if s.tail = s.headSeen then s.tail else (s.tail + 1) % s.cfg.ringLen }

/-- What a generator or accumulator operation leaves alone: all of the machine but its side, every byte of memory, and on
its side every other channel's oscillator; the side's samples change by a read-out only. -/
def Obligations.GeneratorFrame : Prop :=
  ∀ (s t : State) (side : Side) (ch : Nat) (gain : Nibble),
    ((∃ r, exec (.toneRun ⟨side, ch, gain⟩ r) s = .next t) ∨ (∃ r, exec (.toneStep ⟨side, ch, gain⟩ r) s = .next t) ∨
      (∃ f v, exec (.noiseRun0 ⟨side, ch, gain⟩ f v) s = .next t) ∨
      (∃ f v, exec (.noiseRun1 ⟨side, ch, gain⟩ f v) s = .next t) ∨
      (∃ col v, exec (.noiseStep ⟨side, ch, gain⟩ col v) s = .next t) ∨
      (∃ new, exec (.updateAmp (.chan side ch) new) s = .next t) →
      s.SameOutside t side ∧ (t.side side).pcmosc = (s.side side).pcmosc ∧ (t.side side).out = (s.side side).out ∧
      (∀ a, readByte t.mem a = readByte s.mem a) ∧
      (∀ i, i ≠ ch → (t.side side).osc[i]? = (s.side side).osc[i]?)) ∧
    ((∃ pcm, exec (.pcmRun side pcm) s = .next t) ∨ (∃ pcm, exec (.pcmStep side pcm) s = .next t) ∨
      (∃ new, exec (.updateAmp (.pcm side) new) s = .next t) →
      s.SameOutside t side ∧ (t.side side).osc = (s.side side).osc ∧ (t.side side).out = (s.side side).out ∧
      (∀ a, readByte t.mem a = readByte s.mem a)) ∧
    ((∃ cur, exec (.synthSide side cur) s = .next t) ∨ (∃ n, exec (.blipReadOut side n) s = .next t) ∨
      (∃ u d, exec (.blipAddDelta side u d) s = .next t) →
      s.SameOutside t side ∧ (∀ a, readByte t.mem a = readByte s.mem a))
end

