-- ==== Sys2Proof/Laws/State.lean ====
section
/-! SUPPORT. What each update of the state leaves in each field, so that no later proof unfolds a record update. -/

namespace Sys2Proof.Machine

/-! ### A side of the machine -/

@[simp] theorem State.side_L (s : State) : s.side .L = s.left := rfl
@[simp] theorem State.side_R (s : State) : s.side .R = s.right := rfl

@[simp] theorem State.setSide_cfg (s : State) (side : Side) (x : SideState) : (s.setSide side x).cfg = s.cfg := by
  cases side <;> rfl
@[simp] theorem State.setSide_mem (s : State) (side : Side) (x : SideState) : (s.setSide side x).mem = s.mem := by
  cases side <;> rfl
@[simp] theorem State.setSide_head (s : State) (side : Side) (x : SideState) : (s.setSide side x).head = s.head := by
  cases side <;> rfl
@[simp] theorem State.setSide_tail (s : State) (side : Side) (x : SideState) : (s.setSide side x).tail = s.tail := by
  cases side <;> rfl
@[simp] theorem State.setSide_headSeen (s : State) (side : Side) (x : SideState) :
    (s.setSide side x).headSeen = s.headSeen := by cases side <;> rfl
@[simp] theorem State.setSide_tailSeen (s : State) (side : Side) (x : SideState) :
    (s.setSide side x).tailSeen = s.tailSeen := by cases side <;> rfl
@[simp] theorem State.setSide_busy (s : State) (side : Side) (x : SideState) : (s.setSide side x).busy = s.busy := by
  cases side <;> rfl
@[simp] theorem State.setSide_cur (s : State) (side : Side) (x : SideState) : (s.setSide side x).cur = s.cur := by
  cases side <;> rfl
@[simp] theorem State.setSide_frames (s : State) (side : Side) (x : SideState) :
    (s.setSide side x).frames = s.frames := by cases side <;> rfl
@[simp] theorem State.setSide_inputs (s : State) (side : Side) (x : SideState) :
    (s.setSide side x).inputs = s.inputs := by cases side <;> rfl
@[simp] theorem State.setSide_draws (s : State) (side : Side) (x : SideState) : (s.setSide side x).draws = s.draws := by
  cases side <;> rfl

@[simp] theorem State.side_setSide (s : State) (side : Side) (x : SideState) : (s.setSide side x).side side = x := by
  cases side <;> rfl
@[simp] theorem State.setSide_L_left (s : State) (x : SideState) : (s.setSide .L x).left = x := rfl
@[simp] theorem State.setSide_L_right (s : State) (x : SideState) : (s.setSide .L x).right = s.right := rfl
@[simp] theorem State.setSide_R_left (s : State) (x : SideState) : (s.setSide .R x).left = s.left := rfl
@[simp] theorem State.setSide_R_right (s : State) (x : SideState) : (s.setSide .R x).right = x := rfl

/-- The two sides are separate state: writing them in either order is the same (R143). -/
theorem State.setSide_comm (s : State) (x y : SideState) :
    (s.setSide .L x).setSide .R y = (s.setSide .R y).setSide .L x := rfl

/-! ### One side -/

@[simp] theorem SideState.putVoice_blip (x : SideState) (id : OscId) (v : Voice) : (x.putVoice id v).blip = v.blip := by
  cases id <;> rfl
@[simp] theorem SideState.putVoice_out (x : SideState) (id : OscId) (v : Voice) : (x.putVoice id v).out = x.out := by
  cases id <;> rfl
@[simp] theorem SideState.putVoice_chan_osc (x : SideState) (side : Side) (ch : Nat) (v : Voice) :
    (x.putVoice (.chan side ch) v).osc = x.osc.set ch v.osc := rfl
@[simp] theorem SideState.putVoice_chan_pcmosc (x : SideState) (side : Side) (ch : Nat) (v : Voice) :
    (x.putVoice (.chan side ch) v).pcmosc = x.pcmosc := rfl
@[simp] theorem SideState.putVoice_pcm_osc (x : SideState) (side : Side) (v : Voice) :
    (x.putVoice (.pcm side) v).osc = x.osc := rfl
@[simp] theorem SideState.putVoice_pcm_pcmosc (x : SideState) (side : Side) (v : Voice) :
    (x.putVoice (.pcm side) v).pcmosc = v.osc := rfl

@[simp] theorem readOutSide_osc (c : Cfg) (n : Nat) (x : SideState) : (readOutSide c n x).osc = x.osc := rfl
@[simp] theorem readOutSide_pcmosc (c : Cfg) (n : Nat) (x : SideState) : (readOutSide c n x).pcmosc = x.pcmosc := rfl
@[simp] theorem readOutSide_blip (c : Cfg) (n : Nat) (x : SideState) :
    (readOutSide c n x).blip = (readOut c x.blip n).1 := rfl
@[simp] theorem readOutSide_out (c : Cfg) (n : Nat) (x : SideState) : (readOutSide c n x).out = (readOut c x.blip n).2 := rfl

/-! ### A voice -/

@[simp] theorem Voice.setPhase_phase (v : Voice) (p : Nat) : (v.setPhase p).osc.phase = p := rfl
@[simp] theorem Voice.setPhase_time (v : Voice) (p : Nat) : (v.setPhase p).osc.time = v.osc.time := rfl
@[simp] theorem Voice.setPhase_amp (v : Voice) (p : Nat) : (v.setPhase p).osc.amp = v.osc.amp := rfl
@[simp] theorem Voice.setPhase_blip (v : Voice) (p : Nat) : (v.setPhase p).blip = v.blip := rfl
@[simp] theorem Voice.setTime_time (v : Voice) (t : Nat) : (v.setTime t).osc.time = t := rfl
@[simp] theorem Voice.setTime_phase (v : Voice) (t : Nat) : (v.setTime t).osc.phase = v.osc.phase := rfl
@[simp] theorem Voice.setTime_amp (v : Voice) (t : Nat) : (v.setTime t).osc.amp = v.osc.amp := rfl
@[simp] theorem Voice.setTime_blip (v : Voice) (t : Nat) : (v.setTime t).blip = v.blip := rfl
@[simp] theorem updateAmp_amp (c : Cfg) (new : Nat) (v : Voice) : (updateAmp c new v).osc.amp = new := rfl
@[simp] theorem updateAmp_time (c : Cfg) (new : Nat) (v : Voice) : (updateAmp c new v).osc.time = v.osc.time := rfl
@[simp] theorem updateAmp_phase (c : Cfg) (new : Nat) (v : Voice) : (updateAmp c new v).osc.phase = v.osc.phase := rfl

/-! ### The index advances -/

@[simp] theorem advanceHead_cfg (s : State) : (advanceHead s).cfg = s.cfg := by unfold advanceHead; split <;> rfl
@[simp] theorem advanceHead_mem (s : State) : (advanceHead s).mem = s.mem := by unfold advanceHead; split <;> rfl
@[simp] theorem advanceHead_tail (s : State) : (advanceHead s).tail = s.tail := by unfold advanceHead; split <;> rfl
@[simp] theorem advanceHead_headSeen (s : State) : (advanceHead s).headSeen = s.headSeen := by
  unfold advanceHead; split <;> rfl
@[simp] theorem advanceHead_tailSeen (s : State) : (advanceHead s).tailSeen = s.tailSeen := by
  unfold advanceHead; split <;> rfl
@[simp] theorem advanceHead_left (s : State) : (advanceHead s).left = s.left := by unfold advanceHead; split <;> rfl
@[simp] theorem advanceHead_right (s : State) : (advanceHead s).right = s.right := by unfold advanceHead; split <;> rfl
@[simp] theorem advanceHead_busy (s : State) : (advanceHead s).busy = s.busy := by unfold advanceHead; split <;> rfl
@[simp] theorem advanceHead_cur (s : State) : (advanceHead s).cur = s.cur := by unfold advanceHead; split <;> rfl
@[simp] theorem advanceHead_frames (s : State) : (advanceHead s).frames = s.frames := by
  unfold advanceHead; split <;> rfl
@[simp] theorem advanceHead_inputs (s : State) : (advanceHead s).inputs = s.inputs := by
  unfold advanceHead; split <;> rfl
@[simp] theorem advanceHead_draws (s : State) : (advanceHead s).draws = s.draws := by unfold advanceHead; split <;> rfl

@[simp] theorem advanceTail_cfg (s : State) : (advanceTail s).cfg = s.cfg := by unfold advanceTail; split <;> rfl
@[simp] theorem advanceTail_mem (s : State) : (advanceTail s).mem = s.mem := by unfold advanceTail; split <;> rfl
@[simp] theorem advanceTail_head (s : State) : (advanceTail s).head = s.head := by unfold advanceTail; split <;> rfl
@[simp] theorem advanceTail_headSeen (s : State) : (advanceTail s).headSeen = s.headSeen := by
  unfold advanceTail; split <;> rfl
@[simp] theorem advanceTail_tailSeen (s : State) : (advanceTail s).tailSeen = s.tailSeen := by
  unfold advanceTail; split <;> rfl
@[simp] theorem advanceTail_left (s : State) : (advanceTail s).left = s.left := by unfold advanceTail; split <;> rfl
@[simp] theorem advanceTail_right (s : State) : (advanceTail s).right = s.right := by unfold advanceTail; split <;> rfl
@[simp] theorem advanceTail_busy (s : State) : (advanceTail s).busy = s.busy := by unfold advanceTail; split <;> rfl
@[simp] theorem advanceTail_cur (s : State) : (advanceTail s).cur = s.cur := by unfold advanceTail; split <;> rfl
@[simp] theorem advanceTail_frames (s : State) : (advanceTail s).frames = s.frames := by
  unfold advanceTail; split <;> rfl
@[simp] theorem advanceTail_inputs (s : State) : (advanceTail s).inputs = s.inputs := by
  unfold advanceTail; split <;> rfl
@[simp] theorem advanceTail_draws (s : State) : (advanceTail s).draws = s.draws := by unfold advanceTail; split <;> rfl

/-! ### Inputs and RESET -/

@[simp] theorem placeInput_inputs (s : State) (inp : Input) : (placeInput s inp).inputs = inp :: s.inputs := rfl
@[simp] theorem placeInput_cfg (s : State) (inp : Input) : (placeInput s inp).cfg = s.cfg := rfl
@[simp] theorem placeInput_busy (s : State) (inp : Input) : (placeInput s inp).busy = busyOf s.busy inp := rfl
@[simp] theorem State.resetWith_cfg (c : Cfg) : (State.resetWith c).cfg = c := rfl
@[simp] theorem State.resetWith_mem (c : Cfg) : (State.resetWith c).mem = [] := rfl
@[simp] theorem State.resetWith_left (c : Cfg) : (State.resetWith c).left = SideState.init c := rfl
@[simp] theorem State.resetWith_right (c : Cfg) : (State.resetWith c).right = SideState.init c := rfl

end Sys2Proof.Machine
end

