-- ==== Sys2Proof/Laws/Memory.lean ====
section
/-! SUPPORT. The laws of the ring memory: every operation keeps the canonical form, a read after a write to the same address
gives the value written, a write leaves every other address alone, and equal contents are equal lists. -/

namespace Sys2Proof.Machine

/-- Every address listed after a canonical memory's first is above it. -/
theorem memWf_cons {a : Nat} {b : Byte} {rest : List Host.Cell} :
    memWf ((a, b) :: rest) = true ↔ b ≠ unlistedByte ∧ (∀ cell ∈ rest, a < cell.1) ∧ memWf rest = true := by
  simp [memWf, and_assoc]

/-- An address below every listed one reads as unlisted. -/
theorem readByte_of_lt {m : List Host.Cell} {x : Nat} (h : ∀ cell ∈ m, x < cell.1) : readByte m x = unlistedByte := by
  induction m with
  | nil => rfl
  | cons cell rest ih =>
    obtain ⟨a, b⟩ := cell
    have ha : x < a := h (a, b) (by simp)
    rw [readByte, if_neg (by omega), ih fun c hc => h c (by simp [hc])]

/-- The addresses listed after a write are those listed before and the one written. -/
theorem mem_writeByte {m : List Host.Cell} {x : Nat} {v : Byte} {cell : Host.Cell} (h : cell ∈ writeByte m x v) :
    cell.1 = x ∨ cell ∈ m := by
  induction m with
  | nil => simp only [writeByte] at h; split at h <;> simp_all
  | cons first rest ih =>
    obtain ⟨a, b⟩ := first
    simp only [writeByte] at h
    split at h
    · split at h
      · exact .inr h
      · rcases List.mem_cons.1 h with rfl | h
        · exact .inl rfl
        · exact .inr h
    · split at h
      · split at h
        · exact .inr (List.mem_cons_of_mem _ h)
        · rcases List.mem_cons.1 h with rfl | h
          · exact .inl rfl
          · exact .inr (List.mem_cons_of_mem _ h)
      · rcases List.mem_cons.1 h with rfl | h
        · exact .inr (by simp)
        · exact (ih h).imp_right (List.mem_cons_of_mem _)

/-- Writing a byte keeps the canonical form. -/
theorem writeByte_wf {m : List Host.Cell} (h : memWf m = true) (x : Nat) (v : Byte) : memWf (writeByte m x v) = true := by
  induction m with
  | nil => simp only [writeByte]; split <;> simp_all [memWf]
  | cons cell rest ih =>
    obtain ⟨a, b⟩ := cell
    obtain ⟨hb, hlt, hr⟩ := memWf_cons.1 h
    simp only [writeByte]
    split
    · split
      · exact h
      · refine memWf_cons.2 ⟨‹_›, fun c hc => ?_, h⟩
        rcases List.mem_cons.1 hc with rfl | hc
        · assumption
        · exact Nat.lt_trans ‹_› (hlt c hc)
    · split
      · split
        · exact hr
        · subst_vars; exact memWf_cons.2 ⟨‹_›, hlt, hr⟩
      · refine memWf_cons.2 ⟨hb, fun c hc => ?_, ih hr⟩
        rcases mem_writeByte hc with hc | hc
        · omega
        · exact hlt c hc

/-- What a write leaves at every address. -/
theorem readByte_writeByte {m : List Host.Cell} (h : memWf m = true) (x : Nat) (v : Byte) (y : Nat) :
    readByte (writeByte m x v) y = if y = x then v else readByte m y := by
  induction m with
  | nil =>
    simp only [writeByte]
    split <;> split <;> (simp_all [readByte]; try omega)
  | cons cell rest ih =>
    obtain ⟨a, b⟩ := cell
    obtain ⟨hb, hlt, hr⟩ := memWf_cons.1 h
    simp only [writeByte]
    split
    · split
      · split
        · subst_vars
          rw [readByte, if_neg (by omega), readByte_of_lt fun c hc => Nat.lt_trans ‹_› (hlt c hc)]
        · rfl
      · by_cases hy : y = x
        · simp [readByte, hy]
        · rw [readByte, if_neg (by omega), if_neg hy]
    · split
      · subst_vars
        split
        · by_cases hy : y = a
          · rw [if_pos hy, hy, readByte_of_lt hlt]; exact (by assumption : v = unlistedByte).symm
          · rw [if_neg hy, readByte, if_neg (by omega)]
        · by_cases hy : y = a
          · simp [readByte, hy]
          · rw [if_neg hy, readByte, if_neg (by omega), readByte, if_neg (by omega)]
      · by_cases hay : a = y
        · rw [readByte, if_pos hay, if_neg (by omega), readByte, if_pos hay]
        · rw [readByte, if_neg hay, ih hr, readByte, if_neg hay]

/-- Writing bytes keeps the canonical form. -/
theorem writeBytes_wf {m : List Host.Cell} (h : memWf m = true) (x : Nat) (v : List Byte) :
    memWf (writeBytes m x v) = true := by
  induction v generalizing m x with
  | nil => exact h
  | cons b bs ih => exact ih (writeByte_wf h x b) (x + 1)

/-- The addresses listed after writing bytes are those listed before and those written. -/
theorem mem_writeBytes {v : List Byte} {m : List Host.Cell} {x : Nat} {cell : Host.Cell}
    (h : cell ∈ writeBytes m x v) : (x ≤ cell.1 ∧ cell.1 < x + v.length) ∨ cell ∈ m := by
  induction v generalizing m x with
  | nil => exact .inr h
  | cons b bs ih =>
    rcases ih h with h | h
    · exact .inl (by simp; omega)
    · rcases mem_writeByte h with h | h
      · exact .inl (by simp; omega)
      · exact .inr h

/-- What writing bytes leaves at every address. -/
theorem readByte_writeBytes {v : List Byte} {m : List Host.Cell} (h : memWf m = true) (x y : Nat) :
    readByte (writeBytes m x v) y = if x ≤ y ∧ y < x + v.length then v.getD (y - x) 0 else readByte m y := by
  induction v generalizing m x with
  | nil => rw [if_neg (by simp)]; rfl
  | cons b bs ih =>
    rw [writeBytes, ih (writeByte_wf h x b), readByte_writeByte h]
    by_cases hy : y = x
    · simp [hy]
    · by_cases hin : x + 1 ≤ y ∧ y < x + 1 + bs.length
      · rw [if_pos hin, if_pos (by simp; omega), show y - x = (y - (x + 1)) + 1 by omega, List.getD_cons_succ]
      · rw [if_neg hin, if_neg hy, if_neg (by simp; omega)]

/-- Two canonical memories with the same contents are the same list: equal memories are equal data. -/
theorem mem_ext {m₁ m₂ : List Host.Cell} (h₁ : memWf m₁ = true) (h₂ : memWf m₂ = true)
    (h : ∀ a, readByte m₁ a = readByte m₂ a) : m₁ = m₂ := by
  induction m₁ generalizing m₂ with
  | nil =>
    cases m₂ with
    | nil => rfl
    | cons cell rest =>
      obtain ⟨a, b⟩ := cell
      have hb := (memWf_cons.1 h₂).1
      have := h a
      simp [readByte] at this
      exact absurd this.symm hb
  | cons cell rest ih =>
    obtain ⟨a, b⟩ := cell
    obtain ⟨hb, hlt, hr⟩ := memWf_cons.1 h₁
    cases m₂ with
    | nil => have := h a; simp [readByte] at this; exact absurd this hb
    | cons cell₂ rest₂ =>
      obtain ⟨a₂, b₂⟩ := cell₂
      obtain ⟨hb₂, hlt₂, hr₂⟩ := memWf_cons.1 h₂
      have hroot : a = a₂ := by
        rcases Nat.lt_trichotomy a a₂ with hl | he | hg
        · have := h a
          rw [readByte, if_pos rfl, readByte, if_neg (by omega),
            readByte_of_lt fun c hc => Nat.lt_trans hl (hlt₂ c hc)] at this
          exact absurd this hb
        · exact he
        · have := h a₂
          rw [readByte, if_neg (by omega), readByte_of_lt fun c hc => Nat.lt_trans hg (hlt c hc),
            readByte, if_pos rfl] at this
          exact absurd this.symm hb₂
      subst hroot
      have hbb : b = b₂ := by simpa [readByte] using h a
      subst hbb
      rw [ih hr hr₂ fun x => ?_]
      by_cases hx : a = x
      · subst hx; rw [readByte_of_lt hlt, readByte_of_lt hlt₂]
      · simpa [readByte, hx] using h x

/-- Reset's memory is canonical. -/
theorem reset_mem_wf : memWf State.reset.mem = true := rfl

/-- Everything MemRead can do. -/
theorem memRead_eq_some {c : Cfg} {m : List Host.Cell} {addr n : Nat} {b : List Byte} :
    memRead c m addr n = some b ↔
      addr + n ≤ c.ringBytes ∧ b = (List.range n).map fun k => readByte m (addr + k) := by
  unfold memRead; split <;> simp_all [eq_comm]

/-- Everything MemWrite can do: it keeps the canonical form and writes exactly the bytes given. -/
theorem memWrite_eq_some {c : Cfg} {m m' : List Host.Cell} {addr : Nat} {v : List Byte}
    (h : memWrite c m addr v = some m') :
    addr + v.length ≤ c.ringBytes ∧ m' = writeBytes m addr v ∧ (memWf m = true → memWf m' = true ∧
      ∀ y, readByte m' y = if addr ≤ y ∧ y < addr + v.length then v.getD (y - addr) 0 else readByte m y) := by
  unfold memWrite at h
  split at h
  · obtain rfl := (Option.some.inj h)
    exact ⟨‹_›, rfl, fun hw => ⟨writeBytes_wf hw addr v, fun y => readByte_writeBytes hw addr y⟩⟩
  · cases h

/-- A slot below `RING_LEN` lies inside the ring memory (R41). -/
theorem slot_in_range {c : Cfg} {i : Nat} (h : i < c.ringLen) : slotAddr c i + c.snapBytes ≤ c.ringBytes := by
  have := Nat.mul_le_mul_right c.snapBytes h
  simp only [slotAddr, Cfg.ringBytes] at *
  rw [Nat.succ_mul] at this
  exact this

end Sys2Proof.Machine
end

