-- ==== Sys2Proof/Laws/Ring.lean ====
section
/-! SUPPORT. The laws of the shared ring operations: what the index arithmetic gives, what an advance and a SYNC move can do,
and what running an operation on one oscillator can do. -/

namespace Sys2Proof.Machine

/-! ### Index arithmetic (spec/40_ring_buffer.md R81) -/

/-- Distances round the ring, for indices below its length. -/
theorem ringDist_eq {n a b : Nat} (ha : a < n) (hb : b < n) :
    ringDist n a b = if a ≤ b then b - a else b + n - a := by
  unfold ringDist
  split
  · rw [show b + n - a = (b - a) + n by omega, Nat.add_mod_right, Nat.mod_eq_of_lt (by omega)]
  · rw [Nat.mod_eq_of_lt (by omega)]

/-- A distance is below the length. -/
theorem ringDist_lt {n : Nat} (h : 0 < n) (a b : Nat) : ringDist n a b < n := Nat.mod_lt _ h

/-- `next(i)`, for an index below the length. -/
theorem nextIdx_eq {n i : Nat} (h : i < n) : nextIdx n i = if i + 1 = n then 0 else i + 1 := by
  unfold nextIdx
  split
  · simp_all
  · exact Nat.mod_eq_of_lt (by omega)

/-- `prev(i)`, for an index below the length. -/
theorem prevIdx_eq {n i : Nat} (h : i < n) : prevIdx n i = if i = 0 then n - 1 else i - 1 := by
  unfold prevIdx
  split
  · rw [Nat.mod_eq_of_lt (by omega)]; omega
  · rw [show i + n - 1 = (i - 1) + n by omega, Nat.add_mod_right, Nat.mod_eq_of_lt (by omega)]

/-- `back2(i)`, for an index below a length of at least 2. -/
theorem back2_eq {n i : Nat} (h : i < n) (hn : 2 ≤ n) : back2 n i = if i < 2 then i + n - 2 else i - 2 := by
  unfold back2
  split
  · exact Nat.mod_eq_of_lt (by omega)
  · rw [show i + n - 2 = (i - 2) + n by omega, Nat.add_mod_right, Nat.mod_eq_of_lt (by omega)]

/-- A move forward, for an index and a distance below the length. -/
theorem add_mod_eq {n i j : Nat} (hi : i < n) (hj : j < n) :
    (i + j) % n = if i + j < n then i + j else i + j - n := by
  split
  · exact Nat.mod_eq_of_lt ‹_›
  · rw [Nat.mod_eq_sub_mod (by omega), Nat.mod_eq_of_lt (by omega)]

/-- The producer judges the ring full exactly when `head` is two behind `tail_seen` (R82). -/
theorem full_iff {n head tailSeen : Nat} : full n head tailSeen = true ↔ head = back2 n tailSeen := by simp [full]

/-- The consumer judges the ring empty exactly when `tail` is `head_seen` (R84). -/
theorem empty_iff {tail headSeen : Nat} : empty tail headSeen = true ↔ tail = headSeen := by simp [empty]

/-! ### Advances and SYNC moves -/

/-- Everything an advance of `head` can do (R82). -/
theorem advanceHead_head (s : State) :
    (advanceHead s).head = if s.head = back2 s.cfg.ringLen s.tailSeen then s.head else nextIdx s.cfg.ringLen s.head := by
  unfold advanceHead full
  by_cases h : s.head = back2 s.cfg.ringLen s.tailSeen <;> simp [h]

/-- Everything an advance of `tail` can do (R84). -/
theorem advanceTail_tail (s : State) :
    (advanceTail s).tail = if s.tail = s.headSeen then s.tail else nextIdx s.cfg.ringLen s.tail := by
  unfold advanceTail empty
  by_cases h : s.tail = s.headSeen <;> simp [h]

/-- A SYNC step never moves the view past the index (R85, R86). -/
theorem syncMove_le {n seen idx draws j : Nat} {pick : SyncPick} (h : syncMove n seen idx draws pick = some j) :
    j ≤ ringDist n seen idx := by
  cases pick with
  | current => simp only [syncMove, Option.some.injEq] at h; omega
  | value v =>
    simp only [syncMove] at h
    split at h
    · next hv => simp only [Option.some.injEq] at h; omega
    · cases h
  | draw =>
    simp only [syncMove, Option.some.injEq] at h
    have := Nat.mod_lt (Config.freeDraw draws) (show 0 < ringDist n seen idx + 1 by omega)
    omega

/-! ### One oscillator -/

/-- Everything running an operation on one oscillator can do: it answers exactly where the oscillator exists, and then
only that oscillator and its side's accumulator take new values. -/
theorem onVoice_eq_next {id : OscId} {f : Voice → Voice} {s t : State} :
    onVoice id f s = .next t ↔ ∃ o, (s.side (oscSide id)).osc? id = some o ∧
      t = s.setSide (oscSide id) ((s.side (oscSide id)).putVoice id (f ⟨o, (s.side (oscSide id)).blip⟩)) := by
  unfold onVoice
  split
  · simp_all
  · next o h => simp [h, eq_comm]

/-- The same inside the frame: it also needs `o.time < END_TIME`. -/
theorem onVoiceInFrame_eq_next {id : OscId} {f : Voice → Voice} {s t : State} :
    onVoiceInFrame id f s = .next t ↔ ∃ o, (s.side (oscSide id)).osc? id = some o ∧ o.time < s.cfg.endTime ∧
      t = s.setSide (oscSide id) ((s.side (oscSide id)).putVoice id (f ⟨o, (s.side (oscSide id)).blip⟩)) := by
  unfold onVoiceInFrame
  split
  · simp_all
  · next o h =>
    split
    · next ht => rw [onVoice_eq_next]; simp [h, ht]
    · next ht => simp [h, ht]

end Sys2Proof.Machine
end

