-- ==== Sys2Proof/Laws/Oscillator.lean ====
section
/-! SUPPORT. The laws of the generators: periods are at least 1, the loop of a run ends past the frame, and nothing but
the amplitude change reaches the accumulator. -/

namespace Sys2Proof.Machine

/-- What a well-formed configuration gives (spec/00_scope.md R2 to R4, U2). -/
theorem Cfg.wf_facts {c : Cfg} (h : c.wf = true) :
    1 ≤ c.ch ∧ 4 ≤ c.ringLen ∧ c.ringLen % 2 = 0 ∧ 1 ≤ c.frameRate ∧ 1 ≤ c.endTime ∧ 1 ≤ c.samplesPerFrame ∧
    1 ≤ c.minPeriod ∧ c.minPeriod ≤ c.maxPeriod ∧ 5 ≤ c.lfsrBits ∧ 1 ≤ c.pcmLen ∧ 1 ≤ c.pcmPeriod := by
  simp only [Cfg.wf, Bool.and_eq_true, decide_eq_true_eq] at h
  omega

/-- A feedback mask of a well-formed configuration fits the shift register and has its top bit set (R107, U2). -/
theorem noiseFb_of_wf {c : Cfg} (h : c.wf = true) (col : Color) :
    (noiseFb c col).testBit (c.lfsrBits - 1) = true ∧ noiseFb c col < 2 ^ c.lfsrBits := by
  simp only [Cfg.wf, Cfg.maskWf, Bool.and_eq_true, decide_eq_true_eq] at h
  cases col
  · exact h.1.1.2.1.2
  · exact h.1.1.2.2

/-- A step leaves the time of its generator alone (R105, R108, R114). -/
@[simp] theorem toneStep_time (c : Cfg) (r : Register) (gain : Nibble) (v : Voice) :
    (toneStep c r gain v).osc.time = v.osc.time := rfl
@[simp] theorem noiseStep_time (c : Cfg) (col : Color) (volume gain : Nibble) (v : Voice) :
    (noiseStep c col volume gain v).osc.time = v.osc.time := rfl
@[simp] theorem pcmStep_time (c : Cfg) (pcm : List Byte) (v : Voice) : (pcmStep c pcm v).osc.time = v.osc.time := rfl

@[simp] theorem toneStep_phase (c : Cfg) (r : Register) (gain : Nibble) (v : Voice) :
    (toneStep c r gain v).osc.phase = (v.osc.phase + 1) % waveValues := rfl
@[simp] theorem noiseStep_phase (c : Cfg) (col : Color) (volume gain : Nibble) (v : Voice) :
    (noiseStep c col volume gain v).osc.phase = lfsrStep (noiseFb c col) v.osc.phase := rfl
@[simp] theorem pcmStep_phase (c : Cfg) (pcm : List Byte) (v : Voice) :
    (pcmStep c pcm v).osc.phase = (v.osc.phase + 1) % c.pcmLen := rfl

@[simp] theorem toneStep_amp (c : Cfg) (r : Register) (gain : Nibble) (v : Voice) :
    (toneStep c r gain v).osc.amp = toneAmp c r gain ((v.osc.phase + 1) % waveValues) := rfl
@[simp] theorem noiseStep_amp (c : Cfg) (col : Color) (volume gain : Nibble) (v : Voice) :
    (noiseStep c col volume gain v).osc.amp = noiseAmp c volume gain (lfsrStep (noiseFb c col) v.osc.phase) := rfl
@[simp] theorem pcmStep_amp (c : Cfg) (pcm : List Byte) (v : Voice) :
    (pcmStep c pcm v).osc.amp = pcmAmp c (pcm.getD v.osc.phase 0).toNat := rfl

/-- One turn of the loop. -/
theorem genLoop_turn {c : Cfg} {period fuel : Nat} {f : Voice → Voice} {v : Voice} (h : v.osc.time < c.endTime) :
    genLoop c period f (fuel + 1) v = genLoop c period f fuel ((f v).setTime ((f v).osc.time + period)) := if_pos h

/-- Past the frame the loop does nothing. -/
theorem genLoop_done {c : Cfg} {period fuel : Nat} {f : Voice → Voice} {v : Voice} (h : c.endTime ≤ v.osc.time) :
    genLoop c period f fuel v = v := by
  cases fuel with
  | zero => rfl
  | succ n => exact if_neg (by omega)

/-- An invariant of one turn is an invariant of the loop: the induction over a run, packaged once. -/
theorem genLoop_induct {c : Cfg} {period : Nat} {f : Voice → Voice} (P : Voice → Prop)
    (turn : ∀ v, P v → v.osc.time < c.endTime → P ((f v).setTime ((f v).osc.time + period)))
    (fuel : Nat) (v : Voice) (h : P v) : P (genLoop c period f fuel v) := by
  induction fuel generalizing v with
  | zero => exact h
  | succ n ih =>
    by_cases ht : v.osc.time < c.endTime
    · rw [genLoop_turn ht]; exact ih _ (turn v h ht)
    · rw [genLoop_done (by omega)]; exact h

/-- With a period of at least 1 the loop ends past the frame, and less than one period past it if it ran (R113, R140). -/
theorem genLoop_time {c : Cfg} {period : Nat} {f : Voice → Voice} (hf : ∀ v, (f v).osc.time = v.osc.time)
    (hp : 1 ≤ period) (fuel : Nat) (v : Voice) (hfuel : c.endTime ≤ v.osc.time + fuel) :
    c.endTime ≤ (genLoop c period f fuel v).osc.time ∧
    (v.osc.time < c.endTime → (genLoop c period f fuel v).osc.time < c.endTime + period) := by
  induction fuel generalizing v with
  | zero => exact ⟨by simpa [genLoop] using hfuel, fun h => absurd hfuel (by omega)⟩
  | succ n ih =>
    by_cases ht : v.osc.time < c.endTime
    · rw [genLoop_turn ht]
      have := ih ((f v).setTime ((f v).osc.time + period)) (by simp [hf]; omega)
      refine ⟨this.1, fun _ => ?_⟩
      by_cases h2 : v.osc.time + period < c.endTime
      · exact this.2 (by simpa [hf] using h2)
      · rw [genLoop_done (by simp [hf]; omega)]; simp [hf]; omega
    · rw [genLoop_done (by omega)]; exact ⟨by omega, fun h => absurd h ht⟩

/-- Everything an UPDATE_AMP can do to the accumulator: the change, at the oscillator's time, or nothing for no change. -/
theorem updateAmp_blip (c : Cfg) (new : Nat) (v : Voice) :
    (updateAmp c new v).blip =
      if (new : Int) = v.osc.amp then v.blip else addDelta c v.blip v.osc.time ((new : Int) - v.osc.amp) := by
  unfold updateAmp
  by_cases h : (new : Int) = v.osc.amp
  · simp [h]
  · rw [if_neg h, if_neg (by omega)]

/-! ### The deltas of a run -/

@[simp] theorem runDeltas_zero (period t0 : Nat) (amp : Nat → Nat) : runDeltas period t0 amp 0 = [] := rfl

theorem runDeltas_succ (period t0 : Nat) (amp : Nat → Nat) (n : Nat) :
    runDeltas period t0 amp (n + 1) = runDeltas period t0 amp n ++ [(t0 + n * period, (amp (n + 1) : Int) - amp n)] := by
  simp [runDeltas, List.range_succ]

/-- Submitting the steps of a run is submitting its list of deltas in order. -/
theorem submitRun_eq_foldl (c : Cfg) (period t0 : Nat) (amp : Nat → Nat) (n : Nat) (b : BlipState) :
    submitRun c period t0 amp n b = (runDeltas period t0 amp n).foldl (fun b e => addDelta c b e.1 e.2) b := by
  induction n with
  | zero => rfl
  | succ n ih => simp [runDeltas_succ, submitRun, ih]

end Sys2Proof.Machine
end

