-- ==== Sys2Proof/Laws/PerInstr.lean ====
section
/-! SUPPORT. One lemma per operation: which of them are requested by a word. -/

namespace Sys2Proof.Laws.PortWord

/-- The encoder writes a word at a port or a generator exactly for the operations that have one (spec/30_encoding.md R61). -/
def Statement (i : Instr) : Prop := (∃ j, encode i = .internal j) ↔ i.hasWord = false

theorem reset : Statement .reset := by simp [Statement, encode, Instr.hasWord]
theorem push (snap : List Byte) : Statement (.push snap) := by simp [Statement, encode, Instr.hasWord]
theorem render : Statement .render := by simp [Statement, encode, Instr.hasWord]
theorem rtSelect : Statement .rtSelect := by simp [Statement, encode, Instr.hasWord]
theorem rtAdvance : Statement .rtAdvance := by simp [Statement, encode, Instr.hasWord]
theorem syncHead (pick : SyncPick) : Statement (.syncHead pick) := by simp [Statement, encode, Instr.hasWord]
theorem syncTail (pick : SyncPick) : Statement (.syncTail pick) := by simp [Statement, encode, Instr.hasWord]
theorem synthSide (side : Side) (cur : List Byte) : Statement (.synthSide side cur) := by
  simp [Statement, encode, Instr.hasWord]
theorem noiseRun0 (g : GenCtx) (freq : BitVec 12) (volume : Nibble) : Statement (.noiseRun0 g freq volume) := by
  simp [Statement, encode, Instr.hasWord]
theorem noiseRun1 (g : GenCtx) (freq : BitVec 12) (volume : Nibble) : Statement (.noiseRun1 g freq volume) := by
  simp [Statement, encode, Instr.hasWord]
theorem toneRun (g : GenCtx) (r : Register) : Statement (.toneRun g r) := by simp [Statement, encode, Instr.hasWord]
theorem toneStep (g : GenCtx) (r : Register) : Statement (.toneStep g r) := by simp [Statement, encode, Instr.hasWord]
theorem noiseStep (g : GenCtx) (color : Color) (volume : Nibble) : Statement (.noiseStep g color volume) := by
  simp [Statement, encode, Instr.hasWord]
theorem pcmRun (side : Side) (pcm : List Byte) : Statement (.pcmRun side pcm) := by
  simp [Statement, encode, Instr.hasWord]
theorem pcmStep (side : Side) (pcm : List Byte) : Statement (.pcmStep side pcm) := by
  simp [Statement, encode, Instr.hasWord]
theorem updateAmp (osc : OscId) (new : Nat) : Statement (.updateAmp osc new) := by
  simp [Statement, encode, Instr.hasWord]
theorem blipAddDelta (side : Side) (t : Nat) (d : Int) : Statement (.blipAddDelta side t d) := by
  simp [Statement, encode, Instr.hasWord]
theorem blipReadOut (side : Side) (n : Nat) : Statement (.blipReadOut side n) := by
  simp [Statement, encode, Instr.hasWord]

end Sys2Proof.Laws.PortWord
end

