-- ==== Sys2Proof/Laws/Step.lean ====
section
/-! SUPPORT. Everything one step can do, and everything fetching can do. -/

namespace Sys2Proof.Machine

/-- Everything fetching can do. -/
theorem fetch_eq_some {s : State} {d : Decoded} {t : State} :
    fetch s = some (d, t) ↔ ∃ inp rest, s.inputs = inp :: rest ∧ d = decode s.cfg (withBusy s.busy inp) ∧
      t = { s with inputs := rest } := by
  unfold fetch
  split
  · next h => simp [h]
  · next inp rest h => simp [h, eq_comm]

/-- Everything a step that answers a next state has done: nothing, or taken an input that is no operation, or run the
operation the oldest input decodes to. -/
theorem step_cases {s t : State} (h : step s = .next t) :
    s.cfg.wf = true ∧ ((s.inputs = [] ∧ t = s) ∨
      ∃ inp rest, s.inputs = inp :: rest ∧
        (((decode s.cfg (withBusy s.busy inp) = .noOperation ∨ decode s.cfg (withBusy s.busy inp) = .ignored) ∧
            t = { s with inputs := rest }) ∨
          ∃ i, decode s.cfg (withBusy s.busy inp) = .op i ∧ exec i { s with inputs := rest } = .next t)) := by
  unfold step at h
  split at h
  · next hc =>
    refine ⟨hc, ?_⟩
    cases hi : s.inputs with
    | nil => simp only [fetch, hi] at h; injection h with h; exact .inl ⟨rfl, h.symm⟩
    | cons inp rest =>
      refine .inr ⟨inp, rest, rfl, ?_⟩
      simp only [fetch, hi] at h
      cases hd : decode s.cfg (withBusy s.busy inp) with
      | op i => rw [hd] at h; exact .inr ⟨i, rfl, h⟩
      | noOperation => rw [hd] at h; injection h with h; exact .inl ⟨.inl rfl, h.symm⟩
      | ignored => rw [hd] at h; injection h with h; exact .inl ⟨.inr rfl, h.symm⟩
      | reject r => rw [hd] at h; cases h
  · cases h

/-- Running an operation first is running the rest after it. -/
theorem runTrace_cons_next {i : Instr} {rest : List Instr} {s t : State} (h : exec i s = .next t) :
    runTrace (i :: rest) s = runTrace rest t := by simp [runTrace, h]

end Sys2Proof.Machine
end

