-- ==== Sys2Proof/Tests/Slice0.lean ====
section
/-! SUPPORT. Tests whose expected results come from spec/95_test_vectors.md and the worked examples of the rules (named in
each docstring), the smoke test of WellFormed, the words of the encodings written out, and for each statement with
hypotheses a witness that meets them. -/

namespace Sys2Proof.Tests

open Sys2Proof.Machine

/-! ### Helpers: the tables of spec/41_oscillator.md R119, the snapshots of V4, small states -/

def square : Vector Nibble 32 := Vector.ofFn fun j : Fin 32 => if j.val < 16 then 15 else 0
def saw : Vector Nibble 32 := Vector.ofFn fun j : Fin 32 => BitVec.ofNat 4 (j.val / 2)
def tri : Vector Nibble 32 := Vector.ofFn fun j : Fin 32 => BitVec.ofNat 4 (if j.val < 16 then j.val else 31 - j.val)
def flat (x : Nibble) : Vector Nibble 32 := Vector.replicate 32 x

def zeros (n : Nat) : List Byte := List.replicate n 0
def ones (n : Nat) : List Byte := List.replicate n 0xFF

/-- V4, `T1`. -/
def snapT1 : List Byte := [0x40, 0xF0] ++ ones 8 ++ zeros 8 ++ zeros 18 ++ [0x8F, 0x00] ++ zeros 4
/-- V4, `T2`. -/
def snapT2 : List Byte :=
  [0x20, 0x80, 0x00, 0x11, 0x22, 0x33, 0x44, 0x55, 0x66, 0x77, 0x88, 0x99, 0xAA, 0xBB, 0xCC, 0xDD, 0xEE, 0xFF] ++
  zeros 18 ++ [0xFF, 0x00] ++ zeros 4
/-- V4, `T3`. -/
def snapT3 : List Byte := [0x1F, 0xF0] ++ zeros 16 ++ [0x1F, 0xF0] ++ ones 16 ++ [0xFF, 0xFF] ++ zeros 4
/-- V4, `T4`. -/
def snapT4 : List Byte := zeros 38 ++ [0x00, 0xFF, 0x80, 0x40]

/-- The reset state of TESTCFG. -/
def fresh : State := State.resetWith testCfg

/-- TESTCFG with the indices given. -/
def ring (head tail headSeen tailSeen : Nat) : State :=
  { fresh with head := head, tail := tail, headSeen := headSeen, tailSeen := tailSeen }

/-- REFCFG with the indices given (a ring of 12). -/
def ring12 (head tail headSeen tailSeen : Nat) : State :=
  { State.reset with head := head, tail := tail, headSeen := headSeen, tailSeen := tailSeen }

/-- TESTCFG with the oscillator states of the left side's channels given. -/
def leftOscs (os : List Osc) (b : BlipState) : State := { fresh with left := { fresh.left with osc := os, blip := b } }

/-- TESTCFG with the left side's PCM oscillator given. -/
def leftPcm (o : Osc) (level : Int) : State :=
  { fresh with left := { fresh.left with pcmosc := o, blip := .zoh level (List.replicate 8 0) } }

/-- A cleared ZOH accumulator at a level, with bins. -/
def zoh (level : Int) (acc : List Int) : BlipState := .zoh level acc

/-- What a test looks at in a result: some field of the next state. -/
def after {α : Type} (r : Result) (f : State → α) : Option α :=
  match r with
  | .next s => some (f s)
  | .fault _ => none
  | .refused _ => none

/-- The refusal, if the result is one. -/
def refusal (r : Result) : Option Refusal :=
  match r with
  | .next _ => none
  | .fault _ => none
  | .refused x => some x

/-- The samples of a list of integers. -/
def samples (l : List Int) : List Sample := l.map (BitVec.ofInt 16)

/-! ### Configurations and WellFormed -/

theorem test_configs_wf : refCfg.wf = true ∧ testCfg.wf = true := by decide

/-- R5: 204 and 42 bytes; R3: 34816, 735, 256, 8; R116: 272, 64. -/
theorem test_derived_parameters :
    (refCfg.snapBytes, refCfg.endTime, refCfg.samplesPerFrame, refCfg.pcmPeriod) = (204, 34816, 735, 272) ∧
    (testCfg.snapBytes, testCfg.endTime, testCfg.samplesPerFrame, testCfg.pcmPeriod) = (42, 256, 8, 64) := by decide

/-- U2: each way a configuration can be ill-formed is refused. -/
theorem test_config_checks :
    Cfg.wf { testCfg with ch := 0 } = false ∧ Cfg.wf { testCfg with ringLen := 5 } = false ∧
    Cfg.wf { testCfg with ringLen := 2 } = false ∧ Cfg.wf { testCfg with clockRate := 15361 } = false ∧
    Cfg.wf { testCfg with sampleRate := 481 } = false ∧ Cfg.wf { testCfg with minPeriod := 0 } = false ∧
    Cfg.wf { testCfg with minPeriod := 129 } = false ∧ Cfg.wf { testCfg with lfsrBits := 4 } = false ∧
    Cfg.wf { testCfg with noiseFb1 := 0x0100 } = false ∧ Cfg.wf { testCfg with noiseFb0 := 0xE000 } = false ∧
    Cfg.wf { testCfg with pcmLen := 257 } = false ∧ Cfg.wf { testCfg with pcmBits := 7 } = false ∧
    Cfg.wf { testCfg with pcmBits := 4, pcmLen := 5 } = false ∧ Cfg.wf { testCfg with frameRate := 0 } = false := by
  decide

/-- Each check of WellFormed refuses a term that fails it. -/
theorem test_wellformed_checks :
    Instr.wf testCfg (.push (zeros 41)) = false ∧ Instr.wf testCfg (.synthSide .L (zeros 43)) = false ∧
    Instr.wf testCfg (.syncHead (.value 4)) = false ∧ Instr.wf testCfg (.syncTail (.value 4)) = false ∧
    Instr.wf testCfg (.noiseRun0 ⟨.L, 2, 0⟩ 0 0) = false ∧ Instr.wf testCfg (.noiseRun1 ⟨.L, 2, 0⟩ 0 0) = false ∧
    Instr.wf testCfg (.toneRun ⟨.L, 2, 0⟩ ⟨square, 0, 0⟩) = false ∧
    Instr.wf testCfg (.toneRun ⟨.L, 0, 0⟩ ⟨flat 0xF, 0, 0⟩) = false ∧
    Instr.wf testCfg (.toneStep ⟨.R, 2, 0⟩ ⟨square, 0, 0⟩) = false ∧
    Instr.wf testCfg (.noiseStep ⟨.R, 2, 0⟩ .one 0) = false ∧ Instr.wf testCfg (.pcmRun .L (zeros 3)) = false ∧
    Instr.wf { testCfg with pcmBits := 4 } (.pcmStep .L [16, 0, 0, 0]) = false ∧
    Instr.wf testCfg (.updateAmp (.chan .L 2) 0) = false ∧ Instr.wf testCfg (.blipAddDelta .L 256 1) = false ∧
    Instr.wf testCfg (.blipReadOut .L 7) = false := by decide

/-! ### Encoding -/

/-- V1, every line: the bytes of a Register. -/
theorem test_register_bytes :
    bytesOfRegister ⟨square, 440, 15⟩ = [0xB8, 0xF1] ++ ones 8 ++ zeros 8 ∧
    bytesOfRegister ⟨tri, 0xABC, 5⟩ =
      [0xBC, 0x5A, 0x10, 0x32, 0x54, 0x76, 0x98, 0xBA, 0xDC, 0xFE, 0xEF, 0xCD, 0xAB, 0x89, 0x67, 0x45, 0x23, 0x01] ∧
    bytesOfRegister ⟨flat 0, 0, 0⟩ = zeros 18 ∧
    bytesOfRegister ⟨flat 15, 4095, 0⟩ = [0xFF, 0x0F] ++ ones 16 ∧
    bytesOfRegister ⟨(flat 0).set 0 1, 1, 15⟩ = [0x01, 0xF0, 0x01] ++ zeros 15 ∧
    bytesOfRegister ⟨(flat 0).set 31 9, 256, 1⟩ = [0x00, 0x11] ++ zeros 15 ++ [0x90] ∧
    bytesOfRegister ⟨flat 15, 1000, 10⟩ = [0xE8, 0xA3] ++ ones 16 := by decide

/-- V1 read back, and as the 144-bit word. -/
theorem test_register_decodes :
    registerOfBytes [0xBC, 0x5A, 0x10, 0x32, 0x54, 0x76, 0x98, 0xBA, 0xDC, 0xFE, 0xEF, 0xCD, 0xAB, 0x89, 0x67, 0x45, 0x23,
      0x01] = ⟨tri, 0xABC, 5⟩ ∧
    registerOfWord 0x0123456789ABCDEFFEDCBA98765432105ABC#144 = ⟨tri, 0xABC, 5⟩ ∧
    wordOfRegister ⟨tri, 0xABC, 5⟩ = 0x0123456789ABCDEFFEDCBA98765432105ABC#144 := by decide

/-- V2. -/
theorem test_stereo_byte :
    byteOfStereo ⟨15, 8⟩ = 0x8F ∧ byteOfStereo ⟨7, 15⟩ = 0xF7 ∧ byteOfStereo ⟨15, 0⟩ = 0x0F ∧
    stereoOfByte 0xA3 = ⟨3, 10⟩ := by decide

/-- V3. -/
theorem test_generator_select :
    genSelect ⟨flat 0, 0xFFF, 0xF⟩ = .noise .zero ∧ genSelect ⟨flat 15, 0, 0⟩ = .noise .one ∧
    genSelect ⟨flat 7, 0, 0⟩ = .tone ∧ genSelect ⟨(flat 0).set 31 1, 0, 0⟩ = .tone ∧
    genSelect ⟨(flat 15).set 0 14, 0, 0⟩ = .tone ∧ genSelect ⟨flat 1, 0, 0⟩ = .tone ∧
    genSelect ⟨saw, 0, 0⟩ = .tone := by decide

/-- V4: `T1` and `T2` decode to the fields they were written from. -/
theorem test_snapshot_decodes :
    snapshotOfBytes testCfg snapT1 = ⟨[⟨square, 64, 15⟩, ⟨flat 0, 0, 0⟩], [⟨15, 8⟩, ⟨0, 0⟩], zeros 4⟩ ∧
    snapshotOfBytes testCfg snapT2 = ⟨[⟨saw, 32, 8⟩, ⟨flat 0, 0, 0⟩], [⟨15, 15⟩, ⟨0, 0⟩], zeros 4⟩ := by decide

/-- R67: with 4-bit samples the even one is in bits 3:0. -/
theorem test_pcm_nibbles : pcmOfBytes { testCfg with pcmBits := 4 } [0x21, 0x43] = [1, 2, 3, 4] := by decide

/-- V5: `gray` and `ungray` for lengths 4 and 12. -/
theorem test_gray :
    (List.range 4).map (gray 4) = [0b00, 0b01, 0b11, 0b10] ∧ ungray 4 0b11 = 2 ∧ ungray 12 0b1111 = 6 ∧
    ungray 12 0b1000 = 11 ∧ ungray 12 0b0111 = 5 := by decide

/-- V6. -/
theorem test_interleave :
    Frame.interleaved ⟨samples [16383, 16383, 0], samples [8737, 8737, 0]⟩ = samples [16383, 8737, 16383, 8737, 0, 0] ∧
    Frame.bytes ⟨samples [16383, 16383, 0], samples [8737, 8737, 0]⟩ =
      [0xFF, 0x3F, 0x21, 0x22, 0xFF, 0x3F, 0x21, 0x22, 0, 0, 0, 0] ∧
    sampleBytes (BitVec.ofInt 16 (-2)) = [0xFE, 0xFF] := by decide

/-- R61, the words at the ports: SYS, PPORT, CPORT. -/
theorem test_port_words :
    decode testCfg (.sys 1) = .op .reset ∧ decode testCfg (.sys 0) = .noOperation ∧
    decode testCfg (.pport 0b01 snapT1) = .op (.push snapT1) ∧ decode testCfg (.pport 0b00 snapT1) = .noOperation ∧
    decode testCfg (.pport 0b11 snapT1) = .op .reset ∧ decode testCfg (.pport 0b01 (zeros 41)) = .reject .illFormed ∧
    decode testCfg (.cport 0b001) = .op .render ∧ decode testCfg (.cport 0b011) = .ignored ∧
    decode testCfg (.cport 0b010) = .noOperation ∧ decode testCfg (.cport 0b101) = .op .reset := by decide

/-- R62, R71: V1's Register words at a generator. -/
theorem test_register_words :
    decode testCfg (.reg ⟨.R, 1, 9⟩ 0xFFFFFFFFFFFFFFFFF1B8#144) = .op (.toneRun ⟨.R, 1, 9⟩ ⟨square, 440, 15⟩) ∧
    decode testCfg (.reg ⟨.R, 1, 9⟩ 0xF3E8#144) = .op (.noiseRun0 ⟨.R, 1, 9⟩ 1000 15) ∧
    decode testCfg (.reg ⟨.R, 1, 9⟩ 0xFFFFFFFFFFFFFFFFFFFFFFFFFFFFFFFFA3E8#144) =
      .op (.noiseRun1 ⟨.R, 1, 9⟩ 1000 10) ∧
    decode testCfg (.reg ⟨.R, 2, 9⟩ 0xF3E8#144) = .reject .illFormed := by decide

/-- R61: the operations without a word decode from themselves, and one with a word does not. -/
theorem test_operations_without_word :
    decode testCfg (.internal .rtSelect) = .op .rtSelect ∧ decode testCfg (.internal .rtAdvance) = .op .rtAdvance ∧
    decode testCfg (.internal (.syncHead (.value 3))) = .op (.syncHead (.value 3)) ∧
    decode testCfg (.internal (.syncTail .current)) = .op (.syncTail .current) ∧
    decode testCfg (.internal (.synthSide .R snapT1)) = .op (.synthSide .R snapT1) ∧
    decode testCfg (.internal (.toneStep ⟨.L, 1, 2⟩ ⟨saw, 1, 2⟩)) = .op (.toneStep ⟨.L, 1, 2⟩ ⟨saw, 1, 2⟩) ∧
    decode testCfg (.internal (.noiseStep ⟨.L, 1, 2⟩ .one 3)) = .op (.noiseStep ⟨.L, 1, 2⟩ .one 3) ∧
    decode testCfg (.internal (.pcmRun .L (zeros 4))) = .op (.pcmRun .L (zeros 4)) ∧
    decode testCfg (.internal (.pcmStep .R (ones 4))) = .op (.pcmStep .R (ones 4)) ∧
    decode testCfg (.internal (.updateAmp (.pcm .R) 7)) = .op (.updateAmp (.pcm .R) 7) ∧
    decode testCfg (.internal (.blipAddDelta .L 105 (-16383))) = .op (.blipAddDelta .L 105 (-16383)) ∧
    decode testCfg (.internal (.blipReadOut .L 8)) = .op (.blipReadOut .L 8) ∧
    decode testCfg (.internal .render) = .reject .needsWord := by decide

/-- The words of opcode_table.json, by their widths. -/
theorem test_table_words :
    decodeTableWord 1 1 = some .reset ∧ decodeTableWord 8 1 = some .reset ∧ decodeTableWord 3 1 = some .render ∧
    decodeTableWord 3 3 = none ∧ decodeTableWord 144 0 = some (.noiseRun0 ⟨.L, 0, 0⟩ 0 0) ∧
    decodeTableWord 144 0x10000 = some (.toneRun ⟨.L, 0, 0⟩ ⟨(flat 0).set 0 1, 0, 0⟩) := by decide

/-! ### Functions -/

/-- V21: the corners of FREQ2PERIOD. -/
theorem test_periods :
    (tonePeriod refCfg 0, noisePeriod refCfg 0) = (4096, 4096) ∧ (tonePeriod refCfg 440, noisePeriod refCfg 440) = (147, 295) ∧
    (tonePeriod refCfg 4095, noisePeriod refCfg 4095) = (14, 30) ∧ (tonePeriod testCfg 1000, noisePeriod testCfg 31) = (4, 32) ∧
    (tonePeriod testCfg 64, noisePeriod testCfg 100) = (7, 9) := by decide

/-- V22, V23: amplitudes. -/
theorem test_amplitudes :
    (getAmp refCfg 15 15, getAmp testCfg 15 15) = (8191, 16383) ∧ (getAmp refCfg 7 9, getAmp testCfg 7 9) = (2293, 4587) ∧
    (getAmp refCfg 15 8, getAmp testCfg 15 8) = (4368, 8737) ∧ (getAmp refCfg 0 15, getAmp testCfg 15 0) = (0, 0) ∧
    (pcmAmp refCfg 128, pcmAmp testCfg 128) = (4111, 8223) ∧ (pcmAmp refCfg 254, pcmAmp testCfg 64) = (8159, 4111) := by
  decide

/-- V24, V25: the first LFSR states. -/
theorem test_lfsr :
    (lfsrStep 0x6000)^[15] 1 = 0x6001 ∧ (lfsrStep 0x6000)^[20] 1 = 0x0500 ∧ (lfsrStep 0x6000)^[3] 5 = 0x7800 ∧
    (lfsrStep 0x4100)^[10] 1 = 0x4120 ∧ (lfsrStep 0x4100)^[20] 1 = 0x2480 := by decide

/-! ### Operations, at most two tests each -/

/-- R170: from a state with everything moved. -/
theorem test_reset_clears :
    after (exec .reset { ring 3 2 3 1 with mem := [(0, 7)], busy := true }) (fun s => (s.mem, s.head, s.tail, s.headSeen)) =
      some ([], 0, 0, 0) := by decide

/-- V10 (`N` = 4): head 3, tail_seen 2 writes slot 3 and wraps; head 2, tail_seen 0 writes slot 2 and is full. -/
theorem test_push_wraps_and_full :
    after (exec (.push snapT4) (ring 3 2 3 2)) (fun s => (s.head, s.mem)) = some (0, [(165, 0xFF), (166, 0x80), (167, 0x40)]) ∧
    after (exec (.push snapT4) (ring 2 0 0 0)) (fun s => (s.head, s.mem)) = some (2, [(123, 0xFF), (124, 0x80), (125, 0x40)]) := by
  decide

/-- V10 (`N` = 12). -/
theorem test_push_ring12 :
    (advanceHead (ring12 10 0 0 0)).head = 10 ∧ (advanceHead (ring12 11 3 3 3)).head = 0 := by decide

/-- The state before render 2 of P10: slot 0 holds `T1`, the zero snapshot has been rendered once. -/
def p10 : State :=
  { ring 1 1 1 0 with
    mem := writeBytes [] 0 snapT1
    left := { fresh.left with osc := [⟨0, 12288, 0⟩, ⟨0, 12288, 0⟩] }
    right := { fresh.right with osc := [⟨0, 12288, 0⟩, ⟨0, 12288, 0⟩] } }

/-- P10, render 2: the frame, `tail`, and the oscillators. -/
theorem test_render_p10 :
    after (exec .render p10) (fun s => (s.frames, s.tail)) =
      some ([⟨samples [16383, 16383, 16383, 0, 0, 0, 16383, 16383], samples [8737, 8737, 8737, 0, 0, 0, 8737, 8737]⟩], 1) ∧
    after (exec .render p10) (fun s => (s.left.osc, s.right.osc)) =
      some ([⟨3, 5, 16383⟩, ⟨0, 3072, 0⟩], [⟨3, 5, 8737⟩, ⟨0, 3072, 0⟩]) := by decide

/-- P10, render 1: the zero snapshot of slot 3, silence, and `tail` moves on. -/
theorem test_render_silent :
    after (exec .render (ring 1 0 1 0)) (fun s => (s.frames, s.tail, s.left.osc)) =
      some ([⟨samples [0, 0, 0, 0, 0, 0, 0, 0], samples [0, 0, 0, 0, 0, 0, 0, 0]⟩], 1, [⟨0, 12288, 0⟩, ⟨0, 12288, 0⟩]) := by
  decide

/-- V11: `tail` 2 selects slot 1 (here at bytes 42 to 83), `tail` 0 selects slot 3. -/
theorem test_select_slot :
    after (exec .rtSelect { ring 2 2 2 0 with mem := [(42, 5), (83, 6)] }) (fun s => (s.cur.getD 0 0, s.cur.getD 41 0)) =
      some (5, 6) ∧
    after (exec .rtSelect { ring 0 0 0 0 with mem := [(126, 9)] }) (fun s => s.cur.getD 0 0) = some 9 := by decide

/-- V12. -/
theorem test_advance :
    after (exec .rtAdvance (ring 1 0 0 0)) State.tail = some 0 ∧ after (exec .rtAdvance (ring 1 0 1 0)) State.tail = some 1 ∧
    after (exec .rtAdvance (ring 0 3 0 3)) State.tail = some 0 ∧ after (exec .rtAdvance (ring 3 3 3 3)) State.tail = some 3 := by
  decide

/-- V13: `N` = 12, head_seen 10, head 1: 11 and 0 and 1 are allowed, 2 and 9 are not. -/
theorem test_sync_head :
    after (exec (.syncHead (.value 11)) (ring12 1 10 10 10)) State.headSeen = some 11 ∧
    after (exec (.syncHead (.value 0)) (ring12 1 10 10 10)) State.headSeen = some 0 ∧
    after (exec (.syncHead .current) (ring12 1 10 10 10)) State.headSeen = some 1 ∧
    refusal (exec (.syncHead (.value 2)) (ring12 1 10 10 10)) = some .syncValue ∧
    refusal (exec (.syncHead (.value 9)) (ring12 1 10 10 10)) = some .syncValue := by decide

/-- V13: `N` = 4, tail_seen 3, tail 1: 3, 0 and 1 are allowed, 2 is not. -/
theorem test_sync_tail :
    after (exec (.syncTail (.value 3)) (ring 1 1 1 3)) State.tailSeen = some 3 ∧
    after (exec (.syncTail (.value 0)) (ring 1 1 1 3)) State.tailSeen = some 0 ∧
    after (exec (.syncTail .current) (ring 1 1 1 3)) State.tailSeen = some 1 ∧
    refusal (exec (.syncTail (.value 2)) (ring 1 1 1 3)) = some .syncValue := by decide

/-- V31, frame 1 (sawtooth at volume 8). -/
theorem test_side_saw :
    after (exec (.synthSide .R snapT2) fresh) (fun s => (s.right.out, s.right.osc, s.left)) =
      some (samples [582, 1164, 1747, 2329, 2912, 3494, 4077, 5242], [⟨14, 18, 5242⟩, ⟨0, 12288, 0⟩], fresh.left) := by
  decide

/-- V37, frame 1: three loud generators saturate. -/
theorem test_side_saturates :
    after (exec (.synthSide .L ([0x00, 0xF0] ++ ones 8 ++ zeros 8 ++ [0x00, 0xF0] ++ ones 8 ++ zeros 8 ++ ones 6)) fresh)
      (fun s => (s.left.out, s.left.osc, s.left.pcmosc)) =
      some (samples [32767, 32767, 32767, 32767, 32767, 32767, 32767, 32767], [⟨0, 2, 16383⟩, ⟨0, 2, 16383⟩], ⟨0, 0, 16383⟩) := by
  decide

/-- V32, frame 2, channel 0: deltas (160, +16383) and (224, -16383), in bins 5 and 7. -/
theorem test_noise_run0 :
    after (exec (.noiseRun0 ⟨.L, 0, 15⟩ 31 15) (leftOscs [⟨0, 192, 0⟩, ⟨0, 130, 0⟩] (zoh 0 (List.replicate 8 0))))
      (fun s => (s.left.osc, s.left.blip)) =
      some ([⟨0, 20480, 0⟩, ⟨0, 130, 0⟩], zoh 0 [0, 0, 0, 0, 0, 16383, 0, -16383]) := by decide

/-- V32, frame 2, channel 1: deltas (0, +16383), (32, -16383), (192, +16383), (224, -16383). -/
theorem test_noise_run1 :
    after (exec (.noiseRun1 ⟨.L, 1, 15⟩ 31 15) (leftOscs [⟨0, 192, 0⟩, ⟨0, 130, 0⟩] (zoh 0 (List.replicate 8 0))))
      (fun s => (s.left.osc, s.left.blip)) =
      some ([⟨0, 192, 0⟩, ⟨0, 16388, 0⟩], zoh 0 [16383, -16383, 0, 0, 0, 0, 16383, -16383]) := by decide

/-- V30, frame 1, side L: deltas (0, +16383), (105, -16383), (217, +16383). -/
theorem test_tone_run :
    after (exec (.toneRun ⟨.L, 0, 15⟩ ⟨square, 64, 15⟩) fresh) (fun s => (s.left.osc, s.left.blip)) =
      some ([⟨3, 5, 16383⟩, ⟨0, 0, 0⟩], zoh 0 [16383, 0, 0, -16383, 0, 0, 16383, 0]) := by decide

/-- V36, frame 3: a tone run that starts from LFSR contents 960 and the carried time 3. -/
theorem test_tone_run_after_noise :
    after (exec (.toneRun ⟨.L, 0, 15⟩ ⟨square, 64, 15⟩) (leftOscs [⟨3, 960, 0⟩, ⟨0, 0, 0⟩] (zoh 0 (List.replicate 8 0))))
      (fun s => (s.left.osc, s.left.blip)) =
      some ([⟨6, 5, 16383⟩, ⟨0, 0, 0⟩], zoh 0 [16383, 0, 0, -16383, 0, 0, 16383, 0]) := by decide

/-- R105: index 31 wraps to 0 before the lookup (V30: step 32 at 217 reaches index 0, sample 15). -/
theorem test_tone_step :
    after (exec (.toneStep ⟨.L, 0, 15⟩ ⟨square, 64, 15⟩) (leftOscs [⟨217, 31, 0⟩] (zoh 0 (List.replicate 8 0))))
      (fun s => (s.left.osc, s.left.blip)) = some ([⟨217, 0, 16383⟩], zoh 0 [0, 0, 0, 0, 0, 0, 16383, 0]) := by decide

/-- V36, frame 2: from 5 at time 3 the LFSR gives 0x6002, low bit 0, delta (3, -16383). -/
theorem test_noise_step :
    after (exec (.noiseStep ⟨.L, 0, 15⟩ .zero 15) (leftOscs [⟨3, 5, 16383⟩] (zoh 16383 (List.replicate 8 0))))
      (fun s => (s.left.osc, s.left.blip)) = some ([⟨3, 0x6002, 0⟩], zoh 16383 [-16383, 0, 0, 0, 0, 0, 0, 0]) := by decide

/-- V33, frame 2: (0, -4111), (64, +16383), (128, -8160), (192, -4112). -/
theorem test_pcm_run :
    after (exec (.pcmRun .L [0, 255, 128, 64]) (leftPcm ⟨0, 0, 4111⟩ 4111)) (fun s => (s.left.pcmosc, s.left.blip)) =
      some (⟨0, 0, 4111⟩, zoh 4111 [-4111, 0, 16383, 0, -8160, 0, -4112, 0]) := by decide

/-- R114: look up, then advance; the last index wraps. -/
theorem test_pcm_step :
    after (exec (.pcmStep .L [0, 255, 128, 64]) (leftPcm ⟨192, 3, 8223⟩ 0)) (fun s => (s.left.pcmosc, s.left.blip)) =
      some (⟨192, 0, 4111⟩, zoh 0 [0, 0, 0, 0, 0, 0, -4112, 0]) := by decide

/-- R104's example, at the time 105 of V30. -/
theorem test_update_amp :
    after (exec (.updateAmp (.chan .L 0) 0) (leftOscs [⟨105, 16, 16383⟩] (zoh 0 (List.replicate 8 0))))
      (fun s => (s.left.osc, s.left.blip)) = some ([⟨105, 16, 0⟩], zoh 0 [0, 0, 0, -16383, 0, 0, 0, 0]) := by decide

/-- V26: the edges of the bins. -/
theorem test_add_delta :
    after (exec (.blipAddDelta .L 31 100) fresh) (fun s => s.left.blip) = some (zoh 0 [100, 0, 0, 0, 0, 0, 0, 0]) ∧
    after (exec (.blipAddDelta .R 255 (-30)) fresh) (fun s => s.right.blip) = some (zoh 0 [0, 0, 0, 0, 0, 0, 0, -30]) ∧
    (zohBin refCfg 47, zohBin refCfg 48, zohBin refCfg 34815) = (0, 1, 734) := by decide

/-- V26: deltas (0, +100), (40, -30), (33, +5) give 100, 75, ...; a level of 40000 saturates and is kept. -/
theorem test_read_out :
    after (exec (.blipReadOut .L 8) (leftOscs [] (zoh 0 [100, -25, 0, 0, 0, 0, 0, 0]))) (fun s => (s.left.out, s.left.blip)) =
      some (samples [100, 75, 75, 75, 75, 75, 75, 75], zoh 75 [0, 0, 0, 0, 0, 0, 0, 0]) ∧
    after (exec (.blipReadOut .L 8) (leftOscs [] (zoh 40000 [0, 0, 0, 0, 0, 0, 0, 0]))) (fun s => (s.left.out.getD 7 0, s.left.blip)) =
      some (32767, zoh 40000 [0, 0, 0, 0, 0, 0, 0, 0]) := by decide

/-! ### The step -/

/-- A word placed with `withFetchWord` is what the next step runs, from reset. -/
theorem test_step_runs_placed_word :
    after (step (fresh.withFetchWord 2 1)) (fun s => (s.head, s.inputs)) = some (1, []) ∧
    after (step (fresh.withFetchWord 3 1)) (fun s => (s.frames.length, s.busy)) = some (1, false) ∧
    after (step (fresh.withFetchWord 3 3)) (fun s => (s.frames.length, s.busy)) = some (0, true) := by decide

/-- The two colors of noise run as the first operation after reset, in the reference configuration. -/
theorem test_step_runs_register_words :
    after (step (State.reset.withFetchWord 144 0)) (fun s => s.left.osc.getD 0 ⟨0, 0, 0⟩) = some ⟨2048, 96, 0⟩ ∧
    after (step (State.reset.withFetchWord 1 1)) (fun s => s.head) = some 0 := by decide

/-! ### Witnesses: for each statement with hypotheses, a state and operands that meet all of them -/

/-- The result is a next state. -/
def completes (r : Result) : Bool := (after r fun _ => ()).isSome

/-- TESTCFG with a PCM buffer of six 4-bit samples, a ring of 6, three channels, and a longest period over one frame. -/
def cfg4 : Cfg := { testCfg with pcmBits := 4, ringLen := 6, maxPeriod := 600, pcmLen := 6, ch := 3 }

/-- TESTCFG with an accumulator other than ZOH. -/
def cfgX : Cfg := { testCfg with blip := .external }

/-- A channel at the last tick of the frame. -/
def lastTick : State := leftOscs [⟨255, 31, 16383⟩, ⟨0, 0x7FFF, 0⟩] (zoh 16383 (List.replicate 8 0))

/-- A channel, and the PCM sub-channel, one tick past the frame. -/
def pastFrame : State :=
  { fresh with left := { fresh.left with osc := [⟨256, 0, 0⟩, ⟨256, 0, 0⟩], pcmosc := ⟨256, 3, 0⟩ } }

theorem witness_DecodeOfEncode :
    Instr.wf testCfg (.toneRun ⟨.R, 1, 15⟩ ⟨(flat 15).set 31 14, 4095, 15⟩) = true ∧
    Instr.wf testCfg (.noiseRun0 ⟨.L, 1, 15⟩ 4095 15) = true ∧ Instr.wf testCfg (.noiseRun1 ⟨.L, 1, 0⟩ 0 0) = true ∧
    Instr.wf testCfg (.push snapT4) = true ∧ Instr.wf testCfg (.synthSide .R snapT3) = true ∧
    Instr.wf testCfg (.syncHead (.value 3)) = true ∧ Instr.wf testCfg (.pcmRun .L (ones 4)) = true ∧
    Instr.wf cfg4 (.pcmStep .R [15, 0, 15, 0, 15, 0]) = true ∧ Instr.wf testCfg (.updateAmp (.chan .R 1) 16383) = true ∧
    Instr.wf testCfg (.blipAddDelta .R 255 (-16383)) = true ∧ Instr.wf testCfg (.blipReadOut .R 8) = true := by decide

theorem witness_EncodeOfDecodedRegisterWord :
    decode testCfg (.reg ⟨.R, 1, 15⟩ 0#144) = .op (.noiseRun0 ⟨.R, 1, 15⟩ 0 0) ∧
    decode testCfg (.reg ⟨.R, 1, 15⟩ (BitVec.allOnes 144)) = .op (.noiseRun1 ⟨.R, 1, 15⟩ 4095 15) ∧
    decode testCfg (.reg ⟨.L, 0, 0⟩ 0x10000#144) = .op (.toneRun ⟨.L, 0, 0⟩ ⟨(flat 0).set 0 1, 0, 0⟩) := by decide

theorem witness_RegisterFieldsFromBytes : (snapT2.take 18).length = 18 ∧ (0 < 32 ∧ 31 < 32) := by decide

theorem witness_RegisterWordLayout : (snapT1.take 18).length = 18 ∧ (0 < 32 ∧ 31 < 32) := by decide

theorem witness_SnapshotRoundTrip :
    (testCfg.wf = true ∧ snapT3.length = testCfg.snapBytes) ∧ (cfg4.wf = true ∧ (ones 60).length = cfg4.snapBytes) ∧
    ((⟨[⟨square, 4095, 15⟩, ⟨flat 15, 0, 0⟩], [⟨15, 0⟩, ⟨0, 15⟩], ones 4⟩ : Snapshot).reg.length = testCfg.ch ∧
      (⟨[⟨square, 4095, 15⟩, ⟨flat 15, 0, 0⟩], [⟨15, 0⟩, ⟨0, 15⟩], ones 4⟩ : Snapshot).stereo.length = testCfg.ch ∧
      pcmWf testCfg (ones 4) = true) ∧
    pcmWf cfg4 [15, 0, 15, 0, 15, 0] = true ∧
    (0 < cfg4.ch ∧ 2 < cfg4.ch) ∧ (0 < cfg4.pcmLen ∧ 5 < cfg4.pcmLen) ∧ (1 < testCfg.ch ∧ 3 < testCfg.pcmLen) := by decide

theorem witness_GeneratorSelect : noise ⟨flat 0, 0, 0⟩ = true ∧ noise ⟨flat 15, 0, 0⟩ = true ∧ (0 < 32 ∧ 31 < 32) := by
  decide

theorem witness_PortValuesDecode : snapT1.length = testCfg.snapBytes := by decide

/-- A state with one input. -/
def asked (inp : Input) : State := { fresh with inputs := [inp] }

theorem witness_StepRunsDecodedOperation :
    fresh.cfg.wf = true ∧ (asked (.pport 1 snapT4)).inputs = .pport 1 snapT4 :: [] ∧
    decode testCfg (withBusy false (.pport 1 snapT4)) = .op (.push snapT4) := by decide

theorem witness_StepWithoutOperation :
    (fresh.cfg.wf = true ∧ fresh.inputs = []) ∧
    ((asked (.sys 0)).inputs = .sys 0 :: [] ∧ decode testCfg (withBusy false (.sys 0)) = .noOperation) ∧
    ((asked (.cport 1)).inputs = .cport 1 :: [] ∧ decode testCfg (withBusy true (.cport 1)) = .ignored) ∧
    ((asked (.internal .render)).inputs = .internal .render :: [] ∧
      decode testCfg (withBusy false (.internal .render)) = .reject .needsWord) ∧
    (State.resetWith { testCfg with ringLen := 5 }).cfg.wf = false := by decide

theorem witness_RenderWhileBusyIgnored :
    let s := { asked (.cport 0b011) with busy := true }
    s.cfg.wf = true ∧ s.busy = true ∧ (0b011#3).getLsbD 0 = true ∧ (0b011#3).getLsbD 2 = false ∧
      s.inputs = .cport 0b011 :: [] := by decide

theorem witness_ResetValues : (ring 2 1 2 0).cfg.wf = true ∧ (ring 2 1 2 0).cfg.blip = .zoh := by decide

theorem witness_ResetStateIsGood : testCfg.wf = true ∧ cfg4.wf = true ∧ cfgX.wf = true ∧ (ring 2 1 2 0).cfg = testCfg := by
  decide

/-- Invariant and step together: an idle step, and a push on a full ring. -/
theorem witness_EveryStepKeepsInvariant :
    (fresh.Inv ∧ step fresh = .next fresh) ∧
    ({ ring 2 0 0 0 with inputs := [.pport 1 snapT4] } : State).Inv ∧
    completes (step { ring 2 0 0 0 with inputs := [.pport 1 snapT4] }) = true :=
  ⟨⟨by decide, rfl⟩, by decide⟩

theorem witness_EveryOperationKeepsRingInvariant :
    (ring 2 0 2 0).cfg.wf = true ∧ (ring 2 0 2 0).RingInv ∧ exec .rtAdvance (ring 2 0 2 0) = .next (ring 2 1 2 0) :=
  ⟨by decide, by decide, rfl⟩

/-- At the largest distance, with the views at both ends. -/
theorem witness_SlotExclusivity :
    (ring 2 0 0 0).RingInv ∧ (ring 1 3 1 3).RingInv ∧ (ring 0 0 0 2).RingInv ∧ testCfg.wf = true ∧
    (0 < testCfg.snapBytes ∧ 41 < testCfg.snapBytes) := by decide

theorem witness_ConfigurationIsStatic :
    exec .reset (ring 2 1 2 0) = .next fresh ∧ step fresh = .next fresh := ⟨rfl, rfl⟩

theorem witness_NothingFaults : (ring 1 3 1 3).cfg.wf = true ∧ (ring 1 3 1 3).RingInv := by decide

/-- One operation for each clause. -/
theorem witness_OwnershipByDomain :
    completes (exec (.push snapT4) fresh) = true ∧ exec .rtAdvance (ring 1 0 1 0) = .next (ring 1 1 1 0) ∧
    exec (.syncHead .current) (ring 1 0 0 0) = .next (ring 1 0 1 0) ∧
    exec (.syncTail .current) (ring 1 1 1 0) = .next (ring 1 1 1 1) ∧ completes (exec .rtSelect fresh) = true ∧
    completes (exec .render fresh) = true := ⟨by decide, rfl, rfl, rfl, by decide⟩

theorem witness_TraceOperationsKeepSoundInvariant :
    (ring 1 0 0 0).Inv ∧ (ring 1 0 0 0).SoundInv ∧ inTrace (.syncHead .current) = true ∧
    exec (.syncHead .current) (ring 1 0 0 0) = .next (ring 1 0 1 0) ∧ inTrace .render = true ∧
    completes (exec .render (ring 1 0 1 0)) = true :=
  ⟨by decide, by decide, rfl, rfl, by decide⟩

/-- Full, and at the wrap. -/
theorem witness_PushWritesSlotAndAdvances :
    ((ring 2 0 0 0).cfg.wf = true ∧ (ring 2 0 0 0).MemInv ∧ (ring 2 0 0 0).RingInv) ∧
    ((ring 3 2 3 2).MemInv ∧ (ring 3 2 3 2).RingInv) ∧ snapT4.length = testCfg.snapBytes ∧ 41 < testCfg.snapBytes := by decide

theorem witness_PushIsRenderedByTheNextRenderButOne :
    testCfg.wf = true ∧ ∀ x ∈ [snapT1, snapT2], x.length = testCfg.snapBytes := by decide

theorem witness_SelectReadsSlotBehindTail :
    (ring 0 0 0 0).cfg.wf = true ∧ (ring 0 0 0 0).RingInv ∧ (ring 1 3 1 3).RingInv ∧ 41 < testCfg.snapBytes := by decide

/-- Each clause at both ends of its range, over the wrap: from 3 to 1, the values 3, 0 and 1 are allowed, 2 and 4 not. -/
theorem witness_SyncHeadReachesExactlyTheRange :
    (ring 1 3 3 3).cfg.wf = true ∧ (ring 1 3 3 3).RingInv ∧
    (0 ≤ ringDist 4 3 1 ∧ 3 = (3 + 0) % 4) ∧ (2 ≤ ringDist 4 3 1 ∧ 1 = (3 + 2) % 4) ∧
    (∀ j, j < 3 → 2 ≠ (3 + j) % 4) ∧ (∀ j, j < 3 → 4 ≠ (3 + j) % 4) ∧ ringDist 4 3 1 = 2 := by decide

/-- The same for `tail_seen`. -/
theorem witness_SyncTailReachesExactlyTheRange :
    (ring 1 1 1 3).cfg.wf = true ∧ (ring 1 1 1 3).RingInv ∧
    (0 ≤ ringDist 4 3 1 ∧ 3 = (3 + 0) % 4) ∧ (2 ≤ ringDist 4 3 1 ∧ 1 = (3 + 2) % 4) ∧
    (∀ j, j < 3 → 2 ≠ (3 + j) % 4) ∧ (∀ j, j < 3 → 4 ≠ (3 + j) % 4) ∧ ringDist 4 3 1 = 2 := by decide

theorem witness_FullRingKeepsOnlyTheLastPush :
    (ring 2 0 0 0).cfg.wf = true ∧ (ring 2 0 0 0).MemInv ∧ (ring 2 0 0 0).RingInv ∧ full 4 2 0 = true ∧
    snapT3.length = testCfg.snapBytes ∧ snapT4.length = testCfg.snapBytes := by decide

theorem witness_EmptyRingReselectsTheSameSnapshot :
    (ring 3 3 3 3).Inv ∧ (ring 3 3 3 3).busy = false ∧ (ring 3 3 3 3).tail = (ring 3 3 3 3).headSeen ∧
    snapT1.length = testCfg.snapBytes := by decide

theorem witness_PushAndRenderCommute :
    (ring 2 0 2 0).Inv ∧ ({ ring 2 0 2 0 with busy := true } : State).Inv ∧ snapT1.length = testCfg.snapBytes := by decide

/-- A power of two, and a length that is none. -/
theorem witness_GrayStepChangesOneBit :
    (4 ≤ 4 ∧ 4 % 2 = 0 ∧ 3 < 4 ∧ gray 4 3 = gray 4 3) ∧ (4 ≤ 6 ∧ 6 % 2 = 0 ∧ 5 < 6) ∧ (2 ≤ 2 ∧ 3 < 2 ^ 2) := by decide

theorem witness_UngrayInvertsGray : (4 ≤ 4 ∧ 4 % 2 = 0 ∧ 3 < 4) ∧ (4 ≤ 12 ∧ 12 % 2 = 0 ∧ 11 < 12) := by decide

/-- The stages at 3, 0, 1 on a ring of 4, over the wrap; and all three at one index. -/
theorem witness_CrossingStaysWithinTheSyncRange :
    (4 ≤ 4 ∧ 4 % 2 = 0 ∧ 3 < 4 ∧ 0 < 4 ∧ 1 < 4 ∧ ringDist 4 3 0 + ringDist 4 0 1 = ringDist 4 3 1) ∧
    ringDist 6 5 5 + ringDist 6 5 5 = ringDist 6 5 5 := by decide

theorem witness_PeriodFormula : refCfg.wf = true ∧ testCfg.wf = true ∧ 0 < 1 := by decide

theorem witness_AmplitudeFormulasAndBounds :
    refCfg.wf = true ∧ (15 ≤ 15 ∧ 0 ≤ 15) ∧ (0 = 0 ∨ 15 = 0) ∧ 255 < 2 ^ refCfg.pcmBits ∧ 15 < 2 ^ cfg4.pcmBits := by
  decide

theorem witness_UpdateAmpSubmitsTheChange :
    (blipWf testCfg lastTick.left.blip = true ∧ lastTick.left.osc? (.chan .L 0) = some ⟨255, 31, 16383⟩ ∧
      255 < testCfg.endTime) ∧
    (blipWf testCfg fresh.right.blip = true ∧ fresh.right.osc? (.pcm .R) = some ⟨0, 0, 0⟩ ∧ 0 < testCfg.endTime) := by decide

theorem witness_ToneStepAdvancesThenLooksUp :
    blipWf testCfg lastTick.left.blip = true ∧ lastTick.left.osc[0]? = some ⟨255, 31, 16383⟩ ∧ 255 < testCfg.endTime := by
  decide

theorem witness_NoiseStepShiftsThenTestsTheNewBit :
    blipWf testCfg lastTick.left.blip = true ∧ lastTick.left.osc[1]? = some ⟨0, 0x7FFF, 0⟩ ∧ 0 < testCfg.endTime := by decide

theorem witness_PcmStepLooksUpThenAdvances :
    let s := leftPcm ⟨255, 3, 8223⟩ 8223
    blipWf s.cfg s.left.blip = true ∧ (ones 4).length = s.cfg.pcmLen ∧ s.left.pcmosc.time < s.cfg.endTime := by decide

/-- One state or operand for each clause. -/
theorem witness_OperandsOutsideTheContractAreRefused :
    (pastFrame.left.osc[1]? = some ⟨256, 0, 0⟩ ∧ testCfg.endTime ≤ 256) ∧
    (testCfg.endTime ≤ pastFrame.left.pcmosc.time ∧ (ones 4).length = testCfg.pcmLen) ∧
    fresh.left.osc.length ≤ 2 ∧ ((zeros 41).length ≠ testCfg.snapBytes ∧ (zeros 43).length ≠ testCfg.snapBytes) ∧
    (zeros 3).length ≠ testCfg.pcmLen := by decide

/-- From reset (37 steps), from the last tick (1 step), and from past the frame (none). -/
theorem witness_ToneRunResult :
    (testCfg.wf = true ∧ blipWf testCfg fresh.left.blip = true ∧ fresh.left.osc[0]? = some ⟨0, 0, 0⟩ ∧
      37 = stepsIn testCfg (tonePeriod testCfg 64) 0) ∧
    (blipWf testCfg lastTick.left.blip = true ∧ lastTick.left.osc[0]? = some ⟨255, 31, 16383⟩ ∧
      1 = stepsIn testCfg (tonePeriod testCfg 0) 255) ∧
    (blipWf testCfg pastFrame.left.blip = true ∧ pastFrame.left.osc[1]? = some ⟨256, 0, 0⟩ ∧
      0 = stepsIn testCfg (tonePeriod testCfg 64) 256) := by decide

/-- The amplitudes `amp` of ToneRunResult, NoiseRunResult and PcmRunResult can be written down. -/
theorem witness_ToneRunResult_amp :
    ∃ amp : Nat → Nat, ∀ k, amp k = if k = 0 then 0 else toneAmp testCfg ⟨square, 64, 15⟩ 15 ((0 + k) % 32) := ⟨_, fun _ => rfl⟩

/-- For both colors: the statement's hypotheses do not name the color but in `amp`. -/
theorem witness_NoiseRunResult :
    (testCfg.wf = true ∧ blipWf testCfg fresh.left.blip = true ∧ fresh.left.osc[1]? = some ⟨0, 0, 0⟩ ∧
      8 = stepsIn testCfg (noisePeriod testCfg 31) 0) ∧
    (lastTick.left.osc[1]? = some ⟨0, 0x7FFF, 0⟩ ∧ blipWf testCfg lastTick.left.blip = true) ∧
    (pastFrame.left.osc[0]? = some ⟨256, 0, 0⟩ ∧ 0 = stepsIn testCfg (noisePeriod testCfg 31) 256) := by decide

theorem witness_NoiseRunResult_amp :
    ∃ amp : Nat → Nat, ∀ k, amp k = if k = 0 then 0 else
      noiseAmp testCfg 15 15 ((lfsrStep (noiseFb testCfg .one))^[k] (if (0 : Nat) = 0 then 1 else 0)) := ⟨_, fun _ => rfl⟩

theorem witness_PcmRunResult :
    (testCfg.wf = true ∧ blipWf testCfg fresh.left.blip = true ∧ (⟨0, 0, 0⟩ : Osc) = fresh.left.pcmosc ∧ 0 < testCfg.pcmLen ∧
      [0, 255, 128, 64].length = testCfg.pcmLen ∧ 4 = stepsIn testCfg testCfg.pcmPeriod 0) ∧
    ((⟨256, 3, 0⟩ : Osc) = pastFrame.left.pcmosc ∧ 3 < testCfg.pcmLen ∧
      0 = stepsIn testCfg testCfg.pcmPeriod 256) := by decide

theorem witness_PcmRunResult_amp :
    ∃ amp : Nat → Nat, ∀ k, amp k = if k = 0 then 0 else
      pcmAmp testCfg (([0, 255, 128, 64] : List Byte).getD ((0 + k - 1) % 4) 0).toNat := ⟨_, fun _ => rfl⟩

theorem witness_RunsCarryTheirTime :
    testCfg.wf = true ∧ cfg4.wf = true ∧ (0 < testCfg.endTime ∧ 255 < testCfg.endTime) := by decide

/-- A ZOH side at its last tick, a side with another accumulator, and a PCM index at its last value; the amplitudes `amp`
can be written down, as for the three run results. -/
theorem witness_RunsSubmitInsideTheFrame :
    (testCfg.wf = true ∧ blipWf testCfg lastTick.left.blip = true) ∧
    (cfgX.wf = true ∧ blipWf cfgX (.external [[(0, 5)]] [(3, -5), (255, 1)]) = true) ∧
    ((⟨255, 3, 0⟩ : Osc).phase < testCfg.pcmLen ∧ (⟨0, 0, 0⟩ : Osc).phase < testCfg.pcmLen) ∧
    runDeltas 64 0 (fun k => [0, 0, 16383, 8223, 4111].getD k 0) 4 = [(0, 0), (64, 16383), (128, -8160), (192, -4112)] := by
  decide

theorem witness_LfsrNeverZero :
    (noiseFb { testCfg with noiseFb1 := 0x0100 } .one).testBit (testCfg.lfsrBits - 1) = false ∧ testCfg.wf = true ∧
    (0 < 2 ^ testCfg.lfsrBits ∧ 0x7FFF < 2 ^ testCfg.lfsrBits ∧ 0x7FFF ≠ 0) ∧
    (lfsrStep (noiseFb testCfg .zero) 5 = lfsrStep (noiseFb testCfg .zero) 5) ∧
    (⟨⟨0, 0, 0⟩, fresh.left.blip⟩ : Voice).osc.phase = 0 := by decide

/-- Both kinds of accumulator, and the first and last tick of a frame. -/
theorem witness_AccumulatorIgnoresOrder :
    testCfg.wf = true ∧ cfgX.wf = true ∧
    blipWf testCfg (zoh 5 [0, 0, 0, 7, 0, 0, 0, 0]) = true ∧ blipWf cfgX (.external [[(0, 5)]] [(3, -5), (255, 1)]) = true ∧
    (0 < testCfg.endTime ∧ 255 < testCfg.endTime) := by decide

theorem witness_AccumulatorLengthAndSilence :
    testCfg.wf = true ∧ cfgX.wf = true ∧
    ∀ t d, some (t, d) ∈ [(some (255, 0) : BlipCall), none, some (0, 0)] → d = 0 ∧ t < testCfg.endTime := by
  refine ⟨by decide, by decide, ?_⟩
  intro t d h
  have h : (t = 255 ∧ d = 0) ∨ (t = 0 ∧ d = 0) := by simpa using h
  obtain ⟨rfl, rfl⟩ | ⟨rfl, rfl⟩ := h <;> decide

theorem witness_AccumulatorSettlesAtTheSum :
    (testCfg.wf = true ∧ blipWf testCfg (zoh 40000 [0, 0, 0, 7, 0, 0, 0, 0]) = true) ∧
    (cfgX.wf = true ∧ blipWf cfgX (.external [[(0, 5)]] [(3, -5), (255, 1)]) = true) := by decide

theorem witness_ZeroOrderHold :
    testCfg.wf = true ∧ [0, 0, 0, 7, 0, 0, 0, 0].length = testCfg.samplesPerFrame ∧
    (0 < testCfg.endTime ∧ 255 < testCfg.endTime) ∧ (0 < testCfg.samplesPerFrame ∧ 7 < testCfg.samplesPerFrame) := by decide

theorem witness_AccumulatorCalls :
    (0 < fresh.cfg.endTime ∧ 255 < fresh.cfg.endTime) ∧ (7 ≠ fresh.cfg.samplesPerFrame ∧ 9 ≠ fresh.cfg.samplesPerFrame) := by
  decide

theorem witness_SynthSideRunsEveryGenerator :
    fresh.cfg.wf = true ∧ snapT2.length = fresh.cfg.snapBytes ∧ fresh.right.osc.length = fresh.cfg.ch ∧
    fresh.right.osc[0]? = some ⟨0, 0, 0⟩ ∧ fresh.right.osc[1]? = some ⟨0, 0, 0⟩ ∧
    genSelect (registerOfBytes ((snapT2.drop 0).take 18)) = .tone ∧
    genSelect (registerOfBytes ((snapT2.drop 18).take 18)) = .noise .zero := by decide

/-- The run a Register selects can be written down. -/
theorem witness_SynthSideRunsEveryGenerator_run :
    ∃ run : Voice → Voice, ∀ v, run v = match genSelect ⟨saw, 32, 8⟩ with
      | .tone => toneRun testCfg ⟨saw, 32, 8⟩ 15 v
      | .noise col => noiseRun testCfg col 32 8 15 v := ⟨_, fun _ => rfl⟩

theorem witness_SidesAreIndependent :
    snapT2.length = fresh.cfg.snapBytes ∧ snapT3.length = fresh.cfg.snapBytes ∧
    completes (exec (.synthSide .L snapT2) fresh) = true ∧ completes (exec (.synthSide .R snapT3) fresh) = true := by decide

theorem witness_ChannelOrderCannotBeObserved :
    (testCfg.wf = true ∧ blipWf testCfg fresh.left.blip = true) ∧
    (cfgX.wf = true ∧ blipWf cfgX (.external [[(0, 5)]] [(3, -5), (255, 1)]) = true) := by decide

theorem witness_RenderIsItsMicroOperations :
    ((ring 0 0 0 0).Inv ∧ (ring 0 0 0 0).busy = false) ∧ (ring 1 3 1 3).Inv := by decide

theorem witness_RenderReturnsOneFrame : (ring 1 3 0 3).Inv ∧ (ring 1 3 0 3).busy = false ∧ (ring 3 3 3 3).Inv := by decide

/-- Two states that differ in all the producer holds, and in the slots the render does not select. -/
theorem witness_RenderReadsOnlyTheConsumersState :
    let s₁ := fresh
    let s₂ := { ring 2 0 0 0 with mem := [(0, 7), (125, 9)] }
    s₁.cfg = s₂.cfg ∧ s₁.tail = s₂.tail ∧ s₁.headSeen = s₂.headSeen ∧ s₁.left = s₂.left ∧ s₁.right = s₂.right ∧
      s₁.busy = s₂.busy ∧ s₁.selected = s₂.selected ∧ completes (exec .render s₁) = true := by decide

theorem witness_FirstRenderIsSilent :
    testCfg.wf = true ∧ (∀ i ∈ [Instr.push snapT1, .syncHead .current, .push snapT4], beforeRender i = true) ∧
    completes (runTrace [.push snapT1, .syncHead .current, .push snapT4] (State.resetWith testCfg)) = true := by decide

theorem witness_FrameIsInterleavedLeftFirst :
    let f : Frame := ⟨samples [16383, -2], samples [8737, 0]⟩
    f.left.length = f.right.length ∧ 0 < f.left.length ∧ 1 < f.left.length := by decide

theorem witness_PseudoOperationsExpand :
    (ring 1 3 1 3).cfg.wf = true ∧ (ring 1 3 1 3).RingInv ∧ snapT1.length = testCfg.snapBytes ∧
    (7 ≠ testCfg.samplesPerFrame ∧ 9 ≠ testCfg.samplesPerFrame) := by decide

/-- One operation for each alternative. -/
theorem witness_GeneratorFrame :
    (completes (exec (.toneRun ⟨.L, 1, 15⟩ ⟨square, 64, 15⟩) fresh) = true ∧
      completes (exec (.toneStep ⟨.L, 0, 15⟩ ⟨square, 64, 15⟩) lastTick) = true ∧
      completes (exec (.noiseRun0 ⟨.R, 1, 15⟩ 31 15) fresh) = true ∧
      completes (exec (.noiseRun1 ⟨.R, 1, 15⟩ 31 15) fresh) = true ∧
      completes (exec (.noiseStep ⟨.L, 0, 15⟩ .one 15) lastTick) = true ∧
      completes (exec (.updateAmp (.chan .L 0) 0) lastTick) = true) ∧
    (completes (exec (.pcmRun .R (ones 4)) fresh) = true ∧ completes (exec (.pcmStep .R (ones 4)) fresh) = true ∧
      completes (exec (.updateAmp (.pcm .R) 5) fresh) = true) ∧
    (completes (exec (.synthSide .R snapT2) fresh) = true ∧ completes (exec (.blipReadOut .L 8) fresh) = true ∧
      completes (exec (.blipAddDelta .L 255 1) fresh) = true) := by decide

end Sys2Proof.Tests
end

section
/-! PROOFS of the scope family: a step that runs no operation, and operands outside a stated contract (spec/00_scope.md R3,
R5; log entries 3 and 16). -/

namespace Sys2Proof.Machine

/-! ### Steps that run no operation -/

theorem fetch_of_inputs_nil {s : State} (h : s.inputs = []) : fetch s = none := by simp only [fetch, h]

theorem fetch_of_inputs_cons {s : State} {inp : Input} {rest : List Input} (h : s.inputs = inp :: rest) :
    fetch s = some (decode s.cfg (withBusy s.busy inp), { s with inputs := rest }) :=
  fetch_eq_some.mpr ⟨inp, rest, h, rfl, rfl⟩

theorem step_of_not_wf {s : State} (hc : s.cfg.wf = false) : step s = .refused .configNotWellFormed := by
  simp [step, hc]

theorem step_of_inputs_nil {s : State} (hc : s.cfg.wf = true) (h : s.inputs = []) : step s = .next s := by
  simp [step, hc, fetch_of_inputs_nil h]

/-- A strobe at 0 and an ignored request both only use up the input (R61, R183). -/
theorem step_of_no_request {s : State} {inp : Input} {rest : List Input} (hc : s.cfg.wf = true)
    (hi : s.inputs = inp :: rest)
    (hd : decode s.cfg (withBusy s.busy inp) = .noOperation ∨ decode s.cfg (withBusy s.busy inp) = .ignored) :
    step s = .next { s with inputs := rest } := by
  rcases hd with hd | hd
  · simp [step, hc, fetch_of_inputs_cons hi, hd]
  · simp [step, hc, fetch_of_inputs_cons hi, hd]

theorem step_of_decode_reject {s : State} {inp : Input} {rest : List Input} {r : Reject} (hc : s.cfg.wf = true)
    (hi : s.inputs = inp :: rest) (hd : decode s.cfg (withBusy s.busy inp) = .reject r) :
    step s = .refused (.rejected r) := by
  simp [step, hc, fetch_of_inputs_cons hi, hd]

/-- Settles O10: one lemma about `step` for each way to run no operation. -/
theorem stepWithoutOperation : Obligations.StepWithoutOperation :=
  ⟨fun _ hc hi => step_of_inputs_nil hc hi,
    fun _ _ _ hc hi => ⟨step_of_no_request hc hi, fun _ hd => step_of_decode_reject hc hi hd⟩,
    fun _ hc => step_of_not_wf hc⟩

/-! ### Operands outside a contract -/

theorem onVoice_of_osc?_none {id : OscId} {s : State} (h : (s.side (oscSide id)).osc? id = none) (f : Voice → Voice) :
    onVoice id f s = .refused .noSuchChannel := by
  simp only [onVoice, h]

theorem onVoiceInFrame_of_osc?_none {id : OscId} {s : State} (h : (s.side (oscSide id)).osc? id = none)
    (f : Voice → Voice) : onVoiceInFrame id f s = .refused .noSuchChannel := by
  simp only [onVoiceInFrame, h]

/-- A generator step is issued only before the end of the frame (R121). -/
theorem onVoiceInFrame_of_endTime_le {id : OscId} {s : State} {o : Osc} (h : (s.side (oscSide id)).osc? id = some o)
    (ht : s.cfg.endTime ≤ o.time) (f : Voice → Voice) : onVoiceInFrame id f s = .refused .timeOutsideFrame := by
  simp only [onVoiceInFrame, h, if_neg (Nat.not_lt.mpr ht)]

theorem execBlipAddDelta_of_endTime_le {s : State} {t : Nat} (ht : s.cfg.endTime ≤ t) (side : Side) (d : Int) :
    execBlipAddDelta side t d s = .refused .timeOutsideFrame := if_neg (Nat.not_lt.mpr ht)

theorem execPcmStep_of_length_eq {s : State} {pcm : List Byte} (h : pcm.length = s.cfg.pcmLen) (side : Side) :
    execPcmStep side pcm s = onVoiceInFrame (.pcm side) (pcmStep s.cfg pcm) s := if_pos h

theorem execPcmStep_of_length_ne {s : State} {pcm : List Byte} (h : pcm.length ≠ s.cfg.pcmLen) (side : Side) :
    execPcmStep side pcm s = .refused .pcmSize := if_neg h

theorem execPcmRun_of_length_ne {s : State} {pcm : List Byte} (h : pcm.length ≠ s.cfg.pcmLen) (side : Side) :
    execPcmRun side pcm s = .refused .pcmSize := if_neg h

theorem execPush_of_length_ne {s : State} {snap : List Byte} (h : snap.length ≠ s.cfg.snapBytes) :
    execPush snap s = .refused .snapshotSize := if_neg h

theorem execSynthSide_of_length_ne {s : State} {cur : List Byte} (h : cur.length ≠ s.cfg.snapBytes) (side : Side) :
    execSynthSide side cur s = .refused .snapshotSize := if_neg h

/-- Settles O39: what `onVoice` and `onVoiceInFrame` refuse, for the generators, and the operand checks of the others. -/
theorem operandsOutsideTheContractAreRefused : Obligations.OperandsOutsideTheContractAreRefused := by
  refine ⟨fun s g o ho ht => ?chanLate, fun s side ht => ?pcmLate,
    fun s side t d ht => execBlipAddDelta_of_endTime_le ht side d, fun s g hch => ?noChannel,
    fun s side b hb => ⟨execPush_of_length_ne hb, execSynthSide_of_length_ne hb side⟩,
    fun s side pcm hp => ⟨execPcmRun_of_length_ne hp side, execPcmStep_of_length_ne hp side⟩⟩
  case chanLate =>
    have late (f : Voice → Voice) : onVoiceInFrame (.chan g.side g.ch) f s = .refused .timeOutsideFrame :=
      onVoiceInFrame_of_endTime_le (id := .chan g.side g.ch) ho ht f
    exact ⟨fun _ => late _, fun _ _ => late _, fun _ => late _⟩
  case pcmLate =>
    have late (f : Voice → Voice) : onVoiceInFrame (.pcm side) f s = .refused .timeOutsideFrame :=
      onVoiceInFrame_of_endTime_le (id := .pcm side) rfl ht f
    exact ⟨fun _ hp => (execPcmStep_of_length_eq hp side).trans (late _), fun _ => late _⟩
  case noChannel =>
    have absent : (s.side g.side).osc? (.chan g.side g.ch) = none := List.getElem?_eq_none hch
    have runRefused (f : Voice → Voice) : onVoice (.chan g.side g.ch) f s = .refused .noSuchChannel :=
      onVoice_of_osc?_none absent f
    have stepRefused (f : Voice → Voice) : onVoiceInFrame (.chan g.side g.ch) f s = .refused .noSuchChannel :=
      onVoiceInFrame_of_osc?_none absent f
    exact ⟨fun _ => ⟨stepRefused _, runRefused _⟩, fun _ _ => stepRefused _, fun _ => stepRefused _,
      fun _ _ => ⟨runRefused _, runRefused _⟩⟩

end Sys2Proof.Machine
end

section
/-! PROOFS of the state family, 1: the ring's distances (spec/10_state.md R29) and the gray code's inverse
(spec/40_ring_buffer.md R90, R91), with the synchroniser built on it (R92). -/

namespace Sys2Proof.Machine

/-! ### Distances round the ring -/

theorem ringDist_self {n : Nat} (a : Nat) : ringDist n a a = 0 := by
  simp [ringDist]

/-- Going on from `b` after coming from `a`, less than once round in all, is going from `a`. -/
theorem ringDist_add_ringDist {n a b c : Nat} (ha : a < n) (hb : b < n) (hc : c < n)
    (h : ringDist n a b + ringDist n b c < n) : ringDist n a b + ringDist n b c = ringDist n a c := by
  rw [ringDist_eq ha hb, ringDist_eq hb hc] at *
  rw [ringDist_eq ha hc]
  split_ifs at * <;> omega

/-- Moving the start of a way forward along it shortens the way. -/
theorem ringDist_move_start {n a b j : Nat} (ha : a < n) (hb : b < n) (hj : j ≤ ringDist n a b) :
    ringDist n ((a + j) % n) b = ringDist n a b - j := by
  have hjn : j < n := Nat.lt_of_le_of_lt hj (ringDist_lt (by omega) a b)
  have hm : (a + j) % n < n := Nat.mod_lt _ (by omega)
  rw [ringDist_eq ha hb] at *
  rw [ringDist_eq hm hb, add_mod_eq ha hjn]
  split_ifs at * <;> omega

/-- Moving the end of a way forward, less than once round in all, lengthens the way. -/
theorem ringDist_move_end {n a b j : Nat} (ha : a < n) (hb : b < n) (hj : ringDist n a b + j < n) :
    ringDist n a ((b + j) % n) = ringDist n a b + j := by
  have hm : (b + j) % n < n := Nat.mod_lt _ (by omega)
  rw [ringDist_eq ha hb] at *
  rw [ringDist_eq ha hm, add_mod_eq hb (by omega)]
  split_ifs at * <;> omega

/-- Walking the distance from `a` to `b` ends at `b`. -/
theorem add_ringDist_mod {n a b : Nat} (ha : a < n) (hb : b < n) : (a + ringDist n a b) % n = b := by
  rw [add_mod_eq ha (ringDist_lt (by omega) a b), ringDist_eq ha hb]
  split_ifs <;> omega

/-- The index two behind `b` lies `n - 2` ahead of it: the producer's `full` (R82) as a distance. -/
theorem eq_back2_of_ringDist {n a b : Nat} (ha : a < n) (hb : b < n) (hn : 2 ≤ n) (h : ringDist n a b = n - 2) :
    b = back2 n a := by
  rw [ringDist_eq ha hb] at h
  rw [back2_eq ha hn]
  split_ifs at * <;> omega

/-! ### The gray code and its inverse -/

/-- Shifting a reflected code word right gives the code word of the shifted number. -/
theorem reflected_shiftRight_one (x : Nat) : reflected x >>> 1 = reflected (x >>> 1) := by
  simp [reflected, Nat.shiftRight_xor_distrib]

theorem reflectedInv_reflected {k x : Nat} (h : x < 2 ^ k) : reflectedInv k (reflected x) = x := by
  induction k generalizing x with
  | zero => simp only [reflectedInv]; omega
  | succ k ih =>
    have hhalf : x >>> 1 < 2 ^ k := by rw [Nat.shiftRight_eq_div_pow]; omega
    rw [reflectedInv, reflected_shiftRight_one, ih hhalf, reflected, Nat.xor_assoc, Nat.xor_self, Nat.xor_zero]

/-- The search for a power of two succeeds when it has fuel enough. -/
theorem le_two_pow_leastPow {n fuel k : Nat} (h : n ≤ 2 ^ (k + fuel)) : n ≤ 2 ^ leastPow n fuel k := by
  induction fuel generalizing k with
  | zero => exact h
  | succ fuel ih =>
    rw [leastPow]
    split
    · assumption
    · exact ih (by rwa [Nat.add_assoc, Nat.add_comm 1])

theorem le_two_pow_ptrBits (n : Nat) : n ≤ 2 ^ ptrBits n :=
  le_two_pow_leastPow (by simpa using Nat.lt_two_pow_self.le)

/-- `ungray` is the inverse of `gray` on the indices of a ring of even length (R91). -/
theorem ungray_gray {n i : Nat} (hn : n % 2 = 0) (hi : i < n) : ungray n (gray n i) = i := by
  have hpow := le_two_pow_ptrBits n
  unfold gray
  split
  · next hlow =>
    simp only [ungray, reflectedInv_reflected (show i < 2 ^ ptrBits n by omega), if_pos hlow]
  · next hhigh =>
    simp only [ungray, reflectedInv_reflected (show 2 ^ ptrBits n - n + i < 2 ^ ptrBits n by omega)]
    rw [if_neg (by omega), if_pos (by omega)]
    omega

theorem gray_zero {n : Nat} (hn : 2 ≤ n) : gray n 0 = 0 := by
  rw [gray, if_pos (by omega)]; rfl

/-- Settles O32: the view is the index whose code word stands in the second stage, and an edge moves the first stage's
index there. -/
theorem crossingStaysWithinTheSyncRange : Obligations.CrossingStaysWithinTheSyncRange := by
  intro n old mid now _ heven hold hmid _ horder
  exact ⟨ungray_gray heven hold, ungray_gray heven hmid, ⟨ringDist n old mid, by omega, (add_ringDist_mod hold hmid).symm⟩,
    rfl, by rw [ringDist_self, Nat.add_zero]⟩

end Sys2Proof.Machine
end

section
/-! PROOFS of the state family, 2: everything an operation that answers a next state can have done, said once, and what
each piece of that leaves alone. Every later proof of this family is a case split over `Effect`. -/

namespace Sys2Proof.Machine

/-! ### What an operation can do -/

/-- The generator operations on one oscillator and its side's accumulator: which voice they leave (R104 to R115). -/
inductive VoiceEffect (c : Cfg) : Instr → OscId → Voice → Voice → Prop
  | noiseRun0 (g : GenCtx) (freq : BitVec 12) (volume : Nibble) (v : Voice) :
      VoiceEffect c (.noiseRun0 g freq volume) (.chan g.side g.ch) v (noiseRun c .zero freq volume g.gain v)
  | noiseRun1 (g : GenCtx) (freq : BitVec 12) (volume : Nibble) (v : Voice) :
      VoiceEffect c (.noiseRun1 g freq volume) (.chan g.side g.ch) v (noiseRun c .one freq volume g.gain v)
  | toneRun (g : GenCtx) (r : Register) (v : Voice) :
      VoiceEffect c (.toneRun g r) (.chan g.side g.ch) v (toneRun c r g.gain v)
  | toneStep (g : GenCtx) (r : Register) (v : Voice) (ht : v.osc.time < c.endTime) :
      VoiceEffect c (.toneStep g r) (.chan g.side g.ch) v (toneStep c r g.gain v)
  | noiseStep (g : GenCtx) (col : Color) (volume : Nibble) (v : Voice) (ht : v.osc.time < c.endTime) :
      VoiceEffect c (.noiseStep g col volume) (.chan g.side g.ch) v (noiseStep c col volume g.gain v)
  | pcmRun (side : Side) (pcm : List Byte) (v : Voice) : VoiceEffect c (.pcmRun side pcm) (.pcm side) v (pcmRun c pcm v)
  | pcmStep (side : Side) (pcm : List Byte) (v : Voice) (ht : v.osc.time < c.endTime) :
      VoiceEffect c (.pcmStep side pcm) (.pcm side) v (pcmStep c pcm v)
  | updateAmp (id : OscId) (new : Nat) (v : Voice) (ht : v.osc.time < c.endTime) :
      VoiceEffect c (.updateAmp id new) id v (updateAmp c new v)

/-- The operations on one side: how they leave it. -/
inductive SideEffect (c : Cfg) : Instr → Side → SideState → SideState → Prop
  | voice {i : Instr} {id : OscId} {x : SideState} {o : Osc} {v : Voice} (ho : x.osc? id = some o)
      (hv : VoiceEffect c i id ⟨o, x.blip⟩ v) : SideEffect c i (oscSide id) x (x.putVoice id v)
  | synthSide (side : Side) (cur : List Byte) (x : SideState) :
      SideEffect c (.synthSide side cur) side x (synthSide c side (snapshotOfBytes c cur) x)
  | blipAddDelta (side : Side) (t : Nat) (d : Int) (x : SideState) (ht : t < c.endTime) :
      SideEffect c (.blipAddDelta side t d) side x { x with blip := addDelta c x.blip t d }
  | blipReadOut (side : Side) (x : SideState) :
      SideEffect c (.blipReadOut side c.samplesPerFrame) side x (readOutSide c c.samplesPerFrame x)

/-- Everything an operation that answers a next state can have done. -/
inductive Effect : Instr → State → State → Prop
  | reset (s : State) :
      Effect .reset s { State.resetWith s.cfg with frames := s.frames, inputs := s.inputs, draws := s.draws }
  | push {s : State} {snap : List Byte} {m : List Host.Cell}
      (hm : memWrite s.cfg s.mem (slotAddr s.cfg s.head) snap = some m) :
      Effect (.push snap) s (advanceHead { s with mem := m })
  | renderIgnored {s : State} (hb : s.busy = true) : Effect .render s s
  | render {s : State} {cur : List Byte} (hb : s.busy = false)
      (hr : memRead s.cfg s.mem (slotAddr s.cfg s.readSlot) s.cfg.snapBytes = some cur) :
      Effect .render s (finishRender cur { s with busy := true, cur := cur })
  | rtSelect {s : State} {cur : List Byte}
      (hr : memRead s.cfg s.mem (slotAddr s.cfg s.readSlot) s.cfg.snapBytes = some cur) :
      Effect .rtSelect s { s with cur := cur }
  | rtAdvance (s : State) : Effect .rtAdvance s (advanceTail s)
  | syncHead {s : State} {pick : SyncPick} {j : Nat}
      (hj : syncMove s.cfg.ringLen s.headSeen s.head s.draws pick = some j) :
      Effect (.syncHead pick) s
        { s with headSeen := (s.headSeen + j) % s.cfg.ringLen, draws := drawsAfter s.draws pick }
  | syncTail {s : State} {pick : SyncPick} {j : Nat}
      (hj : syncMove s.cfg.ringLen s.tailSeen s.tail s.draws pick = some j) :
      Effect (.syncTail pick) s
        { s with tailSeen := (s.tailSeen + j) % s.cfg.ringLen, draws := drawsAfter s.draws pick }
  | side {i : Instr} {s : State} {side : Side} {x : SideState} (hx : SideEffect s.cfg i side (s.side side) x) :
      Effect i s (s.setSide side x)

/-! ### Every operation has one of these effects -/

theorem execRtSelect_eq_next {s t : State} : execRtSelect s = .next t ↔
    ∃ cur, memRead s.cfg s.mem (slotAddr s.cfg s.readSlot) s.cfg.snapBytes = some cur ∧ t = { s with cur := cur } := by
  unfold execRtSelect
  split
  · next h => simp [h]
  · next b h => simp [h, eq_comm]

theorem execPush_effect {snap : List Byte} {s t : State} (h : execPush snap s = .next t) : Effect (.push snap) s t := by
  unfold execPush at h
  split at h
  · split at h
    · cases h
    · next m hm => cases h; exact .push hm
  · cases h

theorem execRender_effect {s t : State} (h : execRender s = .next t) : Effect .render s t := by
  unfold execRender at h
  split at h
  · next hb => cases h; exact .renderIgnored hb
  · next hb =>
    split at h
    · next u hu =>
      obtain ⟨cur, hr, rfl⟩ := execRtSelect_eq_next.1 hu
      cases h
      exact .render (Bool.eq_false_iff.2 hb) hr
    · cases h
    · cases h

theorem execSyncHead_effect {pick : SyncPick} {s t : State} (h : execSyncHead pick s = .next t) :
    Effect (.syncHead pick) s t := by
  unfold execSyncHead at h
  split at h
  · cases h
  · next j hj => cases h; exact .syncHead hj

theorem execSyncTail_effect {pick : SyncPick} {s t : State} (h : execSyncTail pick s = .next t) :
    Effect (.syncTail pick) s t := by
  unfold execSyncTail at h
  split at h
  · cases h
  · next j hj => cases h; exact .syncTail hj

theorem onVoice_effect {i : Instr} {id : OscId} {f : Voice → Voice} {s t : State} (h : onVoice id f s = .next t)
    (hf : ∀ v, VoiceEffect s.cfg i id v (f v)) : Effect i s t := by
  obtain ⟨o, ho, rfl⟩ := onVoice_eq_next.1 h
  exact .side (.voice ho (hf _))

theorem onVoiceInFrame_effect {i : Instr} {id : OscId} {f : Voice → Voice} {s t : State}
    (h : onVoiceInFrame id f s = .next t)
    (hf : ∀ v : Voice, v.osc.time < s.cfg.endTime → VoiceEffect s.cfg i id v (f v)) : Effect i s t := by
  obtain ⟨o, ho, ht, rfl⟩ := onVoiceInFrame_eq_next.1 h
  exact .side (.voice ho (hf _ ht))

theorem execPcmRun_effect {side : Side} {pcm : List Byte} {s t : State} (h : execPcmRun side pcm s = .next t) :
    Effect (.pcmRun side pcm) s t := by
  unfold execPcmRun at h
  split at h
  · exact onVoice_effect h (.pcmRun side pcm)
  · cases h

theorem execPcmStep_effect {side : Side} {pcm : List Byte} {s t : State} (h : execPcmStep side pcm s = .next t) :
    Effect (.pcmStep side pcm) s t := by
  unfold execPcmStep at h
  split at h
  · exact onVoiceInFrame_effect h (.pcmStep side pcm)
  · cases h

theorem execSynthSide_effect {side : Side} {cur : List Byte} {s t : State} (h : execSynthSide side cur s = .next t) :
    Effect (.synthSide side cur) s t := by
  unfold execSynthSide at h
  split at h
  · cases h; exact .side (.synthSide side cur _)
  · cases h

theorem execBlipAddDelta_effect {side : Side} {u : Nat} {d : Int} {s t : State}
    (h : execBlipAddDelta side u d s = .next t) : Effect (.blipAddDelta side u d) s t := by
  unfold execBlipAddDelta at h
  split at h
  · next hu => cases h; exact .side (.blipAddDelta side u d _ hu)
  · cases h

theorem execBlipReadOut_effect {side : Side} {n : Nat} {s t : State} (h : execBlipReadOut side n s = .next t) :
    Effect (.blipReadOut side n) s t := by
  unfold execBlipReadOut at h
  split at h
  · next hn => subst hn; cases h; exact .side (.blipReadOut side _)
  · cases h

/-- The effect of an operation, one arm of `exec` at a time. -/
theorem exec_effect {i : Instr} {s t : State} (h : exec i s = .next t) : Effect i s t := by
  cases i with
  | reset => cases h; exact .reset s
  | push snap => exact execPush_effect h
  | render => exact execRender_effect h
  | rtSelect => obtain ⟨cur, hr, rfl⟩ := execRtSelect_eq_next.1 h; exact .rtSelect hr
  | rtAdvance => cases h; exact .rtAdvance s
  | syncHead pick => exact execSyncHead_effect h
  | syncTail pick => exact execSyncTail_effect h
  | synthSide side cur => exact execSynthSide_effect h
  | noiseRun0 g freq volume => exact onVoice_effect h (.noiseRun0 g freq volume)
  | noiseRun1 g freq volume => exact onVoice_effect h (.noiseRun1 g freq volume)
  | toneRun g r => exact onVoice_effect h (.toneRun g r)
  | toneStep g r => exact onVoiceInFrame_effect h (.toneStep g r)
  | noiseStep g col volume => exact onVoiceInFrame_effect h (.noiseStep g col volume)
  | pcmRun side pcm => exact execPcmRun_effect h
  | pcmStep side pcm => exact execPcmStep_effect h
  | updateAmp id new => exact onVoiceInFrame_effect h (.updateAmp id new)
  | blipAddDelta side u d => exact execBlipAddDelta_effect h
  | blipReadOut side n => exact execBlipReadOut_effect h

/-! ### What the rest of a render leaves in each field (R132) -/

section
variable (cur : List Byte) (s : State)

@[simp] theorem finishRender_cfg : (finishRender cur s).cfg = s.cfg := by
  simp [finishRender, deliver, synthSideOn]
@[simp] theorem finishRender_mem : (finishRender cur s).mem = s.mem := by
  simp [finishRender, deliver, synthSideOn]
@[simp] theorem finishRender_head : (finishRender cur s).head = s.head := by
  simp [finishRender, deliver, synthSideOn]
@[simp] theorem finishRender_headSeen : (finishRender cur s).headSeen = s.headSeen := by
  simp [finishRender, deliver, synthSideOn]
@[simp] theorem finishRender_tailSeen : (finishRender cur s).tailSeen = s.tailSeen := by
  simp [finishRender, deliver, synthSideOn]
@[simp] theorem finishRender_cur : (finishRender cur s).cur = s.cur := by
  simp [finishRender, deliver, synthSideOn]
@[simp] theorem finishRender_inputs : (finishRender cur s).inputs = s.inputs := by
  simp [finishRender, deliver, synthSideOn]
@[simp] theorem finishRender_tail : (finishRender cur s).tail = (advanceTail s).tail := by
  simp [finishRender, deliver, synthSideOn, advanceTail_tail]
@[simp] theorem finishRender_left :
    (finishRender cur s).left = synthSide s.cfg .L (snapshotOfBytes s.cfg cur) s.left := by
  simp [finishRender, deliver, synthSideOn]
@[simp] theorem finishRender_right :
    (finishRender cur s).right = synthSide s.cfg .R (snapshotOfBytes s.cfg cur) s.right := by
  simp [finishRender, deliver, synthSideOn]

end

/-! ### Ownership -/

/-- An operation on one side, run by itself, is no PUSH and none of the crossing's or the ring's. -/
theorem SideEffect.not_ring {c : Cfg} {i : Instr} {side : Side} {x y : SideState} (h : SideEffect c i side x y) :
    ¬ ((∃ snap, i = .push snap) ∨ (∃ pick, i = .syncHead pick) ∨ (∃ pick, i = .syncTail pick) ∨ i = .rtSelect ∨
      i = .rtAdvance) := by
  cases h with
  | voice ho hv => cases hv <;> simp
  | synthSide => simp
  | blipAddDelta => simp
  | blipReadOut => simp

/-- An operation on one side is a micro-operation: no trace lists it (R72). -/
theorem SideEffect.inTrace_eq_false {c : Cfg} {i : Instr} {side : Side} {x y : SideState}
    (h : SideEffect c i side x y) : inTrace i = false := by
  cases h with
  | voice ho hv => cases hv <;> rfl
  | synthSide => rfl
  | blipAddDelta => rfl
  | blipReadOut => rfl

/-- Settles O19: which fields each effect writes. -/
theorem ownershipByDomain : Obligations.OwnershipByDomain := by
  intro i s t h hreset
  cases exec_effect h with
  | reset => exact absurd rfl hreset
  | push hm => simp
  | renderIgnored hb => simp
  | render hb hr => simp
  | rtSelect hr => simp
  | rtAdvance => simp
  | syncHead hj => simp
  | syncTail hj => simp
  | side hx => simp [hx.not_ring]

end Sys2Proof.Machine
end

section
/-! PROOFS of the state family, 3: the ring invariant (spec/10_state.md R29, spec/40_ring_buffer.md R89). -/

namespace Sys2Proof.Machine

/-- A PUSH advances `head` only where the three distances leave room (R82). -/
theorem advanceHead_ringInv {s : State} (hc : s.cfg.wf = true) (h : s.RingInv) : (advanceHead s).RingInv := by
  obtain ⟨-, hn, -⟩ := Cfg.wf_facts hc
  obtain ⟨hhead, htail, hhs, hts, hsum⟩ := h
  by_cases hfull : s.head = back2 s.cfg.ringLen s.tailSeen
  · simpa [State.RingInv, advanceHead_head, ← hfull] using ⟨hhead, htail, hhs, hts, hsum⟩
  · have hroom : ringDist s.cfg.ringLen s.tailSeen s.head ≠ s.cfg.ringLen - 2 := fun he =>
      hfull (eq_back2_of_ringDist hts hhead (by omega) he)
    have h1 := ringDist_add_ringDist hts htail hhs (by omega)
    have h2 := ringDist_add_ringDist hts hhs hhead (by omega)
    have hmove : ringDist s.cfg.ringLen s.headSeen (nextIdx s.cfg.ringLen s.head) =
        ringDist s.cfg.ringLen s.headSeen s.head + 1 := ringDist_move_end hhs hhead (by omega)
    have hnext : nextIdx s.cfg.ringLen s.head < s.cfg.ringLen := Nat.mod_lt _ (by omega)
    simp only [State.RingInv, advanceHead_cfg, advanceHead_tail, advanceHead_headSeen, advanceHead_tailSeen,
      advanceHead_head, if_neg hfull, hmove]
    exact ⟨hnext, htail, hhs, hts, by omega⟩

/-- An advance of `tail` never takes it past `head_seen` (R84). -/
theorem advanceTail_ringInv {s : State} (hc : s.cfg.wf = true) (h : s.RingInv) : (advanceTail s).RingInv := by
  obtain ⟨-, hn, -⟩ := Cfg.wf_facts hc
  obtain ⟨hhead, htail, hhs, hts, hsum⟩ := h
  by_cases hempty : s.tail = s.headSeen
  · simpa [State.RingInv, advanceTail_tail, hempty] using ⟨hhead, hhs, hts, hempty ▸ hsum⟩
  · have hahead : 1 ≤ ringDist s.cfg.ringLen s.tail s.headSeen := by
      rw [ringDist_eq htail hhs]; split_ifs <;> omega
    have hfrom : ringDist s.cfg.ringLen (nextIdx s.cfg.ringLen s.tail) s.headSeen =
        ringDist s.cfg.ringLen s.tail s.headSeen - 1 := ringDist_move_start htail hhs hahead
    have hto : ringDist s.cfg.ringLen s.tailSeen (nextIdx s.cfg.ringLen s.tail) =
        ringDist s.cfg.ringLen s.tailSeen s.tail + 1 := ringDist_move_end hts htail (by omega)
    have hnext : nextIdx s.cfg.ringLen s.tail < s.cfg.ringLen := Nat.mod_lt _ (by omega)
    simp only [State.RingInv, advanceTail_cfg, advanceTail_head, advanceTail_headSeen, advanceTail_tailSeen,
      advanceTail_tail, if_neg hempty, hfrom, hto]
    exact ⟨hhead, hnext, hhs, hts, by omega⟩

/-- A move of `head_seen` towards `head` takes from one distance what it gives to another (R85). -/
theorem moveHeadSeen_ringInv {s : State} {j : Nat} (hc : s.cfg.wf = true) (h : s.RingInv)
    (hj : j ≤ ringDist s.cfg.ringLen s.headSeen s.head) (draws : Nat) :
    State.RingInv { s with headSeen := (s.headSeen + j) % s.cfg.ringLen, draws := draws } := by
  obtain ⟨-, hn, -⟩ := Cfg.wf_facts hc
  obtain ⟨hhead, htail, hhs, hts, hsum⟩ := h
  simp only [State.RingInv, ringDist_move_start hhs hhead hj, ringDist_move_end htail hhs (j := j) (by omega)]
  exact ⟨hhead, htail, Nat.mod_lt _ (by omega), hts, by omega⟩

/-- A move of `tail_seen` towards `tail` only shortens the first distance (R86). -/
theorem moveTailSeen_ringInv {s : State} {j : Nat} (hc : s.cfg.wf = true) (h : s.RingInv)
    (hj : j ≤ ringDist s.cfg.ringLen s.tailSeen s.tail) (draws : Nat) :
    State.RingInv { s with tailSeen := (s.tailSeen + j) % s.cfg.ringLen, draws := draws } := by
  obtain ⟨-, hn, -⟩ := Cfg.wf_facts hc
  obtain ⟨hhead, htail, hhs, hts, hsum⟩ := h
  simp only [State.RingInv, ringDist_move_start hts htail hj]
  exact ⟨hhead, htail, hhs, Nat.mod_lt _ (by omega), by omega⟩

theorem resetWith_ringInv {c : Cfg} (hc : c.wf = true) : (State.resetWith c).RingInv := by
  obtain ⟨-, hn, -⟩ := Cfg.wf_facts hc
  have hpos : 0 < c.ringLen := by omega
  exact ⟨hpos, hpos, hpos, hpos, by simp only [State.resetWith, ringDist_self]; omega⟩

/-- Settles O15: only RESET, the two advances and the two SYNC moves touch an index. -/
theorem everyOperationKeepsRingInvariant : Obligations.EveryOperationKeepsRingInvariant := by
  intro i s t hc h hi
  cases exec_effect hi with
  | reset => exact resetWith_ringInv hc
  | push hm => exact advanceHead_ringInv (s := { s with mem := _ }) hc h
  | renderIgnored hb => exact h
  | @render _ cur hb hr =>
    have := advanceTail_ringInv (s := { s with busy := true, cur := cur }) hc h
    simpa [State.RingInv] using this
  | rtSelect hr => exact h
  | rtAdvance => exact advanceTail_ringInv hc h
  | syncHead hj => exact moveHeadSeen_ringInv hc h (syncMove_le hj) _
  | syncTail hj => exact moveTailSeen_ringInv hc h (syncMove_le hj) _
  | side hx => simpa [State.RingInv] using h

end Sys2Proof.Machine
end

section
/-! PROOFS of the state family, 4: the shapes of a side (spec/10_state.md R22 to R24) under every generator and accumulator
operation. -/

namespace Sys2Proof.Machine

/-! ### The accumulator keeps its form -/

theorem deltasWf_cons {c : Cfg} {t : Nat} {d : Int} {rest : List (Nat × Int)} :
    deltasWf c ((t, d) :: rest) = true ↔
      t < c.endTime ∧ d ≠ 0 ∧ (∀ e ∈ rest, t < e.1) ∧ deltasWf c rest = true := by
  simp [deltasWf, and_assoc]

/-- The times listed after an insertion are those listed before and the one inserted. -/
theorem insertDelta_forall_time {P : Nat → Prop} {t : Nat} (d : Int) {l : List (Nat × Int)} (ht : P t)
    (h : ∀ e ∈ l, P e.1) : ∀ e ∈ insertDelta t d l, P e.1 := by
  induction l with
  | nil => simp only [insertDelta]; split <;> simp [ht]
  | cons first rest ih =>
    obtain ⟨u, b⟩ := first
    obtain ⟨hu, hrest⟩ := List.forall_mem_cons.1 h
    simp only [insertDelta]
    split
    · split
      · exact h
      · exact List.forall_mem_cons.2 ⟨ht, h⟩
    · split
      · split
        · exact hrest
        · exact List.forall_mem_cons.2 ⟨hu, hrest⟩
      · exact List.forall_mem_cons.2 ⟨hu, ih hrest⟩

/-- Inserting a delta inside the frame keeps the canonical form. -/
theorem insertDelta_wf {c : Cfg} {t : Nat} (d : Int) {l : List (Nat × Int)} (ht : t < c.endTime)
    (h : deltasWf c l = true) : deltasWf c (insertDelta t d l) = true := by
  induction l with
  | nil =>
    simp only [insertDelta]
    split
    · rfl
    · next hd => exact deltasWf_cons.2 ⟨ht, hd, by simp, rfl⟩
  | cons first rest ih =>
    obtain ⟨u, e⟩ := first
    obtain ⟨hu, he, hlt, hr⟩ := deltasWf_cons.1 h
    simp only [insertDelta]
    split
    · next htu =>
      split
      · exact h
      · next hd =>
        exact deltasWf_cons.2 ⟨ht, hd, List.forall_mem_cons.2 ⟨htu, fun f hf => Nat.lt_trans htu (hlt f hf)⟩, h⟩
    · split
      · split
        · exact hr
        · next hsum => exact deltasWf_cons.2 ⟨hu, hsum, hlt, hr⟩
      · next hne => exact deltasWf_cons.2 ⟨hu, he, insertDelta_forall_time d (by omega) hlt, ih hr⟩

theorem blipWf_zoh {c : Cfg} {level : Int} {acc : List Int} :
    blipWf c (.zoh level acc) = true ↔ c.blip = .zoh ∧ acc.length = c.samplesPerFrame := by
  simp [blipWf]

theorem blipWf_external {c : Cfg} {past : List (List (Nat × Int))} {now : List (Nat × Int)} :
    blipWf c (.external past now) = true ↔
      c.blip = .external ∧ (∀ f ∈ past, deltasWf c f = true) ∧ deltasWf c now = true := by
  simp [blipWf, and_assoc]

theorem addDelta_wf {c : Cfg} {b : BlipState} {t : Nat} (d : Int) (ht : t < c.endTime) (h : blipWf c b = true) :
    blipWf c (addDelta c b t d) = true := by
  cases b with
  | zoh level acc =>
    obtain ⟨hk, hl⟩ := blipWf_zoh.1 h
    exact blipWf_zoh.2 ⟨hk, by simpa using hl⟩
  | external past now =>
    obtain ⟨hk, hp, hn⟩ := blipWf_external.1 h
    exact blipWf_external.2 ⟨hk, hp, insertDelta_wf d ht hn⟩

theorem readOut_wf {c : Cfg} {b : BlipState} (n : Nat) (h : blipWf c b = true) : blipWf c (readOut c b n).1 = true := by
  cases b with
  | zoh level acc => exact blipWf_zoh.2 ⟨(blipWf_zoh.1 h).1, by simp⟩
  | external past now =>
    obtain ⟨hk, hp, hn⟩ := blipWf_external.1 h
    refine blipWf_external.2 ⟨hk, fun f hf => ?_, rfl⟩
    rcases List.mem_append.1 hf with hf | hf
    · exact hp f hf
    · rwa [List.mem_singleton.1 hf]

theorem init_blipWf (c : Cfg) : blipWf c (BlipState.init c) = true := by
  cases h : c.blip with
  | zoh => simp [BlipState.init, blipWf, h]
  | external => simp [BlipState.init, blipWf, deltasWf, h]

/-- Submitting an amplitude change inside the frame keeps the accumulator's form (R104). -/
theorem updateAmp_wf {c : Cfg} {v : Voice} (new : Nat) (ht : v.osc.time < c.endTime) (h : blipWf c v.blip = true) :
    blipWf c (updateAmp c new v).blip = true := by
  rw [updateAmp_blip]
  split
  · exact h
  · exact addDelta_wf _ ht h

/-! ### A voice keeps its form -/

/-- The bound of an oscillator's `phase`: `LFSR_BITS` bits for a channel, the buffer's length for the PCM index. -/
def phaseBound (c : Cfg) : OscId → Nat
  | .chan _ _ => 2 ^ c.lfsrBits
  | .pcm _ => c.pcmLen

/-- The phase is below the bound given and the accumulator has its form. -/
def Voice.Fits (c : Cfg) (bound : Nat) (v : Voice) : Prop := v.osc.phase < bound ∧ blipWf c v.blip = true

/-- What every step inside the frame keeps, whatever the time is set to, a whole run keeps (R106, R109, R115). -/
theorem genRun_induct {c : Cfg} {period : Nat} {f : Voice → Voice} (P : Voice → Prop)
    (htime : ∀ v t, P v → P (v.setTime t)) (hstep : ∀ v, v.osc.time < c.endTime → P v → P (f v)) {v : Voice}
    (h : P v) : P (genRun c period f v) :=
  htime _ _ (genLoop_induct P (fun v hv ht => htime _ _ (hstep v ht hv)) _ v h)

theorem Voice.Fits.setTime {c : Cfg} {bound : Nat} {v : Voice} (h : v.Fits c bound) (t : Nat) :
    (v.setTime t).Fits c bound := h

theorem two_pow_lfsrBits_ge {c : Cfg} (hc : c.wf = true) : waveValues ≤ 2 ^ c.lfsrBits := by
  obtain ⟨-, -, -, -, -, -, -, -, hbits, -⟩ := Cfg.wf_facts hc
  exact Nat.pow_le_pow_right (n := 2) (by omega) hbits

/-- A shift of the LFSR stays in its `LFSR_BITS` bits (R107, R108). -/
theorem lfsrStep_lt {fb phase bits : Nat} (hfb : fb < 2 ^ bits) (h : phase < 2 ^ bits) : lfsrStep fb phase < 2 ^ bits := by
  refine Nat.xor_lt_two_pow ?_ ?_
  · exact Nat.lt_of_le_of_lt (Nat.shiftRight_le phase 1) h
  · split
    · exact hfb
    · omega

theorem lfsrSeed_lt {phase n : Nat} (hn : 1 < n) (h : phase < n) : lfsrSeed phase < n := by
  unfold lfsrSeed; split <;> omega

theorem toneStep_fits {c : Cfg} {v : Voice} (hc : c.wf = true) (r : Register) (gain : Nibble)
    (ht : v.osc.time < c.endTime) (h : v.Fits c (2 ^ c.lfsrBits)) : (toneStep c r gain v).Fits c (2 ^ c.lfsrBits) := by
  refine ⟨?_, updateAmp_wf _ (v := v.setPhase _) ht h.2⟩
  exact Nat.lt_of_lt_of_le (Nat.mod_lt _ (by decide)) (two_pow_lfsrBits_ge hc)

theorem noiseStep_fits {c : Cfg} {v : Voice} (hc : c.wf = true) (col : Color) (volume gain : Nibble)
    (ht : v.osc.time < c.endTime) (h : v.Fits c (2 ^ c.lfsrBits)) :
    (noiseStep c col volume gain v).Fits c (2 ^ c.lfsrBits) :=
  ⟨lfsrStep_lt (noiseFb_of_wf hc col).2 h.1, updateAmp_wf _ (v := v.setPhase _) ht h.2⟩

theorem pcmStep_fits {c : Cfg} {v : Voice} (hc : c.wf = true) (pcm : List Byte) (ht : v.osc.time < c.endTime)
    (h : v.Fits c c.pcmLen) : (pcmStep c pcm v).Fits c c.pcmLen := by
  obtain ⟨-, -, -, -, -, -, -, -, -, hlen, -⟩ := Cfg.wf_facts hc
  exact ⟨Nat.mod_lt _ hlen, updateAmp_wf _ ht h.2⟩

theorem toneRun_fits {c : Cfg} {v : Voice} (hc : c.wf = true) (r : Register) (gain : Nibble)
    (h : v.Fits c (2 ^ c.lfsrBits)) : (toneRun c r gain v).Fits c (2 ^ c.lfsrBits) :=
  genRun_induct _ (fun _ t hv => hv.setTime t) (fun _ ht hv => toneStep_fits hc r gain ht hv) h

theorem noiseRun_fits {c : Cfg} {v : Voice} (hc : c.wf = true) (col : Color) (freq : BitVec 12) (volume gain : Nibble)
    (h : v.Fits c (2 ^ c.lfsrBits)) : (noiseRun c col freq volume gain v).Fits c (2 ^ c.lfsrBits) := by
  have hseed : (v.setPhase (lfsrSeed v.osc.phase)).Fits c (2 ^ c.lfsrBits) :=
    ⟨lfsrSeed_lt (Nat.lt_of_lt_of_le (by decide) (two_pow_lfsrBits_ge hc)) h.1, h.2⟩
  exact genRun_induct _ (fun _ t hv => hv.setTime t) (fun _ ht hv => noiseStep_fits hc col volume gain ht hv) hseed

theorem pcmRun_fits {c : Cfg} {v : Voice} (hc : c.wf = true) (pcm : List Byte) (h : v.Fits c c.pcmLen) :
    (pcmRun c pcm v).Fits c c.pcmLen :=
  genRun_induct _ (fun _ t hv => hv.setTime t) (fun _ ht hv => pcmStep_fits hc pcm ht hv) h

theorem channelRun_fits {c : Cfg} {v : Voice} (hc : c.wf = true) (r : Register) (gain : Nibble)
    (h : v.Fits c (2 ^ c.lfsrBits)) : (channelRun c r gain v).Fits c (2 ^ c.lfsrBits) := by
  unfold channelRun
  split
  · exact toneRun_fits hc r gain h
  · exact noiseRun_fits hc _ _ _ gain h

/-- Every generator operation keeps the form of its voice. -/
theorem VoiceEffect.fits {c : Cfg} {i : Instr} {id : OscId} {v w : Voice} (hc : c.wf = true)
    (hi : VoiceEffect c i id v w) (h : v.Fits c (phaseBound c id)) : w.Fits c (phaseBound c id) := by
  cases hi with
  | noiseRun0 => exact noiseRun_fits hc _ _ _ _ h
  | noiseRun1 => exact noiseRun_fits hc _ _ _ _ h
  | toneRun => exact toneRun_fits hc _ _ h
  | toneStep _ _ _ ht => exact toneStep_fits hc _ _ ht h
  | noiseStep _ _ _ _ ht => exact noiseStep_fits hc _ _ _ ht h
  | pcmRun => exact pcmRun_fits hc _ h
  | pcmStep _ _ _ ht => exact pcmStep_fits hc _ ht h
  | updateAmp _ _ _ ht => exact ⟨h.1, updateAmp_wf _ ht h.2⟩

/-! ### A side keeps its shape -/

theorem SideState.Shape.fits {c : Cfg} {x : SideState} {id : OscId} {o : Osc} (h : x.Shape c) (ho : x.osc? id = some o) :
    Voice.Fits c (phaseBound c id) ⟨o, x.blip⟩ := by
  obtain ⟨-, hphase, hpcm, hblip⟩ := h
  cases id with
  | chan side ch => exact ⟨hphase o (List.mem_of_getElem? ho), hblip⟩
  | pcm side => cases ho; exact ⟨hpcm, hblip⟩

theorem SideState.Shape.putVoice {c : Cfg} {x : SideState} {id : OscId} {v : Voice} (h : x.Shape c)
    (hv : v.Fits c (phaseBound c id)) : (x.putVoice id v).Shape c := by
  obtain ⟨hlen, hphase, hpcm, -⟩ := h
  cases id with
  | chan side ch =>
    refine ⟨by simpa using hlen, fun o ho => ?_, hpcm, hv.2⟩
    rcases List.mem_or_eq_of_mem_set ho with ho | rfl
    · exact hphase o ho
    · exact hv.1
  | pcm side => exact ⟨hlen, hphase, hv.1, hv.2⟩

theorem SideState.Shape.readOutSide {c : Cfg} {x : SideState} (h : x.Shape c) (n : Nat) :
    (readOutSide c n x).Shape c := by
  obtain ⟨hlen, hphase, hpcm, hblip⟩ := h
  exact ⟨hlen, hphase, hpcm, readOut_wf n hblip⟩

/-- What channel `i` of a side does to its oscillator and the side's accumulator in one frame (R131). -/
def channelVoice (c : Cfg) (side : Side) (snap : Snapshot) (i : Nat) (v : Voice) : Voice :=
  channelRun c (snap.reg.getD i (registerOfWord 0)) (gainOf side (snap.stereo.getD i (stereoOfByte 0))) v

theorem runChannels_cons (c : Cfg) (side : Side) (snap : Snapshot) (i : Nat) (o : Osc) (rest : List Osc) (b : BlipState) :
    runChannels c side snap i (o :: rest) b =
      ((channelVoice c side snap i ⟨o, b⟩).osc ::
          (runChannels c side snap (i + 1) rest (channelVoice c side snap i ⟨o, b⟩).blip).1,
        (runChannels c side snap (i + 1) rest (channelVoice c side snap i ⟨o, b⟩).blip).2) := rfl

/-- The channel loop of R131 keeps the number of oscillators, their phases' widths and the accumulator's form. -/
theorem runChannels_shape {c : Cfg} (hc : c.wf = true) (side : Side) (snap : Snapshot) {os : List Osc} {b : BlipState}
    (i : Nat) (hos : ∀ o ∈ os, o.phase < 2 ^ c.lfsrBits) (hb : blipWf c b = true) :
    (runChannels c side snap i os b).1.length = os.length ∧
    (∀ o ∈ (runChannels c side snap i os b).1, o.phase < 2 ^ c.lfsrBits) ∧
    blipWf c (runChannels c side snap i os b).2 = true := by
  induction os generalizing i b with
  | nil => exact ⟨rfl, by simp [runChannels], hb⟩
  | cons o rest ih =>
    obtain ⟨ho, hrest⟩ := List.forall_mem_cons.1 hos
    have hv : (channelVoice c side snap i ⟨o, b⟩).Fits c (2 ^ c.lfsrBits) := channelRun_fits hc _ _ ⟨ho, hb⟩
    obtain ⟨hlen, hphase, hblip⟩ := ih (i + 1) hrest hv.2
    rw [runChannels_cons]
    exact ⟨congrArg (· + 1) hlen, List.forall_mem_cons.2 ⟨hv.1, hphase⟩, hblip⟩

theorem runSide_shape {c : Cfg} {x : SideState} (hc : c.wf = true) (side : Side) (snap : Snapshot) (h : x.Shape c) :
    (runSide c side snap x).Shape c := by
  obtain ⟨hlen, hphase, hpcm, hblip⟩ := h
  obtain ⟨hlen', hphase', hblip'⟩ := runChannels_shape hc side snap 0 hphase hblip
  have hv := pcmRun_fits hc snap.pcm (v := ⟨x.pcmosc, (runChannels c side snap 0 x.osc x.blip).2⟩) ⟨hpcm, hblip'⟩
  exact ⟨hlen'.trans hlen, hphase', hv.1, hv.2⟩

theorem synthSide_shape {c : Cfg} {x : SideState} (hc : c.wf = true) (side : Side) (snap : Snapshot) (h : x.Shape c) :
    (synthSide c side snap x).Shape c :=
  (runSide_shape hc side snap h).readOutSide _

/-- Every operation on one side keeps its shape. -/
theorem SideEffect.shape {c : Cfg} {i : Instr} {side : Side} {x y : SideState} (hc : c.wf = true)
    (hi : SideEffect c i side x y) (h : x.Shape c) : y.Shape c := by
  cases hi with
  | voice ho hv => exact h.putVoice (hv.fits hc (h.fits ho))
  | synthSide => exact synthSide_shape hc _ _ h
  | blipAddDelta _ _ _ _ ht =>
    obtain ⟨hlen, hphase, hpcm, hblip⟩ := h
    exact ⟨hlen, hphase, hpcm, addDelta_wf _ ht hblip⟩
  | blipReadOut => exact h.readOutSide _

theorem init_shape {c : Cfg} (hc : c.wf = true) : (SideState.init c).Shape c := by
  obtain ⟨-, -, -, -, -, -, -, -, -, hlen, -⟩ := Cfg.wf_facts hc
  refine ⟨by simp [SideState.init], fun o ho => ?_, hlen, init_blipWf c⟩
  rw [List.eq_of_mem_replicate ho]
  exact Nat.two_pow_pos _

end Sys2Proof.Machine
end

section
/-! PROOFS of the state family, 5: the machine's invariant, and RESET (spec/10_state.md R28, R29). -/

namespace Sys2Proof.Machine

theorem memRead_length {c : Cfg} {m : List Host.Cell} {addr n : Nat} {b : List Byte} (h : memRead c m addr n = some b) :
    b.length = n := by
  obtain ⟨-, rfl⟩ := memRead_eq_some.1 h
  simp

/-- A write inside the ring memory keeps the memory's form and stays inside it. -/
theorem memWrite_memInv {s : State} {addr : Nat} {v : List Byte} {m : List Host.Cell}
    (h : memWrite s.cfg s.mem addr v = some m) (hs : s.MemInv) :
    memWf m = true ∧ ∀ cell ∈ m, cell.1 < s.cfg.ringBytes := by
  obtain ⟨hwf, hrange⟩ := hs
  obtain ⟨hend, rfl, -⟩ := memWrite_eq_some h
  refine ⟨writeBytes_wf hwf _ _, fun cell hcell => ?_⟩
  rcases mem_writeBytes hcell with hnew | hold
  · omega
  · exact hrange cell hold

theorem resetWith_inv {c : Cfg} (hc : c.wf = true) : (State.resetWith c).Inv :=
  ⟨hc, ⟨rfl, by simp⟩, resetWith_ringInv hc, init_shape hc, init_shape hc, by simp [State.resetWith]⟩

/-- Every operation keeps the machine's invariant. -/
theorem exec_inv {i : Instr} {s t : State} (h : s.Inv) (hi : exec i s = .next t) : t.Inv := by
  obtain ⟨hc, hmem, hring, hl, hr, hcur⟩ := h
  have hring' := everyOperationKeepsRingInvariant i s t hc hring hi
  cases exec_effect hi with
  | reset => exact resetWith_inv hc
  | push hm =>
    exact ⟨by simpa, by simpa [State.MemInv] using memWrite_memInv hm hmem, hring', by simpa, by simpa, by simpa⟩
  | renderIgnored hb => exact ⟨hc, hmem, hring, hl, hr, hcur⟩
  | render hb hread =>
    exact ⟨by simpa, by simpa [State.MemInv] using hmem, hring', by simpa using synthSide_shape hc _ _ hl,
      by simpa using synthSide_shape hc _ _ hr, by simpa using memRead_length hread⟩
  | rtSelect hread => exact ⟨hc, hmem, hring, hl, hr, memRead_length hread⟩
  | rtAdvance => exact ⟨by simpa, by simpa [State.MemInv] using hmem, hring', by simpa, by simpa, by simpa⟩
  | syncHead hj => exact ⟨hc, hmem, hring', hl, hr, hcur⟩
  | syncTail hj => exact ⟨hc, hmem, hring', hl, hr, hcur⟩
  | @side _ _ side x hx =>
    cases side with
    | L => exact ⟨hc, hmem, hring', hx.shape hc hl, hr, hcur⟩
    | R => exact ⟨hc, hmem, hring', hl, hx.shape hc hr, hcur⟩

/-- Settles O14: a step changes at most the inputs, which the invariant does not read, before it runs an operation. -/
theorem everyStepKeepsInvariant : Obligations.EveryStepKeepsInvariant := by
  intro s t h hstep
  obtain ⟨-, ⟨-, rfl⟩ | ⟨inp, rest, -, ⟨-, rfl⟩ | ⟨i, -, hi⟩⟩⟩ := step_cases hstep
  · exact h
  · exact h
  · exact exec_inv (s := { s with inputs := rest }) h hi

/-- Settles O9: fetching gives the decoded input and the state without it. -/
theorem stepRunsDecodedOperation : Obligations.StepRunsDecodedOperation := by
  intro s inp rest i hc hinputs hdecode
  simp [step, hc, fetch_of_inputs_cons hinputs, hdecode]

/-- Settles O12, with RESET's next state as `execReset` writes it. -/
theorem resetValues : Obligations.ResetValues := by
  intro s hc
  obtain ⟨-, hlen, -⟩ := Cfg.wf_facts hc
  have hgray : gray s.cfg.ringLen 0 = 0 := gray_zero (by omega)
  refine ⟨_, rfl, rfl, rfl, hgray, hgray, rfl, rfl, fun a => rfl, fun side => ?_, rfl, rfl⟩
  cases side with
  | L => exact ⟨rfl, rfl, rfl, fun hzoh => by simp [SideState.init, BlipState.init, hzoh]⟩
  | R => exact ⟨rfl, rfl, rfl, fun hzoh => by simp [SideState.init, BlipState.init, hzoh]⟩

end Sys2Proof.Machine
end

section
/-! PROOFS of the state family, 6: the invariant of whole renders (spec/10_state.md R22, spec/41_oscillator.md R113, R118,
spec/42_synth_frame.md R138, R143). Each of its parts is carried from a step to a run, from a run to the channel loop, and
from there to a side. -/

namespace Sys2Proof.Machine

/-! ### Amplitudes lie in `0 .. AMP_MAX div CH` (R103, R117) -/

/-- Scaling by at most the full scale gives at most the whole. -/
theorem mul_div_le_of_le {a x m : Nat} (h : a ≤ m) : a * x / m ≤ x :=
  Nat.div_le_of_le_mul (Nat.mul_le_mul_right x h)

theorem getAmp_le_ampTop {c : Cfg} {volume a : Nat} (hv : volume ≤ maxVolume) (ha : a ≤ maxVolume) :
    getAmp c volume a ≤ c.ampTop := by
  refine Nat.div_le_div_right ?_
  calc a * c.ampMax / maxVolume * volume / maxVolume
      = volume * (a * c.ampMax / maxVolume) / maxVolume := by rw [Nat.mul_comm volume]
    _ ≤ a * c.ampMax / maxVolume := mul_div_le_of_le hv
    _ ≤ c.ampMax := mul_div_le_of_le ha

theorem nibble_le_maxVolume (x : Nibble) : x.toNat ≤ maxVolume := Nat.le_of_lt_succ x.isLt

theorem toneAmp_le_ampTop (c : Cfg) (r : Register) (gain : Nibble) (phase : Nat) : toneAmp c r gain phase ≤ c.ampTop :=
  getAmp_le_ampTop (nibble_le_maxVolume _)
    (calc toneLevel r gain phase
        ≤ gain.toNat := mul_div_le_of_le (nibble_le_maxVolume _)
      _ ≤ maxVolume := nibble_le_maxVolume gain)

theorem noiseAmp_le_ampTop (c : Cfg) (volume gain : Nibble) (phase : Nat) : noiseAmp c volume gain phase ≤ c.ampTop := by
  refine getAmp_le_ampTop (nibble_le_maxVolume volume) ?_
  unfold noiseLevel
  split
  · exact nibble_le_maxVolume gain
  · exact Nat.zero_le _

theorem pcmAmp_le_ampTop {c : Cfg} {x : Nat} (hx : x ≤ c.pcmMax) : pcmAmp c x ≤ c.ampTop :=
  Nat.div_le_div_right (mul_div_le_of_le hx)

/-- The samples a snapshot's PCM buffer decodes to have `PCM_BITS` bits (R67). -/
theorem snapshotOfBytes_pcm_le {c : Cfg} (hc : c.wf = true) (cur : List Byte) (k : Nat) :
    ((snapshotOfBytes c cur).pcm.getD k 0).toNat ≤ c.pcmMax := by
  have hbits : c.pcmBits = 8 ∨ c.pcmBits = 4 := by
    simp only [Cfg.wf, Bool.and_eq_true, Bool.or_eq_true, decide_eq_true_eq] at hc
    exact hc.2.imp_right And.left
  have hsample (b : List Byte) (j : Nat) : (pcmSample c b j).toNat ≤ c.pcmMax := by
    rcases hbits with h | h
    · simpa [Cfg.pcmMax, h] using Nat.le_of_lt_succ (pcmSample c b j).isLt
    · simp only [pcmSample, Cfg.pcmMax, h, if_pos, BitVec.toNat_and]
      exact Nat.and_le_right
  rw [List.getD_eq_getElem?_getD]
  cases hk : (snapshotOfBytes c cur).pcm[k]? with
  | none => exact Nat.zero_le _
  | some x =>
    obtain ⟨j, -, rfl⟩ := List.mem_map.1 (List.mem_of_getElem? hk)
    exact hsample _ j

/-! ### What an accumulator has been given -/

theorem insertDelta_sum (t : Nat) (d : Int) (l : List (Nat × Int)) :
    ((insertDelta t d l).map Prod.snd).sum = (l.map Prod.snd).sum + d := by
  induction l with
  | nil =>
    simp only [insertDelta]
    split <;> simp_all
  | cons first rest ih =>
    obtain ⟨u, e⟩ := first
    simp only [insertDelta]
    split_ifs <;> simp only [List.map_cons, List.sum_cons, ih] <;> omega

theorem sum_modify_add {l : List Int} {k : Nat} (d : Int) (h : k < l.length) :
    (l.modify k (fun x => x + d)).sum = l.sum + d := by
  induction l generalizing k with
  | nil => cases h
  | cons a rest ih =>
    cases k with
    | zero => simp only [List.modify_zero_cons, List.sum_cons]; omega
    | succ k => simp only [List.modify_succ_cons, List.sum_cons, ih (Nat.lt_of_succ_lt_succ h)]; omega

/-- A time inside the frame has a bin (R138). -/
theorem zohBin_lt {c : Cfg} (hc : c.wf = true) {t : Nat} (ht : t < c.endTime) : zohBin c t < c.samplesPerFrame := by
  obtain ⟨-, -, -, -, -, hspf, -⟩ := Cfg.wf_facts hc
  exact Nat.div_lt_of_lt_mul (Nat.mul_lt_mul_of_pos_right ht hspf)

/-- A delta inside the frame adds itself to what the accumulator has been given (R135, R137). -/
theorem submitted_addDelta {c : Cfg} (hc : c.wf = true) {b : BlipState} {t : Nat} (d : Int) (ht : t < c.endTime)
    (h : blipWf c b = true) : submitted (addDelta c b t d) = submitted b + d := by
  cases b with
  | zoh level acc =>
    have hbin : zohBin c t < acc.length := (blipWf_zoh.1 h).2 ▸ zohBin_lt hc ht
    simp only [addDelta, submitted, sum_modify_add d hbin]
    omega
  | external past now => simp [addDelta, submitted, deltaSum, insertDelta_sum, Int.add_assoc]

theorem zohScan_level (level : Int) (acc : List Int) (n : Nat) :
    (zohScan level acc n).1 = level + (acc.take n).sum := by
  induction n generalizing level acc with
  | zero => simp [zohScan]
  | succ n ih =>
    rw [zohScan, ih]
    cases acc with
    | nil => simp
    | cons a rest => simp [Int.add_assoc]

/-! ### A voice between its amplitude and its accumulator -/

/-- The amplitude is in range, the accumulator has its form, and what it has been given beyond this voice's amplitude
(the amplitudes of the side's other generators) is `others`. -/
def Voice.Sound (c : Cfg) (others : Int) (v : Voice) : Prop :=
  v.osc.amp ≤ c.ampTop ∧ blipWf c v.blip = true ∧ submitted v.blip = v.osc.amp + others

theorem updateAmp_sound {c : Cfg} (hc : c.wf = true) {others : Int} {v : Voice} {new : Nat} (hnew : new ≤ c.ampTop)
    (ht : v.osc.time < c.endTime) (h : v.Sound c others) : (updateAmp c new v).Sound c others := by
  obtain ⟨-, hwf, hsum⟩ := h
  refine ⟨hnew, updateAmp_wf new ht hwf, ?_⟩
  rw [updateAmp_blip, updateAmp_amp]
  split
  · next heq => rw [hsum, heq]
  · rw [submitted_addDelta hc _ ht hwf, hsum]; omega

theorem Voice.Sound.setTime {c : Cfg} {others : Int} {v : Voice} (h : v.Sound c others) (t : Nat) :
    (v.setTime t).Sound c others := h

theorem Voice.Sound.setPhase {c : Cfg} {others : Int} {v : Voice} (h : v.Sound c others) (p : Nat) :
    (v.setPhase p).Sound c others := h

theorem toneStep_sound {c : Cfg} (hc : c.wf = true) {others : Int} {v : Voice} (r : Register) (gain : Nibble)
    (ht : v.osc.time < c.endTime) (h : v.Sound c others) : (toneStep c r gain v).Sound c others :=
  updateAmp_sound hc (toneAmp_le_ampTop c r gain _) ht (h.setPhase _)

theorem noiseStep_sound {c : Cfg} (hc : c.wf = true) {others : Int} {v : Voice} (col : Color) (volume gain : Nibble)
    (ht : v.osc.time < c.endTime) (h : v.Sound c others) : (noiseStep c col volume gain v).Sound c others :=
  updateAmp_sound hc (noiseAmp_le_ampTop c volume gain _) ht (h.setPhase _)

theorem pcmStep_sound {c : Cfg} (hc : c.wf = true) {others : Int} {v : Voice} {pcm : List Byte}
    (hpcm : ∀ k, (pcm.getD k 0).toNat ≤ c.pcmMax) (ht : v.osc.time < c.endTime) (h : v.Sound c others) :
    (pcmStep c pcm v).Sound c others :=
  (updateAmp_sound hc (pcmAmp_le_ampTop (hpcm _)) ht h).setPhase _

theorem channelRun_sound {c : Cfg} (hc : c.wf = true) {others : Int} {v : Voice} (r : Register) (gain : Nibble)
    (h : v.Sound c others) : (channelRun c r gain v).Sound c others := by
  unfold channelRun
  split
  · exact genRun_induct _ (fun _ t hv => hv.setTime t) (fun _ ht hv => toneStep_sound hc r gain ht hv) h
  · exact genRun_induct _ (fun _ t hv => hv.setTime t) (fun _ ht hv => noiseStep_sound hc _ r.volume gain ht hv)
      (h.setPhase _)

theorem pcmRun_sound {c : Cfg} (hc : c.wf = true) {others : Int} {v : Voice} {pcm : List Byte}
    (hpcm : ∀ k, (pcm.getD k 0).toNat ≤ c.pcmMax) (h : v.Sound c others) : (pcmRun c pcm v).Sound c others :=
  genRun_induct _ (fun _ t hv => hv.setTime t) (fun _ ht hv => pcmStep_sound hc hpcm ht hv) h

/-! ### The time a run carries into the next frame (R113) -/

theorem freq2period_bounds {c : Cfg} (hc : c.wf = true) (f : Nat) :
    1 ≤ freq2period c f ∧ freq2period c f ≤ c.maxPeriod := by
  obtain ⟨-, -, -, -, -, -, hmin, hmax, -⟩ := Cfg.wf_facts hc
  unfold freq2period clampInt
  split_ifs <;> omega

/-- A run carries less than one period over, and a time already past the frame comes nearer by `END_TIME`. -/
theorem genRun_time_lt {c : Cfg} (hc : c.wf = true) {period bound : Nat} {f : Voice → Voice}
    (hf : ∀ v, (f v).osc.time = v.osc.time) (hp : 1 ≤ period) (hb : period ≤ bound) {v : Voice}
    (h : v.osc.time < bound) : (genRun c period f v).osc.time < bound := by
  obtain ⟨-, -, -, -, hend, -⟩ := Cfg.wf_facts hc
  obtain ⟨-, hlt⟩ := genLoop_time (c := c) hf hp (c.endTime - v.osc.time) v (by omega)
  simp only [genRun, Voice.setTime_time]
  by_cases ht : v.osc.time < c.endTime
  · have := hlt ht; omega
  · rw [genLoop_done (by omega)]; omega

theorem channelRun_time_lt {c : Cfg} (hc : c.wf = true) {v : Voice} (r : Register) (gain : Nibble)
    (h : v.osc.time < c.maxPeriod) : (channelRun c r gain v).osc.time < c.maxPeriod := by
  unfold channelRun
  split
  · obtain ⟨hp, hb⟩ := freq2period_bounds hc (r.freq.toNat * c.freqScale)
    exact genRun_time_lt hc (toneStep_time c r gain) hp hb h
  · obtain ⟨hp, hb⟩ := freq2period_bounds hc r.freq.toNat
    exact genRun_time_lt hc (noiseStep_time c _ r.volume gain) hp hb h

theorem pcmRun_time_lt {c : Cfg} (hc : c.wf = true) {v : Voice} (pcm : List Byte) (h : v.osc.time < c.pcmPeriod) :
    (pcmRun c pcm v).osc.time < c.pcmPeriod := by
  obtain ⟨-, -, -, -, -, -, -, -, -, -, hp⟩ := Cfg.wf_facts hc
  exact genRun_time_lt hc (pcmStep_time c pcm) hp (Nat.le_refl _) h

/-! ### One side -/

theorem runChannels_sound {c : Cfg} (hc : c.wf = true) (side : Side) (snap : Snapshot) {os : List Osc} {b : BlipState}
    {others : Int} (i : Nat) (hos : ∀ o ∈ os, o.amp ≤ c.ampTop ∧ o.time < c.maxPeriod) (hb : blipWf c b = true)
    (hsum : submitted b = (os.map Osc.amp).sum + others) :
    (∀ o ∈ (runChannels c side snap i os b).1, o.amp ≤ c.ampTop ∧ o.time < c.maxPeriod) ∧
    blipWf c (runChannels c side snap i os b).2 = true ∧
    submitted (runChannels c side snap i os b).2 = ((runChannels c side snap i os b).1.map Osc.amp).sum + others := by
  induction os generalizing i b others with
  | nil => exact ⟨by simp [runChannels], hb, hsum⟩
  | cons o rest ih =>
    obtain ⟨⟨hamp, htime⟩, hrest⟩ := List.forall_mem_cons.1 hos
    simp only [List.map_cons, List.sum_cons, Nat.cast_add] at hsum
    obtain ⟨hamp', hwf', hsum'⟩ : (channelVoice c side snap i ⟨o, b⟩).Sound c ((rest.map Osc.amp).sum + others) :=
      channelRun_sound hc _ _ ⟨hamp, hb, hsum.trans (by simp only; omega)⟩
    have htime' : (channelVoice c side snap i ⟨o, b⟩).osc.time < c.maxPeriod := channelRun_time_lt hc _ _ htime
    obtain ⟨hranges, hwf, hrun⟩ := ih (i + 1) hrest hwf'
      (others := (channelVoice c side snap i ⟨o, b⟩).osc.amp + others) (by rw [hsum']; omega)
    rw [runChannels_cons]
    refine ⟨List.forall_mem_cons.2 ⟨⟨hamp', htime'⟩, hranges⟩, hwf, ?_⟩
    rw [hrun]
    simp only [List.map_cons, List.sum_cons, Nat.cast_add]
    omega

/-- What every generator of a side keeps before the read-out: the ranges, and the accumulator's sum against the
amplitudes, `others` being what it holds beyond them. -/
theorem runSide_sound {c : Cfg} (hc : c.wf = true) (side : Side) (cur : List Byte) {x : SideState} {others : Int}
    (hr : x.Ranges c) (hb : blipWf c x.blip = true)
    (hsum : submitted x.blip = ((x.osc.map Osc.amp).sum + x.pcmosc.amp : Nat) + others) :
    (runSide c side (snapshotOfBytes c cur) x).Ranges c ∧
    blipWf c (runSide c side (snapshotOfBytes c cur) x).blip = true ∧
    submitted (runSide c side (snapshotOfBytes c cur) x).blip =
      (((runSide c side (snapshotOfBytes c cur) x).osc.map Osc.amp).sum +
        (runSide c side (snapshotOfBytes c cur) x).pcmosc.amp : Nat) + others := by
  obtain ⟨hos, hamp, htime⟩ := hr
  obtain ⟨hos', hb', hsum'⟩ := runChannels_sound hc side (snapshotOfBytes c cur) 0 hos hb
    (others := x.pcmosc.amp + others) (by rw [hsum]; omega)
  obtain ⟨hamp', hwf, hrun⟩ := pcmRun_sound hc (snapshotOfBytes_pcm_le hc cur)
    (v := ⟨x.pcmosc, (runChannels c side (snapshotOfBytes c cur) 0 x.osc x.blip).2⟩)
    (others := ((runChannels c side (snapshotOfBytes c cur) 0 x.osc x.blip).1.map Osc.amp).sum + others)
    ⟨hamp, hb', hsum'.trans (by simp only; omega)⟩
  refine ⟨⟨hos', hamp', pcmRun_time_lt hc _ htime⟩, hwf, ?_⟩
  simp only [runSide, hrun]
  omega

/-- The tracked level of ZOH is all the accumulator has been given (R138). -/
theorem submitted_of_levelTracks {c : Cfg} {x : SideState} (hz : c.blip = .zoh) (hb : blipWf c x.blip = true)
    (h : levelTracks c x = true) : submitted x.blip = ((x.osc.map Osc.amp).sum + x.pcmosc.amp : Nat) := by
  unfold levelTracks at h
  split at h
  · next level acc heq =>
    obtain ⟨hlevel, hacc⟩ : level = _ ∧ acc = _ := by simpa using h
    simp [heq, submitted, hlevel, hacc]
  · next past now heq =>
    rw [heq, blipWf_external, hz] at hb
    cases hb.1

/-- The read-out leaves the level at all the accumulator has been given, and nothing in the new frame (R138). -/
theorem levelTracks_readOutSide {c : Cfg} {x : SideState} (hb : blipWf c x.blip = true)
    (h : c.blip = .zoh → submitted x.blip = ((x.osc.map Osc.amp).sum + x.pcmosc.amp : Nat)) :
    levelTracks c (readOutSide c c.samplesPerFrame x) = true := by
  cases hx : x.blip with
  | zoh level acc =>
    rw [hx] at hb h
    obtain ⟨hk, hlen⟩ := blipWf_zoh.1 hb
    have hlevel : (zohScan level acc c.samplesPerFrame).1 = ((x.osc.map Osc.amp).sum + x.pcmosc.amp : Nat) := by
      rw [zohScan_level, ← hlen, List.take_length, ← h hk, submitted]
    simp [levelTracks, hx, readOut, hlevel]
  | external past now => simp [levelTracks, hx, readOut]

/-- SYNTH_SIDE keeps the ranges and the tracked level of its side. -/
theorem synthSide_sound {c : Cfg} (hc : c.wf = true) (side : Side) (cur : List Byte) {x : SideState} (hr : x.Ranges c)
    (hb : blipWf c x.blip = true) (hl : levelTracks c x = true) :
    (synthSide c side (snapshotOfBytes c cur) x).Ranges c ∧
    levelTracks c (synthSide c side (snapshotOfBytes c cur) x) = true := by
  obtain ⟨hranges, hwf, hsum⟩ := runSide_sound hc side cur hr hb
    (others := submitted x.blip - ((x.osc.map Osc.amp).sum + x.pcmosc.amp : Nat)) (by omega)
  refine ⟨hranges, levelTracks_readOutSide hwf fun hz => ?_⟩
  rw [hsum, submitted_of_levelTracks hz hb hl]
  omega

/-! ### The two sides agree in all a gain does not reach (R143) -/

/-- Time and phase are equal: what decides when a generator steps and which entry it looks up. -/
def Voice.SameClock (v w : Voice) : Prop := v.osc.time = w.osc.time ∧ v.osc.phase = w.osc.phase

section
variable {c : Cfg} {period : Nat} {f g : Voice → Voice} (R : Voice → Voice → Prop)
  (htime : ∀ v w t, R v w → R (v.setTime t) (w.setTime t)) (hsame : ∀ v w, R v w → v.osc.time = w.osc.time)
  (hstep : ∀ v w, R v w → R (f v) (g w))
include htime hsame hstep

/-- A relation that two steps and every setting of the time keep, and that fixes the time, is kept by the two loops. -/
theorem genLoop_rel (fuel : Nat) {v w : Voice} (h : R v w) :
    R (genLoop c period f fuel v) (genLoop c period g fuel w) := by
  induction fuel generalizing v w with
  | zero => exact h
  | succ fuel ih =>
    have ht := hsame v w h
    by_cases hin : v.osc.time < c.endTime
    · have hfg := hstep v w h
      rw [genLoop_turn hin, genLoop_turn (ht ▸ hin), hsame _ _ hfg]
      exact ih (htime _ _ _ hfg)
    · rw [genLoop_done (by omega), genLoop_done (by omega)]
      exact h

/-- The same for the two runs, time carry included. -/
theorem genRun_rel {v w : Voice} (h : R v w) : R (genRun c period f v) (genRun c period g w) := by
  have hloop := genLoop_rel (c := c) (period := period) R htime hsame hstep (c.endTime - v.osc.time) h
  simp only [genRun, ← hsame v w h, ← hsame _ _ hloop]
  exact htime _ _ _ hloop

end

theorem toneStep_sameClock {c : Cfg} (r : Register) (gain gain' : Nibble) {v w : Voice} (h : v.SameClock w) :
    (toneStep c r gain v).SameClock (toneStep c r gain' w) :=
  ⟨h.1, by rw [toneStep_phase, toneStep_phase, h.2]⟩

theorem noiseStep_sameClock {c : Cfg} (col : Color) (volume gain gain' : Nibble) {v w : Voice} (h : v.SameClock w) :
    (noiseStep c col volume gain v).SameClock (noiseStep c col volume gain' w) :=
  ⟨h.1, by rw [noiseStep_phase, noiseStep_phase, h.2]⟩

/-- Two runs of one period, each of whose steps keep the clocks together, keep them together. -/
theorem genRun_sameClock {c : Cfg} {period : Nat} {f g : Voice → Voice}
    (hstep : ∀ v w : Voice, v.SameClock w → (f v).SameClock (g w)) {v w : Voice} (h : v.SameClock w) :
    (genRun c period f v).SameClock (genRun c period g w) :=
  genRun_rel Voice.SameClock (fun _ _ _ h => ⟨rfl, h.2⟩) (fun _ _ h => h.1) hstep h

/-- One Register with two gains runs two channels of one clock alike, whatever the accumulators hold. -/
theorem channelRun_sameClock {c : Cfg} (r : Register) (gain gain' : Nibble) {v w : Voice} (h : v.SameClock w) :
    (channelRun c r gain v).SameClock (channelRun c r gain' w) := by
  unfold channelRun
  split
  · exact genRun_sameClock (fun _ _ => toneStep_sameClock r gain gain') h
  · exact genRun_sameClock (fun _ _ => noiseStep_sameClock _ r.volume gain gain')
      ⟨h.1, congrArg lfsrSeed h.2⟩

/-- The PCM oscillator runs alike over any two accumulators. -/
theorem pcmRun_osc_eq {c : Cfg} (pcm : List Byte) {v w : Voice} (h : v.osc = w.osc) :
    (pcmRun c pcm v).osc = (pcmRun c pcm w).osc :=
  genRun_rel (fun v w => v.osc = w.osc) (fun v w t h => by simp only [Voice.setTime, h])
    (fun v w h => by rw [h]) (fun v w h => by simp only [pcmStep, updateAmp, Voice.setPhase, h]) h

theorem runChannels_sameClock {c : Cfg} (side side' : Side) (snap : Snapshot) {os os' : List Osc} (i : Nat)
    (b b' : BlipState) (h : os.map (fun o => (o.time, o.phase)) = os'.map (fun o => (o.time, o.phase))) :
    (runChannels c side snap i os b).1.map (fun o => (o.time, o.phase)) =
      (runChannels c side' snap i os' b').1.map (fun o => (o.time, o.phase)) := by
  induction os generalizing os' i b b' with
  | nil =>
    obtain rfl : os' = [] := by simpa using h.symm
    rfl
  | cons o rest ih =>
    cases os' with
    | nil => cases h
    | cons o' rest' =>
      obtain ⟨ho, hrest⟩ := List.cons.inj h
      have hv : (channelVoice c side snap i ⟨o, b⟩).SameClock (channelVoice c side' snap i ⟨o', b'⟩) :=
        channelRun_sameClock _ _ _ (Prod.mk.inj ho)
      rw [runChannels_cons, runChannels_cons, List.map_cons, List.map_cons]
      exact congrArg₂ List.cons (Prod.ext hv.1 hv.2) (ih (i + 1) _ _ hrest)

/-- After a render of one snapshot the two sides agree again. -/
theorem finishRender_sidesAgree {s : State} (cur : List Byte) (h : s.SidesAgree) : (finishRender cur s).SidesAgree := by
  obtain ⟨hosc, hpcm⟩ := h
  rw [State.SidesAgree, finishRender_left, finishRender_right]
  exact ⟨runChannels_sameClock .L .R _ 0 _ _ hosc, pcmRun_osc_eq _ hpcm⟩

/-! ### The operations of a trace -/

theorem init_ranges {c : Cfg} (hc : c.wf = true) : (SideState.init c).Ranges c := by
  obtain ⟨-, -, -, -, -, -, hmin, hmax, -, -, hpcm⟩ := Cfg.wf_facts hc
  refine ⟨fun o ho => ?_, Nat.zero_le _, hpcm⟩
  rw [List.eq_of_mem_replicate ho]
  exact ⟨Nat.zero_le _, Nat.lt_of_lt_of_le hmin hmax⟩

theorem init_levelTracks (c : Cfg) : levelTracks c (SideState.init c) = true := by
  cases h : c.blip with
  | zoh => simp [levelTracks, SideState.init, BlipState.init, Osc.init, h]
  | external => simp [levelTracks, SideState.init, BlipState.init, h]

theorem resetWith_soundInv {c : Cfg} (hc : c.wf = true) : (State.resetWith c).SoundInv :=
  ⟨init_ranges hc, init_ranges hc, init_levelTracks c, init_levelTracks c, rfl, rfl⟩

theorem finishRender_soundInv {s : State} (hc : s.cfg.wf = true) (hl : s.left.Shape s.cfg) (hr : s.right.Shape s.cfg)
    (cur : List Byte) (h : s.SoundInv) : (finishRender cur s).SoundInv := by
  obtain ⟨hrangesL, hrangesR, hlevelL, hlevelR, hagree⟩ := h
  obtain ⟨-, -, -, hblipL⟩ := hl
  obtain ⟨-, -, -, hblipR⟩ := hr
  obtain ⟨hrangesL', hlevelL'⟩ := synthSide_sound hc .L cur hrangesL hblipL hlevelL
  obtain ⟨hrangesR', hlevelR'⟩ := synthSide_sound hc .R cur hrangesR hblipR hlevelR
  have hagree' := finishRender_sidesAgree cur hagree
  simp only [State.SoundInv, finishRender_cfg, finishRender_left, finishRender_right]
  exact ⟨hrangesL', hrangesR', hlevelL', hlevelR', hagree'⟩

/-- Settles O20: of the operations of a trace only RESET and RENDER touch a side. -/
theorem traceOperationsKeepSoundInvariant : Obligations.TraceOperationsKeepSoundInvariant := by
  intro i s t hinv hsound htrace hi
  obtain ⟨hc, -, -, hl, hr, -⟩ := hinv
  cases exec_effect hi with
  | reset => exact resetWith_soundInv hc
  | push hm => simpa [State.SoundInv, State.SidesAgree] using hsound
  | renderIgnored hb => exact hsound
  | @render _ cur hb hread =>
    exact finishRender_soundInv (s := { s with busy := true, cur := cur }) hc hl hr cur hsound
  | rtSelect hread => exact hsound
  | rtAdvance => simpa [State.SoundInv, State.SidesAgree] using hsound
  | syncHead hj => exact hsound
  | syncTail hj => exact hsound
  | side hx => rw [hx.inTrace_eq_false] at htrace; cases htrace

/-- Settles O13: `execReset` rebuilds the reset state, in which each part of the two invariants holds. -/
theorem resetStateIsGood : Obligations.ResetStateIsGood := by
  intro c hc
  refine ⟨rfl, resetWith_inv hc, resetWith_soundInv hc, fun s hs => ?_⟩
  subst hs
  rfl

end Sys2Proof.Machine
end

section
/-! PROOFS of the memory family, 1: the producer's and the consumer's slot (spec/20_memory.md R41, R52). -/

namespace Sys2Proof.Machine

/-! ### The read slot -/

/-- One place further back is one place further to go. -/
theorem ringDist_prevIdx {n a b : Nat} (ha : a < n) (hb : b < n) (h : ringDist n a b + 1 < n) :
    ringDist n (prevIdx n a) b = ringDist n a b + 1 := by
  have hp : prevIdx n a < n := Nat.mod_lt _ (by omega)
  rw [ringDist_eq ha hb] at *
  rw [ringDist_eq hp hb, prevIdx_eq ha]
  split_ifs at * <;> omega

theorem nextIdx_lt {n i : Nat} (h : i < n) : nextIdx n i < n := Nat.mod_lt _ (by omega)

theorem prevIdx_nextIdx {n i : Nat} (h : i < n) : prevIdx n (nextIdx n i) = i := by
  rw [prevIdx_eq (nextIdx_lt h), nextIdx_eq h]
  by_cases hwrap : i + 1 = n
  · simp only [if_pos hwrap, if_true]; omega
  · simp [hwrap]

theorem readSlot_lt {s : State} (h : s.tail < s.cfg.ringLen) : s.readSlot < s.cfg.ringLen := Nat.mod_lt _ (by omega)

/-- The slot of a byte address (R41). -/
theorem slotAddr_add_div {c : Cfg} (i : Nat) {j : Nat} (hj : j < c.snapBytes) : (slotAddr c i + j) / c.snapBytes = i := by
  rw [slotAddr, Nat.mul_comm, Nat.mul_add_div (by omega), Nat.div_eq_of_lt hj, Nat.add_zero]

/-- Settles O16: `head` lies `(head - tail) mod N + 1` places ahead of the read slot, which is at least 1 and at most
`N - 1`, so it is another slot. -/
theorem slotExclusivity : Obligations.SlotExclusivity := by
  intro s hc h
  obtain ⟨-, hn, -⟩ := Cfg.wf_facts hc
  obtain ⟨hhead, htail, hhs, hts, hsum⟩ := h
  have hseen := ringDist_add_ringDist hts htail hhs (by omega)
  have hall := ringDist_add_ringDist hts hhs hhead (by omega)
  have hway := ringDist_add_ringDist htail hhs hhead (by omega)
  have hread : ringDist s.cfg.ringLen s.readSlot s.head = ringDist s.cfg.ringLen s.tail s.head + 1 :=
    ringDist_prevIdx htail hhead (by omega)
  have hne : s.head ≠ s.readSlot := by
    intro he
    rw [← he, ringDist_self] at hread
    omega
  refine ⟨by omega, by omega, by omega, by omega, hne, fun j k hj hk he => hne ?_⟩
  calc s.head = (slotAddr s.cfg s.head + j) / s.cfg.snapBytes := (slotAddr_add_div _ hj).symm
    _ = (slotAddr s.cfg s.readSlot + k) / s.cfg.snapBytes := by rw [he]
    _ = s.readSlot := slotAddr_add_div _ hk

end Sys2Proof.Machine
end

section
/-! PROOFS of the memory family, 2: what the ring's operations answer while the indices lie below `RING_LEN`
(spec/20_memory.md R40, R45). -/

namespace Sys2Proof.Machine

/-! ### Reading and writing a slot -/

/-- What RT_SELECT reads is the selected slot, where that lies inside the ring memory. -/
theorem memRead_readSlot_eq_some {s : State} {b : List Byte} :
    memRead s.cfg s.mem (slotAddr s.cfg s.readSlot) s.cfg.snapBytes = some b ↔
      slotAddr s.cfg s.readSlot + s.cfg.snapBytes ≤ s.cfg.ringBytes ∧ b = s.selected := memRead_eq_some

theorem memRead_readSlot {s : State} (h : s.tail < s.cfg.ringLen) :
    memRead s.cfg s.mem (slotAddr s.cfg s.readSlot) s.cfg.snapBytes = some s.selected :=
  memRead_readSlot_eq_some.2 ⟨slot_in_range (readSlot_lt h), rfl⟩

theorem memWrite_slot {c : Cfg} {i : Nat} (m : List Host.Cell) {snap : List Byte} (hi : i < c.ringLen)
    (hs : snap.length = c.snapBytes) : memWrite c m (slotAddr c i) snap = some (writeBytes m (slotAddr c i) snap) :=
  if_pos (hs ▸ slot_in_range hi)

/-! ### The operations -/

theorem exec_push_of_head_lt {s : State} {snap : List Byte} (h : s.head < s.cfg.ringLen)
    (hs : snap.length = s.cfg.snapBytes) :
    exec (.push snap) s = .next (advanceHead { s with mem := writeBytes s.mem (slotAddr s.cfg s.head) snap }) := by
  simp only [exec, execPush, if_pos hs, memWrite_slot s.mem h hs]

theorem execRtSelect_of_memRead {s : State} {cur : List Byte}
    (h : memRead s.cfg s.mem (slotAddr s.cfg s.readSlot) s.cfg.snapBytes = some cur) :
    execRtSelect s = .next { s with cur := cur } :=
  execRtSelect_eq_next.2 ⟨cur, h, rfl⟩

theorem exec_render_of_busy {s : State} (h : s.busy = true) : exec .render s = .next s := by
  simp only [exec, execRender, if_pos h]

theorem exec_render_of_memRead {s : State} {cur : List Byte} (hb : s.busy = false)
    (h : memRead s.cfg s.mem (slotAddr s.cfg s.readSlot) s.cfg.snapBytes = some cur) :
    exec .render s = .next (finishRender cur { s with busy := true, cur := cur }) := by
  simp only [exec, execRender, hb, Bool.false_eq_true, if_false,
    execRtSelect_of_memRead (s := { s with busy := true }) h]

theorem finishRender_frames (cur : List Byte) (s : State) :
    (finishRender cur s).frames = s.frames ++ [⟨(finishRender cur s).left.out, (finishRender cur s).right.out⟩] := by
  simp [finishRender, deliver, synthSideOn]

/-! ### No fault -/

theorem onVoice_ne_fault (id : OscId) (f : Voice → Voice) (s : State) (r : Fault) : onVoice id f s ≠ .fault r := by
  unfold onVoice
  split <;> exact nofun

theorem onVoiceInFrame_ne_fault (id : OscId) (f : Voice → Voice) (s : State) (r : Fault) :
    onVoiceInFrame id f s ≠ .fault r := by
  unfold onVoiceInFrame
  split
  · exact nofun
  · split
    · exact onVoice_ne_fault id f s r
    · exact nofun

/-- An operand check refuses and never faults. -/
theorem ite_refused_ne_fault {p : Prop} [Decidable p] {a : Result} {w : Refusal} {r : Fault} (h : a ≠ .fault r) :
    (if p then a else .refused w) ≠ .fault r := by
  split
  · exact h
  · exact nofun

theorem execSyncHead_ne_fault (pick : SyncPick) (s : State) (r : Fault) : execSyncHead pick s ≠ .fault r := by
  unfold execSyncHead
  split <;> exact nofun

theorem execSyncTail_ne_fault (pick : SyncPick) (s : State) (r : Fault) : execSyncTail pick s ≠ .fault r := by
  unfold execSyncTail
  split <;> exact nofun

/-- Only PUSH, RT_SELECT and RENDER reach the ring memory, and the slots they reach are inside it. -/
theorem exec_ne_fault {s : State} (hhead : s.head < s.cfg.ringLen) (htail : s.tail < s.cfg.ringLen) (i : Instr)
    (r : Fault) : exec i s ≠ .fault r := by
  cases i with
  | reset => exact nofun
  | push snap =>
    by_cases hs : snap.length = s.cfg.snapBytes
    · rw [exec_push_of_head_lt hhead hs]; exact nofun
    · rw [exec, execPush_of_length_ne hs]; exact nofun
  | render =>
    cases hb : s.busy with
    | true => rw [exec_render_of_busy hb]; exact nofun
    | false => rw [exec_render_of_memRead hb (memRead_readSlot htail)]; exact nofun
  | rtSelect => rw [exec, execRtSelect_of_memRead (memRead_readSlot htail)]; exact nofun
  | rtAdvance => exact nofun
  | syncHead pick => exact execSyncHead_ne_fault pick s r
  | syncTail pick => exact execSyncTail_ne_fault pick s r
  | synthSide side cur => exact ite_refused_ne_fault nofun
  | noiseRun0 g freq volume => exact onVoice_ne_fault _ _ s r
  | noiseRun1 g freq volume => exact onVoice_ne_fault _ _ s r
  | toneRun g reg => exact onVoice_ne_fault _ _ s r
  | toneStep g reg => exact onVoiceInFrame_ne_fault _ _ s r
  | noiseStep g col volume => exact onVoiceInFrame_ne_fault _ _ s r
  | pcmRun side pcm => exact ite_refused_ne_fault (onVoice_ne_fault _ _ s r)
  | pcmStep side pcm => exact ite_refused_ne_fault (onVoiceInFrame_ne_fault _ _ s r)
  | updateAmp id new => exact onVoiceInFrame_ne_fault _ _ s r
  | blipAddDelta side t d => exact ite_refused_ne_fault nofun
  | blipReadOut side n => exact ite_refused_ne_fault nofun

/-- A step that faults has run an operation that faults. -/
theorem exec_of_step_fault {s : State} {r : Fault} (h : step s = .fault r) :
    ∃ i rest, exec i { s with inputs := rest } = .fault r := by
  unfold step at h
  split at h
  · cases hi : s.inputs with
    | nil => rw [fetch_of_inputs_nil hi] at h; cases h
    | cons inp rest =>
      rw [fetch_of_inputs_cons hi] at h
      cases hd : decode s.cfg (withBusy s.busy inp) with
      | op i => rw [hd] at h; exact ⟨i, rest, h⟩
      | noOperation => rw [hd] at h; cases h
      | ignored => rw [hd] at h; cases h
      | reject w => rw [hd] at h; cases h
  · cases h

/-- Settles O18: both indices lie below `RING_LEN`, whatever inputs are left. -/
theorem nothingFaults : Obligations.NothingFaults := by
  intro s _ h
  obtain ⟨hhead, htail, -⟩ := h
  refine ⟨exec_ne_fault hhead htail, fun r hstep => ?_⟩
  obtain ⟨i, rest, hi⟩ := exec_of_step_fault hstep
  exact exec_ne_fault (s := { s with inputs := rest }) hhead htail i r hi

/-! ### What a RENDER depends on -/

/-- Settles O56: the rest of a render is a function of the selected bytes and of fields on which the two states agree. -/
theorem renderReadsOnlyTheConsumersState : Obligations.RenderReadsOnlyTheConsumersState := by
  intro s₁ s₂ t₁ hcfg htail hseen hleft hright hbusy hsel h
  cases exec_effect h with
  | renderIgnored hb =>
    exact ⟨s₂, exec_render_of_busy (hbusy ▸ hb), hleft.symm, hright.symm, htail.symm, [], by simp, by simp⟩
  | render hb hread =>
    obtain ⟨hrange, rfl⟩ := memRead_readSlot_eq_some.1 hread
    have hslot : s₁.readSlot = s₂.readSlot := by rw [State.readSlot, State.readSlot, hcfg, htail]
    have hread₂ := memRead_readSlot_eq_some.2 ⟨hcfg ▸ hslot ▸ hrange, hsel⟩
    refine ⟨_, exec_render_of_memRead (hbusy ▸ hb) hread₂, ?_, ?_, ?_, _, finishRender_frames _ _, ?_⟩
    · simp [hcfg, hleft]
    · simp [hcfg, hright]
    · simp [advanceTail_tail, hcfg, htail, hseen]
    · rw [finishRender_frames]
      simp [hcfg, hleft, hright]
  | side hx => cases hx.inTrace_eq_false

end Sys2Proof.Machine
end

section
/-! PROOFS of the memory family, 3: PUSH and RENDER in turn with the views caught up (spec/20_memory.md R51,
spec/40_ring_buffer.md R93, R94). -/

namespace Sys2Proof.Machine

theorem runTrace_append_of_next {is js : List Instr} {s t : State} (h : runTrace is s = .next t) :
    runTrace (is ++ js) s = runTrace js t := by
  induction is generalizing s with
  | nil => cases h; rfl
  | cons i rest ih =>
    cases hi : exec i s with
    | next u =>
      rw [runTrace_cons_next hi] at h
      rw [List.cons_append, runTrace_cons_next hi, ih h]
    | fault r => simp [runTrace, hi] at h
    | refused r => simp [runTrace, hi] at h

/-! ### Both views caught up -/

/-- The state with both views at the present indices (R73). -/
def synced (s : State) : State := { s with headSeen := s.head, tailSeen := s.tail }

theorem exec_syncHead_current {s : State} (h : s.RingInv) :
    exec (.syncHead .current) s = .next { s with headSeen := s.head } := by
  obtain ⟨hhead, -, hhs, -⟩ := h
  simp only [exec, execSyncHead, syncMove, drawsAfter, add_ringDist_mod hhs hhead]

theorem exec_syncTail_current {s : State} (h : s.RingInv) :
    exec (.syncTail .current) s = .next { s with tailSeen := s.tail } := by
  obtain ⟨-, htail, -, hts, -⟩ := h
  simp only [exec, execSyncTail, syncMove, drawsAfter, add_ringDist_mod hts htail]

theorem runTrace_sync {s : State} (hc : s.cfg.wf = true) (h : s.RingInv) :
    runTrace sync s = .next (synced s) ∧ (synced s).RingInv := by
  have hh := exec_syncHead_current h
  have h' : State.RingInv { s with headSeen := s.head } := everyOperationKeepsRingInvariant _ _ _ hc h hh
  have ht := exec_syncTail_current h'
  exact ⟨by rw [sync, runTrace_cons_next hh, runTrace_cons_next ht]; rfl,
    everyOperationKeepsRingInvariant _ { s with headSeen := s.head } _ hc h' ht⟩

/-- `head` and its view stand at `h`, `tail` and its view at `t`, and no render is in progress. -/
structure State.CaughtUp (s : State) (h t : Nat) : Prop where
  wf : s.cfg.wf = true
  ring : s.RingInv
  mem : memWf s.mem = true
  head : s.head = h
  tail : s.tail = t
  headSeen : s.headSeen = h
  tailSeen : s.tailSeen = t
  busy : s.busy = false

/-- Any operation that keeps the configuration and the memory's form and ends with `busy` down, and both SYNC steps
after it. -/
theorem runTrace_cons_sync {i : Instr} {s t : State} (hi : exec i s = .next t) (hs : s.RingInv) (hwf : s.cfg.wf = true)
    (hc : t.cfg = s.cfg) (hm : memWf t.mem = true) (hb : t.busy = false) :
    runTrace (i :: sync) s = .next (synced t) ∧ (synced t).CaughtUp t.head t.tail := by
  have htwf : t.cfg.wf = true := hc ▸ hwf
  obtain ⟨hsync, hring⟩ := runTrace_sync htwf (everyOperationKeepsRingInvariant _ _ _ hwf hs hi)
  exact ⟨(runTrace_cons_next hi).trans hsync, htwf, hring, hm, rfl, rfl, rfl, rfl, hb⟩

/-! ### One round -/

/-- A snapshot written to the slot that RT_SELECT chooses is what it selects. -/
theorem selected_of_mem_eq_writeBytes {s : State} {m : List Host.Cell} {snap : List Byte} (hm : memWf m = true)
    (hs : snap.length = s.cfg.snapBytes) (h : s.mem = writeBytes m (slotAddr s.cfg s.readSlot) snap) :
    s.selected = snap := by
  refine List.ext_getElem (by simp [State.selected, hs]) fun k hk hk' => ?_
  simp only [State.selected, List.getElem_map, List.getElem_range, h, readByte_writeBytes hm]
  rw [if_pos (by omega), Nat.add_sub_cancel_left, List.getD_eq_getElem _ _ hk']

/-- With the indices together a PUSH moves `head` on: the ring is not full. -/
theorem runTrace_push_sync {s : State} {i : Nat} {snap : List Byte} (h : s.CaughtUp i i)
    (hs : snap.length = s.cfg.snapBytes) :
    ∃ t, runTrace (.push snap :: sync) s = .next t ∧ t.CaughtUp (nextIdx s.cfg.ringLen i) i ∧ t.cfg = s.cfg ∧
      t.mem = writeBytes s.mem (slotAddr s.cfg i) snap ∧ t.frames = s.frames := by
  obtain ⟨hwf, hring, hmem, rfl, htail, -, hts, hbusy⟩ := h
  obtain ⟨-, hn, -⟩ := Cfg.wf_facts hwf
  have ⟨hhead, _⟩ := hring
  have hnotfull : s.head ≠ back2 s.cfg.ringLen s.tailSeen := by
    rw [hts, back2_eq hhead (by omega)]
    split_ifs <;> omega
  obtain ⟨hrun, hcaught⟩ := runTrace_cons_sync (exec_push_of_head_lt hhead hs) hring hwf (by simp)
    (by simpa using writeBytes_wf hmem _ _) (by simpa using hbusy)
  refine ⟨_, hrun, ?_, by simp [synced], by simp [synced], by simp [synced]⟩
  simpa [advanceHead_head, hnotfull, htail] using hcaught

/-- With a snapshot ahead of it a RENDER delivers a frame and moves `tail` on: the ring is not empty. -/
theorem runTrace_render_sync {s : State} {head tail : Nat} (h : s.CaughtUp head tail) (hne : tail ≠ head) :
    ∃ t, runTrace (.render :: sync) s = .next t ∧ t.CaughtUp head (nextIdx s.cfg.ringLen tail) ∧ t.cfg = s.cfg ∧
      t.mem = s.mem ∧ t.frames.length = s.frames.length + 1 := by
  obtain ⟨hwf, hring, hmem, rfl, rfl, hhs, -, hbusy⟩ := h
  have ⟨_, htail, _⟩ := hring
  obtain ⟨hrun, hcaught⟩ := runTrace_cons_sync (exec_render_of_memRead hbusy (memRead_readSlot htail)) hring hwf
    (by simp) (by simpa using hmem) rfl
  refine ⟨_, hrun, ?_, by simp [synced], by simp [synced], by simp [synced, finishRender_frames]⟩
  simpa [advanceTail_tail, hhs, hne] using hcaught

/-- PUSH, both SYNC steps, RENDER, both SYNC steps. -/
def round (snap : List Byte) : List Instr := .push snap :: sync ++ .render :: sync

/-- A round moves all four indices on by one, past the slot just written, and delivers a frame. -/
theorem runTrace_round {s : State} {i : Nat} {snap : List Byte} (h : s.CaughtUp i i)
    (hs : snap.length = s.cfg.snapBytes) :
    ∃ t, runTrace (round snap) s = .next t ∧
      t.CaughtUp (nextIdx s.cfg.ringLen i) (nextIdx s.cfg.ringLen i) ∧ t.cfg = s.cfg ∧ t.selected = snap ∧
      t.frames.length = s.frames.length + 1 := by
  obtain ⟨-, hn, -⟩ := Cfg.wf_facts h.wf
  have hi : i < s.cfg.ringLen := h.head ▸ h.ring.1
  have hne : i ≠ nextIdx s.cfg.ringLen i := by rw [nextIdx_eq hi]; split_ifs <;> omega
  obtain ⟨u, hpush, hu, hucfg, humem, huframes⟩ := runTrace_push_sync h hs
  obtain ⟨t, hrender, ht, htcfg, htmem, htframes⟩ := runTrace_render_sync hu hne
  rw [hucfg] at ht htcfg
  have hslot : t.readSlot = i := by rw [State.readSlot, ht.tail, htcfg, prevIdx_nextIdx hi]
  have hsel : t.selected = snap := by
    refine selected_of_mem_eq_writeBytes h.mem (hs.trans (by rw [htcfg])) ?_
    rw [htmem, humem, htcfg, hslot]
  exact ⟨t, (runTrace_append_of_next hpush).trans hrender, ht, htcfg, hsel, by rw [htframes, huframes]⟩

/-! ### Any number of rounds -/

theorem resetWith_caughtUp {c : Cfg} (hc : c.wf = true) : (State.resetWith c).CaughtUp 0 0 :=
  ⟨hc, resetWith_ringInv hc, rfl, rfl, rfl, rfl, rfl, rfl⟩

theorem resetWith_selected (c : Cfg) : (State.resetWith c).selected = List.replicate c.snapBytes 0 := by
  simp [State.selected, readByte, unlistedByte]

theorem runTrace_rounds {c : Cfg} (hc : c.wf = true) {snaps : List (List Byte)}
    (hs : ∀ x ∈ snaps, x.length = c.snapBytes) :
    ∃ s, runTrace (snaps.flatMap round) (State.resetWith c) = .next s ∧ s.cfg = c ∧
      s.CaughtUp (snaps.length % c.ringLen) (snaps.length % c.ringLen) ∧
      s.selected = snaps.getLast?.getD (List.replicate c.snapBytes 0) ∧ s.frames.length = snaps.length := by
  induction snaps using List.reverseRecOn with
  | nil => exact ⟨_, rfl, rfl, by simpa using resetWith_caughtUp hc, resetWith_selected c, rfl⟩
  | append_singleton snaps x ih =>
    obtain ⟨s, hrun, rfl, hcaught, -, hframes⟩ := ih fun y hy => hs y (by simp [hy])
    obtain ⟨t, hround, ht, htcfg, hsel, htframes⟩ := runTrace_round hcaught (hs x (by simp))
    refine ⟨t, ?_, htcfg, ?_, by simpa using hsel, by simp [htframes, hframes]⟩
    · rw [List.flatMap_append, runTrace_append_of_next hrun, List.flatMap_singleton, hround]
    · simpa [nextIdx] using ht

/-- Settles O22: by induction on the rounds, the last one at the end. -/
theorem pushIsRenderedByTheNextRenderButOne : Obligations.PushIsRenderedByTheNextRenderButOne := by
  intro c snaps hc hs
  obtain ⟨s, hrun, -, h, hsel, hframes⟩ := runTrace_rounds hc hs
  exact ⟨s, hrun, hsel, h.head, h.tail.trans h.head.symm, h.headSeen.trans h.head.symm,
    h.tailSeen.trans h.head.symm, hframes⟩

end Sys2Proof.Machine
end

section
/-! PROOFS of the memory family, 4: the bytes of a frame (spec/20_memory.md R42, spec/30_encoding.md R68,
spec/42_synth_frame.md R139). -/

namespace Sys2Proof.Machine

theorem interleave_length {α : Type} (l : List (α × α)) : (l.flatMap fun p => [p.1, p.2]).length = 2 * l.length := by
  induction l with
  | nil => rfl
  | cons p rest ih => simp only [List.flatMap_cons, List.length_append, ih, List.length_cons, List.length_nil]; omega

/-- The elements of pair `k` stand at `2k` and `2k + 1`. -/
theorem interleave_getElem? {α : Type} (l : List (α × α)) (k : Nat) :
    (l.flatMap fun p => [p.1, p.2])[2 * k]? = l[k]?.map Prod.fst ∧
    (l.flatMap fun p => [p.1, p.2])[2 * k + 1]? = l[k]?.map Prod.snd := by
  induction l generalizing k with
  | nil => exact ⟨rfl, rfl⟩
  | cons p rest ih =>
    cases k with
    | zero => exact ⟨rfl, rfl⟩
    | succ k => exact ih k

theorem Frame.pairs_getElem? (f : Frame) {k : Nat} (hl : k < f.left.length) (hr : k < f.right.length) :
    (Frame.pairs f)[k]? = some (f.left.getD k 0, f.right.getD k 0) := by
  simp [Frame.pairs, hl, hr]

/-- A sample is its low byte and 256 times its high byte. -/
theorem sample_toNat_eq_bytes (x : Sample) :
    x.toNat = (x.extractLsb' 0 8).toNat + 256 * (x.extractLsb' 8 8).toNat := by
  have := x.isLt
  simp only [BitVec.extractLsb'_toNat, Nat.shiftRight_eq_div_pow]
  omega

/-- Settles O58: a sample's place in the buffer is its pair's place in the list of pairs, doubled. -/
theorem frameIsInterleavedLeftFirst : Obligations.FrameIsInterleavedLeftFirst := by
  refine ⟨fun f hlen => ?_, fun x => ⟨_, _, rfl, sample_toNat_eq_bytes x⟩⟩
  have hpairs : (Frame.pairs f).length = f.left.length := by simp [Frame.pairs, ← hlen]
  refine ⟨hpairs, by rw [Frame.interleaved, interleave_length, hpairs], fun k hk => ?_, rfl⟩
  have hpair := Frame.pairs_getElem? f hk (hlen ▸ hk)
  obtain ⟨heven, hodd⟩ := interleave_getElem? (Frame.pairs f) k
  simp only [List.getD_eq_getElem?_getD, Frame.interleaved] at *
  simp [hpair, heven, hodd]

end Sys2Proof.Machine
end

section
/-! PROOFS of the memory family, 5: what an operation on one side leaves alone (spec/20_memory.md R45,
spec/41_oscillator.md R106, R109, R115, spec/42_synth_frame.md R131, R135, R136). -/

namespace Sys2Proof.Machine

/-- The oscillator a generator operation works on. -/
def targetOsc : Instr → Option OscId
  | .noiseRun0 g _ _ => some (.chan g.side g.ch)
  | .noiseRun1 g _ _ => some (.chan g.side g.ch)
  | .toneRun g _ => some (.chan g.side g.ch)
  | .toneStep g _ => some (.chan g.side g.ch)
  | .noiseStep g _ _ => some (.chan g.side g.ch)
  | .pcmRun side _ => some (.pcm side)
  | .pcmStep side _ => some (.pcm side)
  | .updateAmp id _ => some id
  | _ => none

/-- The side a generator or accumulator operation works on. -/
def targetSide : Instr → Option Side
  | .synthSide side _ => some side
  | .blipAddDelta side _ _ => some side
  | .blipReadOut side _ => some side
  | i => (targetOsc i).map oscSide

theorem VoiceEffect.targetOsc_eq {c : Cfg} {i : Instr} {id : OscId} {v w : Voice} (h : VoiceEffect c i id v w) :
    targetOsc i = some id := by
  cases h <;> rfl

theorem SideEffect.targetSide_eq {c : Cfg} {i : Instr} {side : Side} {x y : SideState} (h : SideEffect c i side x y) :
    targetSide i = some side := by
  cases h with
  | voice ho hv => cases hv <;> rfl
  | synthSide => rfl
  | blipAddDelta => rfl
  | blipReadOut => rfl

/-- An operation that has a side puts a new state on that side and does nothing else. -/
theorem exec_of_targetSide {i : Instr} {s t : State} {side : Side} (h : exec i s = .next t)
    (hi : targetSide i = some side) : ∃ x, SideEffect s.cfg i side (s.side side) x ∧ t = s.setSide side x := by
  cases exec_effect h with
  | side hx =>
    cases hx.targetSide_eq.symm.trans hi
    exact ⟨_, hx, rfl⟩
  | reset => cases hi
  | push => cases hi
  | renderIgnored => cases hi
  | render => cases hi
  | rtSelect => cases hi
  | rtAdvance => cases hi
  | syncHead => cases hi
  | syncTail => cases hi

theorem targetSide_of_targetOsc {i : Instr} {id : OscId} (h : targetOsc i = some id) :
    targetSide i = some (oscSide id) := by
  cases i <;> cases h <;> rfl

/-- What a generator operation puts on its side is its oscillator and the side's accumulator. -/
theorem SideEffect.eq_putVoice {c : Cfg} {i : Instr} {side : Side} {id : OscId} {x y : SideState}
    (h : SideEffect c i side x y) (hi : targetOsc i = some id) : ∃ v, y = x.putVoice id v := by
  cases h with
  | voice ho hv => cases hv.targetOsc_eq.symm.trans hi; exact ⟨_, rfl⟩
  | synthSide => cases hi
  | blipAddDelta => cases hi
  | blipReadOut => cases hi

theorem exec_of_targetOsc {i : Instr} {s t : State} {id : OscId} (h : exec i s = .next t)
    (hi : targetOsc i = some id) : ∃ v, t = s.setSide (oscSide id) ((s.side (oscSide id)).putVoice id v) := by
  obtain ⟨x, hx, rfl⟩ := exec_of_targetSide h (targetSide_of_targetOsc hi)
  obtain ⟨v, rfl⟩ := hx.eq_putVoice hi
  exact ⟨v, rfl⟩

theorem sameOutside_setSide (s : State) (side : Side) (x : SideState) : s.SameOutside (s.setSide side x) side := by
  cases side <;> simp [State.SameOutside]

theorem exec_chan_frame {i : Instr} {s t : State} {side : Side} {ch : Nat} (h : exec i s = .next t)
    (hi : targetOsc i = some (.chan side ch)) :
    s.SameOutside t side ∧ (t.side side).pcmosc = (s.side side).pcmosc ∧ (t.side side).out = (s.side side).out ∧
      (∀ a, readByte t.mem a = readByte s.mem a) ∧
      ∀ k, k ≠ ch → (t.side side).osc[k]? = (s.side side).osc[k]? := by
  obtain ⟨v, rfl⟩ := exec_of_targetOsc h hi
  refine ⟨sameOutside_setSide s side _, ?_, ?_, fun a => ?_, fun k hk => ?_⟩
  · simp [oscSide]
  · simp [oscSide]
  · simp
  · simp [oscSide, List.getElem?_set_ne hk.symm]

theorem exec_pcm_frame {i : Instr} {s t : State} {side : Side} (h : exec i s = .next t)
    (hi : targetOsc i = some (.pcm side)) :
    s.SameOutside t side ∧ (t.side side).osc = (s.side side).osc ∧ (t.side side).out = (s.side side).out ∧
      ∀ a, readByte t.mem a = readByte s.mem a := by
  obtain ⟨v, rfl⟩ := exec_of_targetOsc h hi
  refine ⟨sameOutside_setSide s side _, ?_, ?_, fun a => ?_⟩
  · simp [oscSide]
  · simp [oscSide]
  · simp

theorem exec_side_frame {i : Instr} {s t : State} {side : Side} (h : exec i s = .next t)
    (hi : targetSide i = some side) : s.SameOutside t side ∧ ∀ a, readByte t.mem a = readByte s.mem a := by
  obtain ⟨x, -, rfl⟩ := exec_of_targetSide h hi
  exact ⟨sameOutside_setSide s side x, fun a => by simp⟩

/-- Settles O60: each alternative is an operation on one channel, on the PCM oscillator, or on one side. -/
theorem generatorFrame : Obligations.GeneratorFrame := by
  intro s t side ch gain
  refine ⟨fun h => ?chan, fun h => ?pcm, fun h => ?side⟩
  case chan =>
    obtain ⟨_, h⟩ | ⟨_, h⟩ | ⟨_, _, h⟩ | ⟨_, _, h⟩ | ⟨_, _, h⟩ | ⟨_, h⟩ := h
    all_goals exact exec_chan_frame h rfl
  case pcm =>
    obtain ⟨_, h⟩ | ⟨_, h⟩ | ⟨_, h⟩ := h
    all_goals exact exec_pcm_frame h rfl
  case side =>
    obtain ⟨_, h⟩ | ⟨_, h⟩ | ⟨_, _, h⟩ := h
    all_goals exact exec_side_frame h rfl

end Sys2Proof.Machine
end

section
/-! PROOFS of the encoding family, 1: the bytes and nibbles of a word, and the Register as 18 bytes and as 144 bits
(spec/30_encoding.md R62, R63). -/

namespace Sys2Proof

/-! ### Nibbles of a byte, digits of a word -/

/-- Two nibbles side by side in a byte: bits 7:4 and bits 3:0. -/
theorem toNat_shiftLeft_four_or {hi lo : Byte} (hhi : hi.toNat < 16) (hlo : lo.toNat < 16) :
    (hi <<< 4 ||| lo).toNat = 16 * hi.toNat + lo.toNat := by
  rw [BitVec.toNat_or, BitVec.toNat_shiftLeft, Nat.shiftLeft_eq, Nat.mod_eq_of_lt (by omega), Nat.mul_comm]
  exact (Nat.two_pow_add_eq_or_of_lt (i := 4) hlo hi.toNat).symm

theorem toNat_nibble (b : Byte) (m : Nat) : ((b >>> (4 * m)) &&& 0x0F#8).toNat = b.toNat / 16 ^ m % 16 := by
  rw [BitVec.toNat_and, BitVec.toNat_ushiftRight, Nat.shiftRight_eq_div_pow, Nat.pow_mul]
  exact Nat.and_two_pow_sub_one_eq_mod _ 4

theorem toNat_setWidth_nibble (x : Nibble) : (x.setWidth 8).toNat = x.toNat :=
  BitVec.toNat_setWidth_of_le (by decide)

/-- Two nibbles widened to a byte. -/
theorem toNat_setWidth_shiftLeft_four_or (hi lo : Nibble) :
    (hi.setWidth 8 <<< 4 ||| lo.setWidth 8).toNat = 16 * hi.toNat + lo.toNat := by
  have hlt (x : Nibble) : (x.setWidth 8).toNat < 16 := by rw [toNat_setWidth_nibble]; exact x.isLt
  rw [toNat_shiftLeft_four_or (hlt hi) (hlt lo), toNat_setWidth_nibble, toNat_setWidth_nibble]

/-- Digit `j` of the number that the bit vectors of a list make, lowest first. -/
theorem ofDigits_map_toNat_div_mod {k : Nat} (l : List (BitVec k)) (j : Nat) :
    Nat.ofDigits (2 ^ k) (l.map BitVec.toNat) / (2 ^ k) ^ j % 2 ^ k = (l.getD j 0).toNat := by
  have hdigit : ∀ x ∈ l.map BitVec.toNat, x < 2 ^ k := by simp [BitVec.isLt]
  rw [Nat.ofDigits_div_pow_eq_ofDigits_drop j (by positivity) _ hdigit, Nat.ofDigits_mod_eq_head!, ← List.map_drop,
    List.getD_eq_getElem?_getD, ← List.head?_drop]
  cases l.drop j with
  | nil => simp
  | cons x xs => simp [Nat.mod_eq_of_lt x.isLt]

theorem ofDigits_map_toNat_lt {k : Nat} (hk : 0 < k) (l : List (BitVec k)) :
    Nat.ofDigits (2 ^ k) (l.map BitVec.toNat) < (2 ^ k) ^ l.length := by
  simpa using Nat.ofDigits_lt_base_pow_length (Nat.one_lt_two_pow hk.ne') (l := l.map BitVec.toNat)
    (by simp [BitVec.isLt])

theorem packNibbles_eq_ofDigits (l : List Nibble) : packNibbles l = Nat.ofDigits (2 ^ 4) (l.map BitVec.toNat) := by
  induction l with
  | nil => rfl
  | cons x xs ih => simp [packNibbles, Nat.ofDigits_cons, ih]

theorem foldr_bytes_eq_ofDigits (b : List Byte) :
    b.foldr (fun x n => x.toNat + 256 * n) 0 = Nat.ofDigits (2 ^ 8) (b.map BitVec.toNat) := by
  induction b with
  | nil => rfl
  | cons x xs ih => simp [Nat.ofDigits_cons, ih]

/-! ### A Register by its fields -/

theorem wave_getD {r : Register} {j : Nat} (hj : j < 32) : r.wave.getD j 0 = r.wave[j] := by
  simp [Vector.getD, hj]

theorem register_eq_of_fields {r s : Register} (hfreq : r.freq = s.freq) (hvolume : r.volume = s.volume)
    (hwave : ∀ j, j < 32 → r.wave.getD j 0 = s.wave.getD j 0) : r = s := by
  have htable : r.wave = s.wave :=
    Vector.ext fun j hj => (wave_getD hj).symm.trans ((hwave j hj).trans (wave_getD hj))
  cases r
  cases s
  cases htable
  cases hfreq
  cases hvolume
  rfl

/-! ### The 144-bit word (R62) -/

theorem registerOfWord_freq (w : BitVec 144) : (registerOfWord w).freq = w.extractLsb' 0 12 := rfl

theorem registerOfWord_volume (w : BitVec 144) : (registerOfWord w).volume = w.extractLsb' 12 4 := rfl

theorem registerOfWord_wave (w : BitVec 144) {j : Nat} (hj : j < 32) :
    (registerOfWord w).wave.getD j 0 = w.extractLsb' (16 + 4 * j) 4 := by
  rw [wave_getD hj]
  simp [registerOfWord]

/-- The three fields hold every bit of the word. -/
theorem registerOfWord_injective {w u : BitVec 144} (h : registerOfWord w = registerOfWord u) : w = u := by
  refine BitVec.eq_of_getLsbD_eq fun i hi => ?_
  by_cases hfreq : i < 12
  · have := congrArg (fun r => r.freq.getLsbD i) h
    simpa [registerOfWord_freq, hfreq] using this
  by_cases hvolume : i < 16
  · have := congrArg (fun r => r.volume.getLsbD (i - 12)) h
    simpa [registerOfWord_volume, show i - 12 < 4 by omega, show 12 + (i - 12) = i by omega] using this
  · have := congrArg (fun r => (r.wave.getD ((i - 16) / 4) 0).getLsbD ((i - 16) % 4)) h
    rw [registerOfWord_wave _ (by omega), registerOfWord_wave _ (by omega), BitVec.getLsbD_extractLsb',
      BitVec.getLsbD_extractLsb', show 16 + 4 * ((i - 16) / 4) + (i - 16) % 4 = i by omega] at this
    simpa [Nat.mod_lt] using this

theorem wordOfRegister_toNat (r : Register) :
    (wordOfRegister r).toNat = r.freq.toNat + 2 ^ 12 * r.volume.toNat + 2 ^ 16 * packNibbles r.wave.toList := by
  have hwave : packNibbles r.wave.toList < 2 ^ 128 := by
    rw [packNibbles_eq_ofDigits]
    simpa using ofDigits_map_toNat_lt (by decide) r.wave.toList
  have hfreq := r.freq.isLt
  have hvolume := r.volume.isLt
  rw [wordOfRegister, BitVec.toNat_ofNat]
  omega

theorem packNibbles_wave (r : Register) (j : Nat) :
    packNibbles r.wave.toList / 16 ^ j % 16 = (r.wave.getD j 0).toNat := by
  have hdigit := ofDigits_map_toNat_div_mod r.wave.toList j
  rw [← packNibbles_eq_ofDigits] at hdigit
  refine hdigit.trans ?_
  simp [Vector.getD, List.getD_eq_getElem?_getD]

/-- Every Register survives its word. -/
theorem registerOfWord_wordOfRegister (r : Register) : registerOfWord (wordOfRegister r) = r := by
  have hfreq := r.freq.isLt
  have hvolume := r.volume.isLt
  refine register_eq_of_fields (BitVec.eq_of_toNat_eq ?_) (BitVec.eq_of_toNat_eq ?_)
    fun j hj => BitVec.eq_of_toNat_eq ?_
  · rw [registerOfWord_freq, BitVec.extractLsb'_toNat, wordOfRegister_toNat]
    simp only [Nat.shiftRight_zero]
    omega
  · rw [registerOfWord_volume, BitVec.extractLsb'_toNat, wordOfRegister_toNat, Nat.shiftRight_eq_div_pow]
    omega
  · rw [registerOfWord_wave _ hj, BitVec.extractLsb'_toNat, wordOfRegister_toNat, Nat.shiftRight_eq_div_pow,
      Nat.pow_add, Nat.pow_mul, ← Nat.div_div_eq_div_mul, ← packNibbles_wave]
    congr 2
    omega

/-- A word is the word of its Register: no bit is dropped. -/
theorem wordOfRegister_registerOfWord (w : BitVec 144) : wordOfRegister (registerOfWord w) = w :=
  registerOfWord_injective (registerOfWord_wordOfRegister _)

/-! ### The 18 bytes (R63) -/

theorem registerOfBytes_freq (b : List Byte) :
    (registerOfBytes b).freq.toNat = (b.getD 1 0).toNat % 16 * 256 + (b.getD 0 0).toNat := by
  have := (b.getD 0 0).isLt
  have hmask := toNat_nibble (b.getD 1 0) 0
  simp only [Nat.mul_zero, BitVec.ushiftRight_zero, Nat.pow_zero, Nat.div_one] at hmask
  rw [registerOfBytes, BitVec.toNat_ofNat, hmask]
  omega

theorem registerOfBytes_volume (b : List Byte) : (registerOfBytes b).volume.toNat = (b.getD 1 0).toNat / 16 := by
  have := (b.getD 1 0).isLt
  rw [registerOfBytes, BitVec.toNat_setWidth, BitVec.toNat_ushiftRight, Nat.shiftRight_eq_div_pow]
  omega

theorem registerOfBytes_wave (b : List Byte) {j : Nat} (hj : j < 32) :
    ((registerOfBytes b).wave.getD j 0).toNat = (b.getD (2 + j / 2) 0).toNat / 16 ^ (j % 2) % 16 := by
  have hj' : (registerOfBytes b).wave.getD j 0 =
      ((b.getD (2 + j / 2) 0 >>> (4 * (j % 2))) &&& 0x0F#8).setWidth 4 := by
    rw [wave_getD hj]
    simp [registerOfBytes]
  rw [hj', BitVec.toNat_setWidth, toNat_nibble, Nat.mod_mod]

theorem bytesOfRegister_length (r : Register) : (bytesOfRegister r).length = 18 := by
  simp [bytesOfRegister]

theorem bytesOfRegister_getD_zero (r : Register) : ((bytesOfRegister r).getD 0 0).toNat = r.freq.toNat % 256 := by
  rw [bytesOfRegister, List.getD_cons_zero, BitVec.toNat_setWidth, BitVec.toNat_and]
  exact (congrArg (· % 2 ^ 8) (Nat.and_two_pow_sub_one_eq_mod _ 8)).trans (Nat.mod_mod _ _)

theorem bytesOfRegister_getD_one (r : Register) :
    ((bytesOfRegister r).getD 1 0).toNat = 16 * r.volume.toNat + r.freq.toNat / 256 := by
  have hfreq := r.freq.isLt
  have hhigh : ((r.freq >>> 8).setWidth 8).toNat = r.freq.toNat / 256 := by
    rw [BitVec.toNat_setWidth, BitVec.toNat_ushiftRight, Nat.shiftRight_eq_div_pow]
    omega
  rw [bytesOfRegister, List.getD_cons_succ, List.getD_cons_zero,
    toNat_shiftLeft_four_or (by rw [toNat_setWidth_nibble]; exact r.volume.isLt) (by omega), toNat_setWidth_nibble,
    hhigh]

theorem bytesOfRegister_getD_wave (r : Register) {k : Nat} (hk : k < 16) :
    ((bytesOfRegister r).getD (2 + k) 0).toNat =
      16 * (r.wave.getD (2 * k + 1) 0).toNat + (r.wave.getD (2 * k) 0).toNat := by
  have hbyte : (bytesOfRegister r).getD (2 + k) 0 =
      (r.wave.getD (2 * k) 0).setWidth 8 ||| ((r.wave.getD (2 * k + 1) 0).setWidth 8 <<< 4) := by
    rw [bytesOfRegister, Nat.add_comm, List.getD_cons_succ, List.getD_cons_succ]
    simp [List.getD_eq_getElem?_getD, hk]
  rw [hbyte, BitVec.or_comm, toNat_setWidth_shiftLeft_four_or]

/-- Every Register survives its bytes. -/
theorem registerOfBytes_bytesOfRegister (r : Register) : registerOfBytes (bytesOfRegister r) = r := by
  have hfreq := r.freq.isLt
  refine register_eq_of_fields (BitVec.eq_of_toNat_eq ?_) (BitVec.eq_of_toNat_eq ?_)
    fun j hj => BitVec.eq_of_toNat_eq ?_
  · rw [registerOfBytes_freq, bytesOfRegister_getD_one, bytesOfRegister_getD_zero]
    omega
  · rw [registerOfBytes_volume, bytesOfRegister_getD_one]
    omega
  · have hlow := (r.wave.getD (2 * (j / 2)) 0).isLt
    have hhigh := (r.wave.getD (2 * (j / 2) + 1) 0).isLt
    rw [registerOfBytes_wave _ hj, bytesOfRegister_getD_wave r (by omega)]
    obtain ⟨k, rfl | rfl⟩ := j.even_or_odd'
    · simp only [show 2 * k / 2 = k by omega, show 2 * k % 2 = 0 by omega] at *
      omega
    · simp only [show (2 * k + 1) / 2 = k by omega, show (2 * k + 1) % 2 = 1 by omega] at *
      omega

/-- Bytes of the right number are the bytes of their Register. -/
theorem bytesOfRegister_registerOfBytes {b : List Byte} (hb : b.length = 18) :
    bytesOfRegister (registerOfBytes b) = b := by
  have hbyte (i : Nat) : (b.getD i 0).toNat < 256 := (b.getD i 0).isLt
  have heq : ∀ i, i < 18 → (bytesOfRegister (registerOfBytes b)).getD i 0 = b.getD i 0 := by
    intro i hi
    refine BitVec.eq_of_toNat_eq ?_
    match i with
    | 0 =>
      have := hbyte 0
      rw [bytesOfRegister_getD_zero, registerOfBytes_freq]
      omega
    | 1 =>
      have := hbyte 0
      have := hbyte 1
      rw [bytesOfRegister_getD_one, registerOfBytes_freq, registerOfBytes_volume]
      omega
    | k + 2 =>
      have := hbyte (k + 2)
      rw [Nat.add_comm, bytesOfRegister_getD_wave _ (by omega), registerOfBytes_wave _ (by omega),
        registerOfBytes_wave _ (by omega), show 2 + 2 * k / 2 = k + 2 by omega,
        show 2 + (2 * k + 1) / 2 = k + 2 by omega, show 2 * k % 2 = 0 by omega, show (2 * k + 1) % 2 = 1 by omega, Nat.add_comm 2 k]
      omega
  refine List.ext_getElem (by rw [bytesOfRegister_length, hb]) fun i hi hi' => ?_
  rw [← List.getD_eq_getElem _ 0, heq i (by omega), List.getD_eq_getElem _ _ hi']

/-- Settles O3: the fields and the bytes one by one, as numbers. -/
theorem registerFieldsFromBytes : Obligations.RegisterFieldsFromBytes :=
  ⟨fun b hb => ⟨registerOfBytes_freq b, registerOfBytes_volume b, fun _ hj => registerOfBytes_wave b hj,
      bytesOfRegister_registerOfBytes hb⟩,
    fun r => ⟨bytesOfRegister_length r, registerOfBytes_bytesOfRegister r⟩, by decide, by decide⟩

/-! ### The bytes as a word -/

theorem foldr_bytes_div_mod (b : List Byte) (j : Nat) :
    b.foldr (fun x n => x.toNat + 256 * n) 0 / 256 ^ j % 256 = (b.getD j 0).toNat := by
  rw [foldr_bytes_eq_ofDigits]
  exact ofDigits_map_toNat_div_mod b j

theorem foldr_bytes_lt {b : List Byte} (hb : b.length = 18) : b.foldr (fun x n => x.toNat + 256 * n) 0 < 2 ^ 144 := by
  rw [foldr_bytes_eq_ofDigits]
  simpa [hb] using ofDigits_map_toNat_lt (by decide) b

/-- A nibble of a number is a nibble of one of its bytes. -/
theorem div_pow_mod_nibble (n k m : Nat) (hm : m < 2) :
    n / 16 ^ (2 * k + m) % 16 = n / 256 ^ k % 256 / 16 ^ m % 16 := by
  rw [Nat.pow_add, Nat.pow_mul, ← Nat.div_div_eq_div_mul, show 16 ^ 2 = 256 from rfl]
  generalize n / 256 ^ k = q
  interval_cases m <;> omega

/-- The byte layout and the 144-bit value are the same Register (R62). -/
theorem registerOfBytes_eq_registerOfWord {b : List Byte} (hb : b.length = 18) :
    registerOfBytes b = registerOfWord (BitVec.ofNat 144 (b.foldr (fun x n => x.toNat + 256 * n) 0)) := by
  have hlt := foldr_bytes_lt hb
  have hdigit := foldr_bytes_div_mod b
  generalize b.foldr (fun x n => x.toNat + 256 * n) 0 = n at *
  have hn : (BitVec.ofNat 144 n).toNat = n := Nat.mod_eq_of_lt hlt
  have hlow := hdigit 0
  have hhigh := hdigit 1
  refine register_eq_of_fields (BitVec.eq_of_toNat_eq ?_) (BitVec.eq_of_toNat_eq ?_)
    fun j hj => BitVec.eq_of_toNat_eq ?_
  · rw [registerOfBytes_freq, registerOfWord_freq, BitVec.extractLsb'_toNat, hn, Nat.shiftRight_zero]
    omega
  · rw [registerOfBytes_volume, registerOfWord_volume, BitVec.extractLsb'_toNat, hn, Nat.shiftRight_eq_div_pow]
    omega
  · rw [registerOfBytes_wave _ hj, registerOfWord_wave _ hj, BitVec.extractLsb'_toNat, hn, Nat.shiftRight_eq_div_pow,
      ← hdigit, ← div_pow_mod_nibble _ _ _ (Nat.mod_lt _ (by decide)),
      show 2 * (2 + j / 2) + j % 2 = 4 + j by omega, show 16 + 4 * j = 4 * (4 + j) by omega, Nat.pow_mul]

/-- Settles O4: both layouts give the same fields, and the word's fields hold each of its bits. -/
theorem registerWordLayout : Obligations.RegisterWordLayout :=
  ⟨fun _ hb => registerOfBytes_eq_registerOfWord hb,
    fun w => ⟨rfl, rfl, fun _ hj => registerOfWord_wave w hj, wordOfRegister_registerOfWord w⟩,
    registerOfWord_wordOfRegister⟩

end Sys2Proof
end

section
/-! PROOFS of the encoding family, 2: the generator a Register selects, and operations to words and back
(spec/30_encoding.md R61, R64, R71, spec/41_oscillator.md R102). -/

namespace Sys2Proof

open Sys2Proof.Machine

/-! ### Flat tables (R64) -/

/-- Every sample of the table is `x`. -/
def Register.Flat (r : Register) (x : Nibble) : Prop := ∀ j, j < 32 → r.wave.getD j 0 = x

/-- The sample of the flat table that stands for noise of a color. -/
def flatNibble : Color → Nibble
  | .zero => 0x0#4
  | .one => 0xF#4

theorem all_wave_eq_iff_flat (r : Register) (x : Nibble) : r.wave.toList.all (fun y => y == x) = true ↔ r.Flat x := by
  rw [List.all_eq_true]
  refine ⟨fun h j hj => ?_, fun h y hy => ?_⟩
  · rw [wave_getD hj]
    exact eq_of_beq (h _ (by simp))
  · obtain ⟨j, hj, rfl⟩ := List.getElem_of_mem hy
    have hj' : j < 32 := by simpa using hj
    exact beq_iff_eq.2 ((wave_getD hj').symm.trans (h j hj'))

theorem noise_eq_true_iff (r : Register) : noise r = true ↔ ∃ col, r.Flat (flatNibble col) := by
  rw [noise, Bool.or_eq_true, all_wave_eq_iff_flat, all_wave_eq_iff_flat]
  refine ⟨fun h => h.elim (⟨.zero, ·⟩) (⟨.one, ·⟩), ?_⟩
  rintro ⟨_ | _, h⟩
  · exact .inl h
  · exact .inr h

theorem color_eq_one_iff (r : Register) : color r = .one ↔ (r.wave.getD 0 0).getLsbD 0 = true := by
  rw [color]
  split <;> simp_all

/-- The color of a flat table is the one it stands for, so a table is flat for one color only. -/
theorem Register.Flat.color_eq {r : Register} {col : Color} (h : r.Flat (flatNibble col)) : color r = col := by
  rw [color, h 0 (by decide)]
  cases col <;> rfl

theorem flatRegister_flat (col : Color) (freq : BitVec 12) (volume : Nibble) :
    (flatRegister col freq volume).Flat (flatNibble col) := by
  intro j hj
  rw [wave_getD hj]
  exact Vector.getElem_replicate hj

/-- A Register with a flat table is its frequency and volume. -/
theorem Register.Flat.eq_flatRegister {r : Register} {col : Color} (h : r.Flat (flatNibble col)) :
    flatRegister col r.freq r.volume = r :=
  register_eq_of_fields rfl rfl fun j hj => (flatRegister_flat _ _ _ j hj).trans (h j hj).symm

/-! ### The selected generator (R102) -/

theorem genSelect_of_flat {r : Register} {col : Color} (h : r.Flat (flatNibble col)) : genSelect r = .noise col := by
  rw [genSelect, if_pos ((noise_eq_true_iff r).2 ⟨col, h⟩), h.color_eq]

theorem genSelect_of_not_noise {r : Register} (h : noise r = false) : genSelect r = .tone := by
  rw [genSelect, h]
  rfl

/-- Everything the waveform multiplexer can select, and when. -/
theorem genSelect_cases (r : Register) :
    (∃ col, r.Flat (flatNibble col) ∧ genSelect r = .noise col) ∨
    (∀ col, ¬ r.Flat (flatNibble col)) ∧ genSelect r = .tone := by
  cases hnoise : noise r with
  | true =>
    obtain ⟨col, hflat⟩ := (noise_eq_true_iff r).1 hnoise
    exact .inl ⟨col, hflat, genSelect_of_flat hflat⟩
  | false =>
    refine .inr ⟨fun col hflat => ?_, genSelect_of_not_noise hnoise⟩
    rw [(noise_eq_true_iff r).2 ⟨col, hflat⟩] at hnoise
    cases hnoise

theorem genSelect_eq_noise_iff (r : Register) (col : Color) : genSelect r = .noise col ↔ r.Flat (flatNibble col) := by
  refine ⟨fun h => ?_, genSelect_of_flat⟩
  obtain ⟨col', hflat, hsel⟩ | ⟨-, hsel⟩ := genSelect_cases r
  · cases hsel.symm.trans h
    exact hflat
  · cases hsel.symm.trans h

theorem genSelect_eq_tone_iff (r : Register) : genSelect r = .tone ↔ ∀ col, ¬ r.Flat (flatNibble col) := by
  obtain ⟨col, hflat, hsel⟩ | ⟨hflat, hsel⟩ := genSelect_cases r
  · exact ⟨fun h => absurd (hsel.symm.trans h) nofun, fun h => absurd hflat (h col)⟩
  · exact ⟨fun _ => hflat, fun _ => hsel⟩

/-! ### The same choice by mask and match (R71) -/

theorem waveMask_getLsbD {i : Nat} (hi : i < 144) : waveMask.getLsbD i = decide (16 ≤ i) := by
  have hmask : waveMask = BitVec.allOnes 144 <<< 16 := by decide
  rw [hmask, BitVec.getLsbD_shiftLeft, BitVec.getLsbD_allOnes]
  by_cases h : i < 16
  · simp [hi, h]
  · simp [hi, h, show i - 16 < 144 by omega, show 16 ≤ i by omega]

/-- The bits 143:16 of a word are all the same exactly when its table is flat at the nibble of that bit. -/
theorem flat_registerOfWord_iff {w : BitVec 144} {x : Nibble} {bit : Bool} (hx : ∀ k, k < 4 → x.getLsbD k = bit) :
    (registerOfWord w).Flat x ↔ ∀ i, i < 144 → 16 ≤ i → w.getLsbD i = bit := by
  refine ⟨fun h i hi hi' => ?_, fun h j hj => ?_⟩
  · have hk : (i - 16) % 4 < 4 := Nat.mod_lt _ (by decide)
    have hj := h ((i - 16) / 4) (by omega)
    rw [registerOfWord_wave _ (by omega)] at hj
    have hbit := hx _ hk
    rw [← hj, BitVec.getLsbD_extractLsb', show 16 + 4 * ((i - 16) / 4) + (i - 16) % 4 = i by omega] at hbit
    simpa [hk] using hbit
  · rw [registerOfWord_wave _ hj]
    refine BitVec.eq_of_getLsbD_eq fun k hk => ?_
    rw [BitVec.getLsbD_extractLsb', hx k hk, h _ (by omega) (by omega)]
    simp [hk]

theorem and_waveMask_eq_zero_iff (w : BitVec 144) :
    w &&& waveMask = 0 ↔ genSelect (registerOfWord w) = .noise .zero := by
  rw [genSelect_eq_noise_iff, flat_registerOfWord_iff (bit := false) (by decide), BitVec.eq_of_getLsbD_eq_iff]
  refine forall₂_congr fun i hi => ?_
  rw [BitVec.getLsbD_and, waveMask_getLsbD hi]
  simp [imp_iff_not_or, or_comm]

theorem and_waveMask_eq_waveMask_iff (w : BitVec 144) :
    w &&& waveMask = waveMask ↔ genSelect (registerOfWord w) = .noise .one := by
  rw [genSelect_eq_noise_iff, flat_registerOfWord_iff (bit := true) (by decide), BitVec.eq_of_getLsbD_eq_iff]
  refine forall₂_congr fun i hi => ?_
  rw [BitVec.getLsbD_and, waveMask_getLsbD hi]
  simp

theorem genOfWord_eq_genSelect (w : BitVec 144) : genOfWord w = genSelect (registerOfWord w) := by
  simp only [genOfWord, and_waveMask_eq_zero_iff, and_waveMask_eq_waveMask_iff]
  cases hsel : genSelect (registerOfWord w) with
  | tone => rfl
  | noise col => cases col <;> rfl

/-- Settles O6: flat at the nibble of a color is what the multiplexer looks for. -/
theorem generatorSelect : Obligations.GeneratorSelect := by
  refine ⟨genOfWord_eq_genSelect, fun r => ⟨genSelect_eq_noise_iff r .zero, genSelect_eq_noise_iff r .one, ?_,
    fun _ => color_eq_one_iff r⟩⟩
  rw [genSelect_eq_tone_iff]
  refine ⟨fun h => ⟨h .zero, h .one⟩, fun ⟨hzero, hone⟩ col => ?_⟩
  cases col
  · exact hzero
  · exact hone

/-! ### The run a Register word stands for -/

/-- The noise run of a color, one operation of the opcode table for each. -/
def noiseRunOf (g : GenCtx) (col : Color) (freq : BitVec 12) (volume : Nibble) : Instr :=
  match col with
  | .zero => .noiseRun0 g freq volume
  | .one => .noiseRun1 g freq volume

theorem encode_noiseRunOf (g : GenCtx) (col : Color) (freq : BitVec 12) (volume : Nibble) :
    encode (noiseRunOf g col freq volume) = .reg g (wordOfRegister (flatRegister col freq volume)) := by
  cases col <;> rfl

theorem runOfWord_of_noise {w : BitVec 144} {col : Color} (g : GenCtx) (h : genSelect (registerOfWord w) = .noise col) :
    runOfWord g w = noiseRunOf g col (registerOfWord w).freq (registerOfWord w).volume := by
  rw [runOfWord, genOfWord_eq_genSelect, h]
  cases col <;> rfl

theorem runOfWord_of_tone {w : BitVec 144} (g : GenCtx) (h : genSelect (registerOfWord w) = .tone) :
    runOfWord g w = .toneRun g (registerOfWord w) := by
  rw [runOfWord, genOfWord_eq_genSelect, h]

theorem encode_runOfWord (g : GenCtx) (w : BitVec 144) : encode (runOfWord g w) = .reg g w := by
  obtain ⟨col, hflat, hsel⟩ | ⟨-, hsel⟩ := genSelect_cases (registerOfWord w)
  · rw [runOfWord_of_noise g hsel, encode_noiseRunOf, hflat.eq_flatRegister, wordOfRegister_registerOfWord]
  · rw [runOfWord_of_tone g hsel, encode, wordOfRegister_registerOfWord]

theorem runOfWord_flatRegister (g : GenCtx) (col : Color) (freq : BitVec 12) (volume : Nibble) :
    runOfWord g (wordOfRegister (flatRegister col freq volume)) = noiseRunOf g col freq volume := by
  have hreg := registerOfWord_wordOfRegister (flatRegister col freq volume)
  rw [runOfWord_of_noise g (hreg.symm ▸ genSelect_of_flat (flatRegister_flat col freq volume)), hreg]
  rfl

theorem runOfWord_wordOfRegister {r : Register} (g : GenCtx) (h : noise r = false) :
    runOfWord g (wordOfRegister r) = .toneRun g r := by
  have hreg := registerOfWord_wordOfRegister r
  rw [runOfWord_of_tone g (hreg.symm ▸ genSelect_of_not_noise h), hreg]

theorem checked_eq_op {c : Cfg} {i j : Instr} (h : checked c i = .op j) : i = j ∧ i.wf c = true := by
  unfold checked at h
  split at h
  · next hwf => cases h; exact ⟨rfl, hwf⟩
  · cases h

theorem checked_of_wf {c : Cfg} {i : Instr} (h : i.wf c = true) : checked c i = .op i := if_pos h

/-- Settles O2: the operation is the run the word selects. -/
theorem encodeOfDecodedRegisterWord : Obligations.EncodeOfDecodedRegisterWord := by
  intro c g w i h
  rw [← (checked_eq_op h).1, encode_runOfWord]

/-! ### Every operation from its word -/

theorem decode_internal {c : Cfg} {i : Instr} (hword : i.hasWord = false) (h : i.wf c = true) :
    decode c (.internal i) = .op i := by
  rw [decode, hword]
  exact checked_of_wf h

theorem decode_reg {c : Cfg} {g : GenCtx} {w : BitVec 144} {i : Instr} (hrun : runOfWord g w = i) (h : i.wf c = true) :
    decode c (.reg g w) = .op i := by
  rw [decode, hrun, checked_of_wf h]

/-- Settles O1: a case for each operation: a port word, a Register word, or the operation itself. -/
theorem decodeOfEncode : Obligations.DecodeOfEncode := by
  intro c i h
  cases i with
  | reset => rfl
  | push snap => exact checked_of_wf h
  | render => rfl
  | noiseRun0 g freq volume => exact decode_reg (runOfWord_flatRegister g .zero freq volume) h
  | noiseRun1 g freq volume => exact decode_reg (runOfWord_flatRegister g .one freq volume) h
  | toneRun g r =>
    have hnoise : noise r = false := by
      simp only [Instr.wf, Bool.and_eq_true, Bool.not_eq_true'] at h
      exact h.2
    exact decode_reg (runOfWord_wordOfRegister g hnoise) h
  | rtSelect => exact decode_internal rfl h
  | rtAdvance => exact decode_internal rfl h
  | syncHead pick => exact decode_internal rfl h
  | syncTail pick => exact decode_internal rfl h
  | synthSide side cur => exact decode_internal rfl h
  | toneStep g r => exact decode_internal rfl h
  | noiseStep g col volume => exact decode_internal rfl h
  | pcmRun side pcm => exact decode_internal rfl h
  | pcmStep side pcm => exact decode_internal rfl h
  | updateAmp osc new => exact decode_internal rfl h
  | blipAddDelta side t d => exact decode_internal rfl h
  | blipReadOut side n => exact decode_internal rfl h

/-! ### Words at the ports (R61) -/

theorem decodePport_eq {c : Cfg} {snap : List Byte} (h : snap.length = c.snapBytes) (w : BitVec 2) :
    decodePport c w snap =
      if w.getLsbD 1 then .op .reset else if w.getLsbD 0 then .op (.push snap) else .noOperation := by
  have hpush : checked c (.push snap) = .op (.push snap) := checked_of_wf (beq_iff_eq.2 h)
  have hstrobe : ∀ u : BitVec 2, u.getLsbD 1 = false → (u &&& 0x3#2 = 0x1#2 ↔ u.getLsbD 0 = true) := by decide
  rw [decodePport, hpush]
  cases hrst : w.getLsbD 1 with
  | true => rfl
  | false => simp only [hstrobe w hrst]

/-- The PPORT word of the table carries as many zero bytes as a snapshot has. -/
theorem decodeTableWord_push : decodeTableWord 2 1 = some (.push (List.replicate refCfg.snapBytes 0)) := by
  have hword : decode refCfg (tableInput refCfg 2 1) = .op (.push (List.replicate refCfg.snapBytes 0)) :=
    decodePport_eq List.length_replicate 1#2
  rw [decodeTableWord, hword]

/-- Settles O7: each word read as its format and in REFCFG. -/
theorem writtenOutWordsDecode : Obligations.WrittenOutWordsDecode :=
  have hsnap : refCfg.snapBytes = 204 := rfl
  ⟨rfl, hsnap ▸ decodeTableWord_push, rfl, rfl, rfl, by decide, by decide, by decide⟩

theorem decodeCport_withBusy (c : Cfg) (busy : Bool) (w : BitVec 3) :
    decode c (withBusy busy (.cport w)) =
      if w.getLsbD 2 then .op .reset
      else if w.getLsbD 0 then (if busy then .ignored else .op .render) else .noOperation := by
  simp only [withBusy, decode]
  revert busy w
  decide

/-- Settles O8: each value of the port words. -/
theorem portValuesDecode : Obligations.PortValuesDecode :=
  fun c busy _ hsnap => ⟨rfl, rfl, decodePport_eq hsnap, decodeCport_withBusy c busy⟩

end Sys2Proof
end

section
/-! PROOFS of the encoding family, 3: the values a SYNC takes, and the pseudo-operations of a trace (spec/30_encoding.md
R72, R73, spec/40_ring_buffer.md R85, R86, spec/42_synth_frame.md R133). -/

namespace Sys2Proof.Machine

/-! ### The range of a SYNC (R85, R86) -/

/-- The values within the distance from the view to the index are the ones some number of places ahead of the view. -/
theorem exists_add_mod_iff {n seen idx v : Nat} (hseen : seen < n) :
    (∃ j, j ≤ ringDist n seen idx ∧ v = (seen + j) % n) ↔ v < n ∧ ringDist n seen v ≤ ringDist n seen idx := by
  constructor
  · rintro ⟨j, hj, rfl⟩
    have hjn : j < n := Nat.lt_of_le_of_lt hj (ringDist_lt (by omega) seen idx)
    have hdist := ringDist_move_end (j := j) hseen hseen (by rw [ringDist_self]; omega)
    rw [ringDist_self] at hdist
    exact ⟨Nat.mod_lt _ (by omega), by omega⟩
  · rintro ⟨hv, hdist⟩
    exact ⟨_, hdist, (add_ringDist_mod hseen hv).symm⟩

theorem syncMove_value_of_le {n seen idx v : Nat} (draws : Nat) (h : v < n ∧ ringDist n seen v ≤ ringDist n seen idx) :
    syncMove n seen idx draws (.value v) = some (ringDist n seen v) := if_pos h

theorem syncMove_value_of_not_le {n seen idx v : Nat} (draws : Nat)
    (h : ¬ (v < n ∧ ringDist n seen v ≤ ringDist n seen idx)) : syncMove n seen idx draws (.value v) = none := if_neg h

theorem exec_syncHead_of_syncMove {s : State} {pick : SyncPick} {j : Nat}
    (h : syncMove s.cfg.ringLen s.headSeen s.head s.draws pick = some j) :
    exec (.syncHead pick) s =
      .next { s with headSeen := (s.headSeen + j) % s.cfg.ringLen, draws := drawsAfter s.draws pick } := by
  simp only [exec, execSyncHead, h]

theorem exec_syncTail_of_syncMove {s : State} {pick : SyncPick} {j : Nat}
    (h : syncMove s.cfg.ringLen s.tailSeen s.tail s.draws pick = some j) :
    exec (.syncTail pick) s =
      .next { s with tailSeen := (s.tailSeen + j) % s.cfg.ringLen, draws := drawsAfter s.draws pick } := by
  simp only [exec, execSyncTail, h]

theorem exec_syncHead_of_syncMove_none {s : State} {pick : SyncPick}
    (h : syncMove s.cfg.ringLen s.headSeen s.head s.draws pick = none) :
    exec (.syncHead pick) s = .refused .syncValue := by
  simp only [exec, execSyncHead, h]

theorem exec_syncTail_of_syncMove_none {s : State} {pick : SyncPick}
    (h : syncMove s.cfg.ringLen s.tailSeen s.tail s.draws pick = none) :
    exec (.syncTail pick) s = .refused .syncValue := by
  simp only [exec, execSyncTail, h]

/-- Settles O25: a value is in the range exactly when its distance from the view is at most that of `head`. -/
theorem syncHeadReachesExactlyTheRange : Obligations.SyncHeadReachesExactlyTheRange := by
  intro s _ hring
  have ⟨_, _, hseen, _⟩ := hring
  refine ⟨fun v hv => ?_, fun v hv => ?_, exec_syncHead_current hring, _,
    syncMove_le (draws := s.draws) (pick := .draw) rfl, exec_syncHead_of_syncMove rfl⟩
  · have hrange := (exists_add_mod_iff hseen).1 hv
    rw [exec_syncHead_of_syncMove (syncMove_value_of_le _ hrange), add_ringDist_mod hseen hrange.1]
    rfl
  · exact exec_syncHead_of_syncMove_none (syncMove_value_of_not_le _ (mt (exists_add_mod_iff hseen).2 hv))

/-- Settles O26: the same for `tail_seen` and `tail`. -/
theorem syncTailReachesExactlyTheRange : Obligations.SyncTailReachesExactlyTheRange := by
  intro s _ hring
  have ⟨_, _, _, hseen, _⟩ := hring
  refine ⟨fun v hv => ?_, fun v hv => ?_, exec_syncTail_current hring, _,
    syncMove_le (draws := s.draws) (pick := .draw) rfl, exec_syncTail_of_syncMove rfl⟩
  · have hrange := (exists_add_mod_iff hseen).1 hv
    rw [exec_syncTail_of_syncMove (syncMove_value_of_le _ hrange), add_ringDist_mod hseen hrange.1]
    rfl
  · exact exec_syncTail_of_syncMove_none (syncMove_value_of_not_le _ (mt (exists_add_mod_iff hseen).2 hv))

/-! ### Pseudo-operations (R73) -/

theorem runTrace_singleton_of_next {i : Instr} {s t : State} (h : exec i s = .next t) : runTrace [i] s = .next t :=
  runTrace_cons_next h

theorem synthSound_of_ne {n : Nat} {s : State} (h : n ≠ s.cfg.samplesPerFrame) :
    synthSound n s = .refused .sampleCount := if_neg h

theorem advanceTail_eq (s : State) :
    advanceTail s = { s with tail := if s.tail = s.headSeen then s.tail else (s.tail + 1) % s.cfg.ringLen } := by
  have honly : advanceTail s = { s with tail := (advanceTail s).tail } := by unfold advanceTail; split <;> rfl
  rw [honly, advanceTail_tail, nextIdx]

/-- RENDER_TICK is RT_SELECT and then RT_ADVANCE, which reads nothing that RT_SELECT writes. -/
theorem runTrace_renderTick {s : State} (h : s.tail < s.cfg.ringLen) :
    runTrace renderTick s = .next (advanceTail { s with cur := s.selected }) := by
  have hselect : exec .rtSelect s = .next { s with cur := s.selected } := execRtSelect_of_memRead (memRead_readSlot h)
  rw [renderTick, runTrace_cons_next hselect, runTrace_singleton_of_next rfl]

/-- Settles O59: an expansion at a time. -/
theorem pseudoOperationsExpand : Obligations.PseudoOperationsExpand := by
  intro s hc hring
  have ⟨hhead, htail, _⟩ := hring
  refine ⟨fun snap hsnap => ?_, if_pos rfl, fun n hn => synthSound_of_ne hn, (runTrace_sync hc hring).1, ?_⟩
  · have hpush := exec_push_of_head_lt hhead hsnap
    exact ⟨_, runTrace_singleton_of_next hpush, hpush⟩
  · rw [runTrace_renderTick htail, advanceTail_eq]

end Sys2Proof.Machine
end

section
/-! PROOFS of the encoding family, 4: the bytes of a snapshot (spec/30_encoding.md R65 to R67,
spec/20_memory.md R41). -/

namespace Sys2Proof

/-! ### Lists cut into parts -/

theorem map_range_eq {α : Type} {f : Nat → α} {l : List α} {n : Nat} (hl : l.length = n)
    (h : ∀ k (hk : k < l.length), f k = l[k]) : (List.range n).map f = l :=
  List.ext_getElem (by simp [hl]) fun k _ hk => by simpa using h k hk

theorem getD_drop {α : Type} (l : List α) (m k : Nat) (d : α) : (l.drop m).getD k d = l.getD (m + k) d := by
  simp [List.getD_eq_getElem?_getD]

theorem flatMap_range_drop_take {α : Type} (l : List α) (m n : Nat) :
    ((List.range n).flatMap fun i => (l.drop (m * i)).take m) = l.take (m * n) := by
  induction n with
  | zero => simp
  | succ n ih => rw [List.range_succ, List.flatMap_append, ih, List.flatMap_singleton, Nat.mul_succ, List.take_add]

theorem flatMap_append_drop_take {α β : Type} {f : α → List β} {m : Nat} (hf : ∀ x, (f x).length = m) (l : List α)
    (rest : List β) (i : Nat) (hi : i < l.length) : ((l.flatMap f ++ rest).drop (m * i)).take m = f l[i] := by
  induction l generalizing i with
  | nil => cases hi
  | cons x xs ih =>
    rw [List.flatMap_cons, List.append_assoc]
    cases i with
    | zero => exact List.take_left' (hf x)
    | succ i =>
      rw [Nat.mul_succ, Nat.add_comm, ← List.drop_drop, List.drop_left' (hf x)]
      exact ih i (Nat.lt_of_succ_lt_succ hi)

theorem flatMap_length_of_forall {α β : Type} {f : α → List β} {m : Nat} (hf : ∀ x, (f x).length = m) (l : List α) :
    (l.flatMap f).length = m * l.length := by
  simp [List.length_flatMap, hf, Nat.mul_comm]

/-! ### The stereo byte (R65) -/

theorem stereoOfByte_left (b : Byte) : (stereoOfByte b).left.toNat = b.toNat % 16 := by
  simp [stereoOfByte, BitVec.extractLsb'_toNat]

theorem stereoOfByte_right (b : Byte) : (stereoOfByte b).right.toNat = b.toNat / 16 := by
  have := b.isLt
  rw [stereoOfByte, BitVec.extractLsb'_toNat, Nat.shiftRight_eq_div_pow]
  omega

theorem byteOfStereo_toNat (s : Stereo) : (byteOfStereo s).toNat = 16 * s.right.toNat + s.left.toNat := by
  rw [byteOfStereo, toNat_setWidth_shiftLeft_four_or]

theorem byteOfStereo_stereoOfByte (b : Byte) : byteOfStereo (stereoOfByte b) = b := by
  refine BitVec.eq_of_toNat_eq ?_
  rw [byteOfStereo_toNat, stereoOfByte_left, stereoOfByte_right]
  omega

theorem stereoOfByte_byteOfStereo (s : Stereo) : stereoOfByte (byteOfStereo s) = s := by
  have hleft : (stereoOfByte (byteOfStereo s)).left = s.left := BitVec.eq_of_toNat_eq (by
    have := s.left.isLt
    rw [stereoOfByte_left, byteOfStereo_toNat]
    omega)
  have hright : (stereoOfByte (byteOfStereo s)).right = s.right := BitVec.eq_of_toNat_eq (by
    have := s.left.isLt
    rw [stereoOfByte_right, byteOfStereo_toNat]
    omega)
  cases s
  exact congrArg₂ Stereo.mk hleft hright

/-! ### The PCM buffer (R67) -/

/-- Samples are bytes, or an even number of nibbles, two to a byte. -/
theorem pcm_sizes_of_wf {c : Cfg} (h : c.wf = true) :
    (c.pcmBits = 8 ∧ c.pcmLen = c.pcmBytes) ∨ (c.pcmBits = 4 ∧ c.pcmLen = 2 * c.pcmBytes) := by
  simp only [Cfg.wf, Bool.and_eq_true, Bool.or_eq_true, decide_eq_true_eq] at h
  obtain hbits | ⟨hbits, heven⟩ := h.2
  · exact .inl ⟨hbits, by rw [Cfg.pcmBytes, hbits]; omega⟩
  · exact .inr ⟨hbits, by rw [Cfg.pcmBytes, hbits]; omega⟩

theorem pcmWf_iff {c : Cfg} {pcm : List Byte} :
    pcmWf c pcm = true ↔ pcm.length = c.pcmLen ∧ ∀ x ∈ pcm, x.toNat < 2 ^ c.pcmBits := by
  simp [pcmWf]

theorem pcmSample_toNat (c : Cfg) (b : List Byte) (k : Nat) : (pcmSample c b k).toNat =
    if c.pcmBits = 4 then (b.getD (k / 2) 0).toNat / 16 ^ (k % 2) % 16 else (b.getD k 0).toNat := by
  rw [pcmSample, apply_ite BitVec.toNat, toNat_nibble]

theorem pcmOfBytes_length (c : Cfg) (b : List Byte) : (pcmOfBytes c b).length = c.pcmLen := by simp [pcmOfBytes]

theorem pcmOfBytes_getD {c : Cfg} (b : List Byte) {k : Nat} (hk : k < c.pcmLen) :
    (pcmOfBytes c b).getD k 0 = pcmSample c b k := by
  simp [pcmOfBytes, hk]

theorem bytesOfPcm_of_bytes {c : Cfg} (h : c.pcmBits ≠ 4) (pcm : List Byte) : bytesOfPcm c pcm = pcm := if_neg h

theorem bytesOfPcm_of_nibbles {c : Cfg} (h : c.pcmBits = 4) (pcm : List Byte) : bytesOfPcm c pcm =
    (List.range c.pcmBytes).map fun k => pcm.getD (2 * k) 0 ||| (pcm.getD (2 * k + 1) 0 <<< 4) := if_pos h

theorem bytesOfPcm_pcmOfBytes {c : Cfg} (hc : c.wf = true) {b : List Byte} (hb : b.length = c.pcmBytes) :
    bytesOfPcm c (pcmOfBytes c b) = b := by
  obtain ⟨hbits, hlen⟩ | ⟨hbits, hlen⟩ := pcm_sizes_of_wf hc
  · rw [bytesOfPcm_of_bytes (by omega)]
    refine map_range_eq (hb.trans hlen.symm) fun k hk => BitVec.eq_of_toNat_eq ?_
    rw [pcmSample_toNat, if_neg (by omega), List.getD_eq_getElem _ _ hk]
  · rw [bytesOfPcm_of_nibbles hbits]
    refine map_range_eq hb fun k hk => BitVec.eq_of_toNat_eq ?_
    have hbyte := (b[k]).isLt
    have hlow : ((pcmOfBytes c b).getD (2 * k) 0).toNat = (b[k]).toNat % 16 := by
      rw [pcmOfBytes_getD b (by omega), pcmSample_toNat, if_pos hbits, show 2 * k / 2 = k by omega,
        show 2 * k % 2 = 0 by omega, List.getD_eq_getElem _ _ hk, Nat.pow_zero, Nat.div_one]
    have hhigh : ((pcmOfBytes c b).getD (2 * k + 1) 0).toNat = (b[k]).toNat / 16 := by
      rw [pcmOfBytes_getD b (by omega), pcmSample_toNat, if_pos hbits, show (2 * k + 1) / 2 = k by omega,
        show (2 * k + 1) % 2 = 1 by omega, List.getD_eq_getElem _ _ hk]
      omega
    rw [BitVec.or_comm, toNat_shiftLeft_four_or (by omega) (by omega), hlow, hhigh]
    omega

theorem bytesOfPcm_length {c : Cfg} (hc : c.wf = true) {pcm : List Byte} (h : pcm.length = c.pcmLen) :
    (bytesOfPcm c pcm).length = c.pcmBytes := by
  obtain ⟨hbits, hlen⟩ | ⟨hbits, hlen⟩ := pcm_sizes_of_wf hc
  · rw [bytesOfPcm_of_bytes (by omega), h, hlen]
  · simp [bytesOfPcm_of_nibbles hbits]

theorem pcmOfBytes_bytesOfPcm {c : Cfg} (hc : c.wf = true) {pcm : List Byte} (h : pcmWf c pcm = true) :
    pcmOfBytes c (bytesOfPcm c pcm) = pcm := by
  obtain ⟨hpcm, hrange⟩ := pcmWf_iff.1 h
  refine map_range_eq hpcm fun k hk => BitVec.eq_of_toNat_eq ?_
  rw [pcmSample_toNat]
  obtain ⟨hbits, hlen⟩ | ⟨hbits, hlen⟩ := pcm_sizes_of_wf hc
  · rw [bytesOfPcm_of_bytes (by omega), if_neg (by omega), List.getD_eq_getElem _ _ hk]
  · have hsample (j : Nat) (hj : j < pcm.length) : (pcm.getD j 0).toNat < 16 := by
      rw [List.getD_eq_getElem _ _ hj]
      simpa [hbits] using hrange _ (List.getElem_mem hj)
    have hlow := hsample (2 * (k / 2)) (by omega)
    have hhigh := hsample (2 * (k / 2) + 1) (by omega)
    have hbyte : ((bytesOfPcm c pcm).getD (k / 2) 0).toNat =
        16 * (pcm.getD (2 * (k / 2) + 1) 0).toNat + (pcm.getD (2 * (k / 2)) 0).toNat := by
      rw [← toNat_shiftLeft_four_or hhigh hlow, BitVec.or_comm, bytesOfPcm_of_nibbles hbits,
        List.getD_eq_getElem _ _ (by simp; omega)]
      simp
    rw [if_pos hbits, hbyte, ← List.getD_eq_getElem pcm 0 hk]
    obtain ⟨m, rfl | rfl⟩ := k.even_or_odd'
    · simp only [show 2 * m / 2 = m by omega, show 2 * m % 2 = 0 by omega] at *
      omega
    · simp only [show (2 * m + 1) / 2 = m by omega, show (2 * m + 1) % 2 = 1 by omega] at *
      omega

/-! ### The snapshot (R66) -/

theorem snapBytes_eq (c : Cfg) : c.snapBytes = 18 * c.ch + c.ch + c.pcmLen * c.pcmBits / 8 := rfl

theorem snapBytes_eq_pcmBytes (c : Cfg) : c.snapBytes = 19 * c.ch + c.pcmBytes := by
  rw [snapBytes_eq, Cfg.pcmBytes]
  omega

theorem snapshotOfBytes_reg (c : Cfg) (b : List Byte) : (snapshotOfBytes c b).reg =
    (List.range c.ch).map fun i => registerOfBytes ((b.drop (18 * i)).take 18) := rfl

theorem snapshotOfBytes_stereo (c : Cfg) (b : List Byte) : (snapshotOfBytes c b).stereo =
    (List.range c.ch).map fun i => stereoOfByte (b.getD (18 * c.ch + i) 0) := rfl

theorem snapshotOfBytes_pcm (c : Cfg) (b : List Byte) : (snapshotOfBytes c b).pcm =
    pcmOfBytes c (b.drop (19 * c.ch)) := rfl

theorem snapshotOfBytes_reg_getElem? (c : Cfg) (b : List Byte) {i : Nat} (hi : i < c.ch) :
    (snapshotOfBytes c b).reg[i]? = some (registerOfBytes ((b.drop (18 * i)).take 18)) := by
  simp [snapshotOfBytes_reg, hi]

theorem snapshotOfBytes_stereo_getElem? (c : Cfg) (b : List Byte) {i : Nat} (hi : i < c.ch) :
    (snapshotOfBytes c b).stereo[i]? = some (stereoOfByte (b.getD (18 * c.ch + i) 0)) := by
  simp [snapshotOfBytes_stereo, hi]

theorem snapshotOfBytes_pcm_getD (c : Cfg) (b : List Byte) {k : Nat} (hk : k < c.pcmLen) :
    ((snapshotOfBytes c b).pcm.getD k 0).toNat =
      if c.pcmBits = 4 then (b.getD (19 * c.ch + k / 2) 0).toNat / 16 ^ (k % 2) % 16
      else (b.getD (19 * c.ch + k) 0).toNat := by
  rw [snapshotOfBytes_pcm, pcmOfBytes_getD _ hk, pcmSample_toNat, getD_drop, getD_drop]

/-- The Registers of a snapshot are its first `18 * CH` bytes. -/
theorem flatMap_reg_snapshotOfBytes {c : Cfg} {b : List Byte} (hb : 18 * c.ch ≤ b.length) :
    (snapshotOfBytes c b).reg.flatMap bytesOfRegister = b.take (18 * c.ch) := by
  rw [snapshotOfBytes_reg, List.flatMap_map, ← flatMap_range_drop_take]
  refine List.flatMap_congr fun i hi => bytesOfRegister_registerOfBytes ?_
  have := List.mem_range.1 hi
  simp only [List.length_take, List.length_drop]
  omega

/-- The gain pairs of a snapshot are its next `CH` bytes. -/
theorem map_stereo_snapshotOfBytes {c : Cfg} {b : List Byte} (hb : 19 * c.ch ≤ b.length) :
    (snapshotOfBytes c b).stereo.map byteOfStereo = (b.drop (18 * c.ch)).take c.ch := by
  rw [snapshotOfBytes_stereo, List.map_map]
  refine map_range_eq (by simp; omega) fun i hi => ?_
  rw [Function.comp_apply, byteOfStereo_stereoOfByte, List.getElem_take, List.getElem_drop, List.getD_eq_getElem]

/-- Every pattern of `SNAP_BYTES` bytes is the encoding of its snapshot (R70). -/
theorem bytesOfSnapshot_snapshotOfBytes {c : Cfg} (hc : c.wf = true) {b : List Byte} (hb : b.length = c.snapBytes) :
    bytesOfSnapshot c (snapshotOfBytes c b) = b := by
  have hlen := snapBytes_eq_pcmBytes c
  rw [bytesOfSnapshot, flatMap_reg_snapshotOfBytes (by omega), map_stereo_snapshotOfBytes (by omega),
    snapshotOfBytes_pcm, bytesOfPcm_pcmOfBytes hc (by rw [List.length_drop]; omega), ← List.take_add,
    show 18 * c.ch + c.ch = 19 * c.ch by omega, List.take_append_drop]

theorem bytesOfSnapshot_drop_take (c : Cfg) {s : Snapshot} {i : Nat} (hi : i < s.reg.length) :
    ((bytesOfSnapshot c s).drop (18 * i)).take 18 = bytesOfRegister s.reg[i] := by
  rw [bytesOfSnapshot, List.append_assoc]
  exact flatMap_append_drop_take bytesOfRegister_length _ _ i hi

theorem snapshot_eq_of_fields {s u : Snapshot} (hreg : s.reg = u.reg) (hstereo : s.stereo = u.stereo)
    (hpcm : s.pcm = u.pcm) : s = u := by
  cases s
  cases u
  cases hreg
  cases hstereo
  cases hpcm
  rfl

section
variable {c : Cfg} {s : Snapshot} (hreg : s.reg.length = c.ch) (hstereo : s.stereo.length = c.ch)
include hreg

theorem flatMap_bytesOfRegister_length : (s.reg.flatMap bytesOfRegister).length = 18 * c.ch := by
  rw [flatMap_length_of_forall bytesOfRegister_length, hreg]

theorem bytesOfSnapshot_getD_stereo {i : Nat} (hi : i < s.stereo.length) :
    (bytesOfSnapshot c s).getD (18 * c.ch + i) 0 = byteOfStereo s.stereo[i] := by
  rw [← getD_drop, bytesOfSnapshot, List.append_assoc, List.drop_left' (flatMap_bytesOfRegister_length hreg),
    List.getD_append _ _ _ _ (by simpa using hi), List.getD_eq_getElem _ _ (by simpa using hi), List.getElem_map]

include hstereo

theorem bytesOfSnapshot_drop_pcm : (bytesOfSnapshot c s).drop (19 * c.ch) = bytesOfPcm c s.pcm :=
  List.drop_left' (by rw [List.length_append, flatMap_bytesOfRegister_length hreg, List.length_map, hstereo]; omega)

theorem bytesOfSnapshot_length (hc : c.wf = true) (hpcm : s.pcm.length = c.pcmLen) :
    (bytesOfSnapshot c s).length = c.snapBytes := by
  rw [bytesOfSnapshot, List.length_append, List.length_append, flatMap_bytesOfRegister_length hreg,
    List.length_map, hstereo, bytesOfPcm_length hc hpcm]
  rfl

/-- A snapshot of the right shape survives its encoding. -/
theorem snapshotOfBytes_bytesOfSnapshot (hc : c.wf = true) (hpcm : pcmWf c s.pcm = true) :
    snapshotOfBytes c (bytesOfSnapshot c s) = s := by
  refine snapshot_eq_of_fields (map_range_eq hreg fun i hi => ?_) (map_range_eq hstereo fun i hi => ?_) ?_
  · exact (congrArg registerOfBytes (bytesOfSnapshot_drop_take c hi)).trans (registerOfBytes_bytesOfRegister _)
  · exact (congrArg stereoOfByte (bytesOfSnapshot_getD_stereo hreg hi)).trans (stereoOfByte_byteOfStereo _)
  · rw [snapshotOfBytes_pcm, bytesOfSnapshot_drop_pcm hreg hstereo, pcmOfBytes_bytesOfPcm hc hpcm]

end

/-- Settles O5: the Registers, the gain pairs and the PCM buffer, each both ways. -/
theorem snapshotRoundTrip : Obligations.SnapshotRoundTrip := by
  refine ⟨fun b => ⟨stereoOfByte_left b, stereoOfByte_right b, byteOfStereo_stereoOfByte b⟩, snapBytes_eq,
    fun c b hc hb => ?_, fun c s hc hreg hstereo hpcm => ?_⟩
  · exact ⟨by simp [snapshotOfBytes_reg], by simp [snapshotOfBytes_stereo], pcmOfBytes_length c _,
      fun i hi => ⟨snapshotOfBytes_reg_getElem? c b hi, snapshotOfBytes_stereo_getElem? c b hi⟩,
      fun k hk => snapshotOfBytes_pcm_getD c b hk, bytesOfSnapshot_snapshotOfBytes hc hb⟩
  · exact ⟨bytesOfSnapshot_length hreg hstereo hc (pcmWf_iff.1 hpcm).1,
      snapshotOfBytes_bytesOfSnapshot hreg hstereo hc hpcm⟩

end Sys2Proof
end

section
/-! PROOFS of the ring buffer family, 1: PUSH, RT_SELECT, RT_ADVANCE, the full and the empty ring
(spec/40_ring_buffer.md R82 to R84, R87, R88). -/

namespace Sys2Proof.Machine

/-- Settles O24: RT_ADVANCE answers the advance of `tail`. -/
theorem advanceUnlessEmpty : Obligations.AdvanceUnlessEmpty := fun s => congrArg Host.Outcome.next (advanceTail_eq s)

/-- Settles O23: the slot behind `tail` lies inside the ring memory, so RT_SELECT latches its bytes. -/
theorem selectReadsSlotBehindTail : Obligations.SelectReadsSlotBehindTail := by
  intro s _ hring
  have ⟨_, htail, _⟩ := hring
  refine ⟨_, execRtSelect_of_memRead (memRead_readSlot htail), rfl, by simp [State.selected], fun k hk => ?_⟩
  simp [State.selected, hk, slotAddr, State.readSlot, prevIdx]

/-! ### PUSH -/

theorem advanceHead_eq (s : State) :
    advanceHead s = { s with
      head := if s.head = (s.tailSeen + s.cfg.ringLen - 2) % s.cfg.ringLen then s.head
        else (s.head + 1) % s.cfg.ringLen } := by
  have honly : advanceHead s = { s with head := (advanceHead s).head } := by unfold advanceHead; split <;> rfl
  rw [honly, advanceHead_head, back2, nextIdx]

/-- Settles O21: the snapshot is written at `head`, and then `head` advances. -/
theorem pushWritesSlotAndAdvances : Obligations.PushWritesSlotAndAdvances := by
  intro s snap _ hmem hring hsnap
  obtain ⟨hwf, -⟩ := hmem
  have ⟨hhead, _⟩ := hring
  refine ⟨_, exec_push_of_head_lt hhead hsnap, fun k hk => ?_, fun a ha => ?_, ?_⟩
  · rw [advanceHead_mem, readByte_writeBytes hwf, slotAddr, if_pos (by omega), Nat.add_sub_cancel_left]
  · rw [advanceHead_mem, readByte_writeBytes hwf, slotAddr, if_neg (by omega)]
  · rw [advanceHead_mem]
    exact advanceHead_eq _

/-- Writing as many bytes again at the same address leaves only the second writing. -/
theorem writeBytes_writeBytes {m : List Host.Cell} (hm : memWf m = true) (x : Nat) {v w : List Byte}
    (h : v.length = w.length) : writeBytes (writeBytes m x v) x w = writeBytes m x w := by
  have hv := writeBytes_wf hm x v
  refine mem_ext (writeBytes_wf hv x w) (writeBytes_wf hm x w) fun a => ?_
  rw [readByte_writeBytes hv, readByte_writeBytes hm, readByte_writeBytes hm, h]
  split_ifs <;> rfl

/-- A PUSH into a full ring only writes. -/
theorem exec_push_of_full {s : State} {snap : List Byte} (h : s.head < s.cfg.ringLen)
    (hfull : full s.cfg.ringLen s.head s.tailSeen = true) (hs : snap.length = s.cfg.snapBytes) :
    exec (.push snap) s = .next { s with mem := writeBytes s.mem (slotAddr s.cfg s.head) snap } := by
  rw [exec_push_of_head_lt h hs, advanceHead, if_pos hfull]

/-- Settles O27: both pushes write the one slot at `head`. -/
theorem fullRingKeepsOnlyTheLastPush : Obligations.FullRingKeepsOnlyTheLastPush := by
  intro s a b _ hmem hring hfull ha hb
  obtain ⟨hwf, -⟩ := hmem
  have ⟨hhead, _⟩ := hring
  have hfirst := exec_push_of_full hhead hfull ha
  have hlast (m : List Host.Cell) : runTrace [.push b] { s with mem := m } =
      .next { s with mem := writeBytes m (slotAddr s.cfg s.head) b } :=
    runTrace_singleton_of_next (exec_push_of_full (s := { s with mem := m }) hhead hfull hb)
  refine ⟨⟨_, hfirst, rfl⟩, ?_⟩
  rw [runTrace_cons_next hfirst, hlast, writeBytes_writeBytes hwf _ (ha.trans hb.symm)]
  exact (hlast s.mem).symm

/-! ### What leaves the selected bytes alone -/

/-- The selection is a function of the configuration, of `tail` and of the bytes of the slot behind it. -/
theorem selected_eq_of_readByte_eq {s t : State} (hcfg : t.cfg = s.cfg) (htail : t.tail = s.tail)
    (h : ∀ k, k < s.cfg.snapBytes →
      readByte t.mem (slotAddr s.cfg s.readSlot + k) = readByte s.mem (slotAddr s.cfg s.readSlot + k)) :
    t.selected = s.selected := by
  have hslot : t.readSlot = s.readSlot := by rw [State.readSlot, State.readSlot, hcfg, htail]
  rw [State.selected, State.selected, hcfg, hslot]
  exact List.map_congr_left fun k hk => h k (List.mem_range.1 hk)

theorem selected_eq_of_mem_eq {s t : State} (hcfg : t.cfg = s.cfg) (htail : t.tail = s.tail) (hmem : t.mem = s.mem) :
    t.selected = s.selected :=
  selected_eq_of_readByte_eq hcfg htail fun _ _ => by rw [hmem]

/-- Everything a PUSH that answers has done. -/
theorem exec_push_eq_next {s t : State} {snap : List Byte} (h : s.head < s.cfg.ringLen) :
    exec (.push snap) s = .next t ↔ snap.length = s.cfg.snapBytes ∧
      t = advanceHead { s with mem := writeBytes s.mem (slotAddr s.cfg s.head) snap } := by
  by_cases hs : snap.length = s.cfg.snapBytes
  · simp [exec_push_of_head_lt h hs, hs, eq_comm]
  · simp [exec, execPush_of_length_ne hs, hs]

/-- A PUSH leaves the selected slot alone: the producer's slot is another one (R52). -/
theorem selected_of_exec_push {s t : State} {snap : List Byte} (h : s.Inv) (hpush : exec (.push snap) s = .next t) :
    t.selected = s.selected := by
  obtain ⟨hc, ⟨hwf, -⟩, hring, -⟩ := h
  obtain ⟨-, -, -, -, -, hapart⟩ := slotExclusivity s hc hring
  have ⟨hhead, _⟩ := hring
  obtain ⟨hs, rfl⟩ := (exec_push_eq_next hhead).1 hpush
  refine selected_eq_of_readByte_eq (by simp) (by simp) fun k hk => ?_
  rw [advanceHead_mem, readByte_writeBytes hwf, if_neg]
  rintro ⟨hle, hlt⟩
  refine hapart (slotAddr s.cfg s.readSlot + k - slotAddr s.cfg s.head) k (by omega) hk (by omega)

/-- Settles O28: `tail` stays because the ring is empty, and neither operation writes the selected slot. -/
theorem emptyRingReselectsTheSameSnapshot : Obligations.EmptyRingReselectsTheSameSnapshot := by
  intro s snap hinv hbusy hempty hsnap
  have ⟨_, _, ⟨_, htail, _⟩, _⟩ := hinv
  have hrender := exec_render_of_memRead hbusy (memRead_readSlot htail)
  have htail' : (finishRender s.selected { s with busy := true, cur := s.selected }).tail = s.tail := by
    simp [advanceTail_tail, hempty]
  have hsel := selected_eq_of_mem_eq (finishRender_cfg _ _) htail' (finishRender_mem _ _)
  have hinv' := exec_inv hinv hrender
  have ⟨_, _, ⟨hhead, _⟩, _⟩ := hinv'
  have hpush := exec_push_of_head_lt hhead (hsnap.trans (by simp))
  exact ⟨_, _, hrender, hpush, htail', hsel, (advanceHead_tail _).trans htail',
    (selected_of_exec_push hinv' hpush).trans hsel⟩

end Sys2Proof.Machine
end

section
/-! PROOFS of the ring buffer family, 2: the gray code (spec/40_ring_buffer.md R90, R91). -/

namespace Sys2Proof.Machine

/-- Settles O31. -/
theorem ungrayInvertsGray : Obligations.UngrayInvertsGray := fun _ _ _ heven hi => ungray_gray heven hi

/-! ### The width of a code word (R15) -/

/-- The search for a power of two passes over none. -/
theorem two_pow_lt_of_lt_leastPow {n fuel k j : Nat} (hk : k ≤ j) (hj : j < leastPow n fuel k) : 2 ^ j < n := by
  induction fuel generalizing k with
  | zero => exact absurd hj (Nat.not_lt.2 hk)
  | succ fuel ih =>
    rw [leastPow] at hj
    split at hj
    · omega
    · next hlt =>
      obtain rfl | hk := Nat.eq_or_lt_of_le hk
      · omega
      · exact ih hk hj

theorem two_pow_lt_of_lt_ptrBits {n j : Nat} (h : j < ptrBits n) : 2 ^ j < n :=
  two_pow_lt_of_lt_leastPow (Nat.zero_le j) h

theorem ptrBits_pos {n : Nat} (hn : 2 ≤ n) : 0 < ptrBits n := by
  refine Nat.pos_of_ne_zero fun h => ?_
  have := le_two_pow_ptrBits n
  rw [h] at this
  omega

theorem ptrBits_two_pow (k : Nat) : ptrBits (2 ^ k) = k := by
  have hle : k ≤ ptrBits (2 ^ k) := (Nat.pow_le_pow_iff_right (by decide)).1 (le_two_pow_ptrBits (2 ^ k))
  exact hle.antisymm' (Nat.le_of_not_lt fun h => Nat.lt_irrefl _ (two_pow_lt_of_lt_ptrBits h))

/-! ### One bit at a time -/

theorem reflected_lt {k x : Nat} (h : x < 2 ^ k) : reflected x < 2 ^ k :=
  Nat.xor_lt_two_pow h (Nat.lt_of_le_of_lt (Nat.shiftRight_le x 1) h)

/-- `G` is linear over the bits. -/
theorem reflected_xor (x y : Nat) : reflected (x ^^^ y) = reflected x ^^^ reflected y := by
  simp only [reflected, Nat.shiftRight_xor_distrib]
  ac_rfl

/-- A number of `k + 1` ones is the code of the top bit alone. -/
theorem reflected_two_pow_sub_one (k : Nat) : reflected (2 ^ (k + 1) - 1) = 2 ^ k := by
  refine Nat.eq_of_testBit_eq fun b => ?_
  simp only [reflected, Nat.testBit_xor, Nat.testBit_shiftRight, Nat.testBit_two_pow_sub_one, Nat.testBit_two_pow]
  by_cases hb : b = k
  · simp [hb]
  · have hnext : b < k + 1 ↔ 1 + b < k + 1 := by omega
    rw [decide_eq_decide.2 hnext, Bool.xor_self, decide_eq_false (Ne.symm hb)]

/-- Counting on by one turns a run of lowest bits over. -/
theorem exists_xor_succ_eq (x : Nat) : ∃ j, x ^^^ (x + 1) = 2 ^ (j + 1) - 1 := by
  induction x using Nat.strongRecOn with
  | _ x ih =>
    have hodd : (x ^^^ (x + 1)) % 2 = 1 := Nat.xor_mod_two_eq_one.2 (by omega)
    have hhalf : (x ^^^ (x + 1)) / 2 = x / 2 ^^^ (x + 1) / 2 := Nat.xor_div_two
    obtain ⟨m, rfl | rfl⟩ := x.even_or_odd'
    · rw [show (2 * m + 1) / 2 = 2 * m / 2 by omega, Nat.xor_self] at hhalf
      exact ⟨0, by omega⟩
    · obtain ⟨j, hj⟩ := ih m (by omega)
      rw [show (2 * m + 1) / 2 = m by omega, show (2 * m + 1 + 1) / 2 = m + 1 by omega, hj] at hhalf
      have := Nat.two_pow_pos (j + 1)
      exact ⟨j + 1, by rw [Nat.pow_succ _ (j + 1)]; omega⟩

theorem reflected_xor_succ (x : Nat) : ∃ j, reflected x ^^^ reflected (x + 1) = 2 ^ j := by
  obtain ⟨j, hj⟩ := exists_xor_succ_eq x
  exact ⟨j, by rw [← reflected_xor, hj, reflected_two_pow_sub_one]⟩

/-- A number and its complement on `k + 1` bits have codes that differ in the top bit. -/
theorem reflected_xor_complement {k x y : Nat} (h : x + y + 1 = 2 ^ (k + 1)) : reflected x ^^^ reflected y = 2 ^ k := by
  have hones : x ^^^ y = 2 ^ (k + 1) - 1 := by
    obtain rfl : y = 2 ^ (k + 1) - (x + 1) := by omega
    refine Nat.eq_of_testBit_eq fun b => ?_
    rw [Nat.testBit_xor, Nat.testBit_two_pow_sub_succ (by omega), Nat.testBit_two_pow_sub_one]
    by_cases hb : b < k + 1
    · simp [hb]
    · have hpow : 2 ^ (k + 1) ≤ 2 ^ b := Nat.pow_le_pow_right (by decide) (by omega)
      have hx : x < 2 ^ b := by omega
      simp [hb, Nat.testBit_lt_two_pow hx]
  rw [← reflected_xor, hones, reflected_two_pow_sub_one]

/-! ### Code words -/

theorem gray_eq (n i : Nat) : gray n i = reflected (if i < n / 2 then i else 2 ^ ptrBits n - n + i) :=
  (apply_ite reflected _ _ _).symm

theorem gray_lt {n i : Nat} (hi : i < n) : gray n i < 2 ^ ptrBits n := by
  have hpow := le_two_pow_ptrBits n
  rw [gray_eq]
  refine reflected_lt ?_
  split_ifs <;> omega

theorem gray_two_pow (k i : Nat) : gray (2 ^ k) i = reflected i := by
  rw [gray_eq, ptrBits_two_pow, Nat.sub_self, Nat.zero_add, ite_self]

/-- Within a half the codes are those of neighbours; from half to half and at the wrap, of complements. -/
theorem exists_gray_xor_nextIdx {n i : Nat} (hn : 2 ≤ n) (heven : n % 2 = 0) (hi : i < n) :
    ∃ k, gray n i ^^^ gray n (nextIdx n i) = 2 ^ k := by
  have hpow := le_two_pow_ptrBits n
  obtain ⟨k, hk⟩ := Nat.exists_eq_add_one_of_ne_zero (ptrBits_pos hn).ne'
  simp only [gray_eq, nextIdx_eq hi]
  by_cases hwrap : i + 1 = n
  · rw [if_pos hwrap, if_neg (by omega), if_pos (by omega)]
    exact ⟨k, reflected_xor_complement (by rw [← hk]; omega)⟩
  rw [if_neg hwrap]
  by_cases hlow : i + 1 < n / 2
  · rw [if_pos (by omega), if_pos hlow]
    exact reflected_xor_succ i
  by_cases hmid : i < n / 2
  · rw [if_pos hmid, if_neg hlow]
    exact ⟨k, reflected_xor_complement (by rw [← hk]; omega)⟩
  · rw [if_neg hmid, if_neg hlow]
    exact reflected_xor_succ _

/-- Neighbours' code words differ in one of the `PTR_BITS` bits. -/
theorem gray_xor_nextIdx {n i : Nat} (hn : 2 ≤ n) (heven : n % 2 = 0) (hi : i < n) :
    ∃ k, k < ptrBits n ∧ gray n i ^^^ gray n (nextIdx n i) = 2 ^ k := by
  obtain ⟨k, hk⟩ := exists_gray_xor_nextIdx hn heven hi
  have hlt := Nat.xor_lt_two_pow (gray_lt hi) (gray_lt (nextIdx_lt hi))
  rw [hk] at hlt
  exact ⟨k, (Nat.pow_lt_pow_iff_right (by decide)).1 hlt, hk⟩

/-- The code words are distinct: `ungray` tells them apart. -/
theorem gray_inj {n i j : Nat} (heven : n % 2 = 0) (hi : i < n) (hj : j < n) (h : gray n i = gray n j) : i = j := by
  rw [← ungray_gray heven hi, h, ungray_gray heven hj]

/-- Settles O30. -/
theorem grayStepChangesOneBit : Obligations.GrayStepChangesOneBit := by
  refine ⟨fun n hn heven => ?_, fun k i _ _ => gray_two_pow k i, by decide⟩
  have hpos := ptrBits_pos (n := n) (by omega)
  exact ⟨⟨two_pow_lt_of_lt_ptrBits (by omega), le_two_pow_ptrBits n⟩, fun _ => rfl, fun i _ => gray_eq n i,
    fun i hi => ⟨gray_lt hi, gray_xor_nextIdx (by omega) heven hi⟩, fun _ _ hi hj => gray_inj heven hi hj⟩

end Sys2Proof.Machine
end

section
/-! PROOFS of the ring buffer family, 3: the first render after RESET (spec/40_ring_buffer.md R94,
spec/42_synth_frame.md R137, spec/70_reset_and_hazards.md R174). -/

namespace Sys2Proof.Machine

/-! ### A silent voice -/

/-- The amplitude is 0 and the accumulator still is `b`. -/
def Voice.Silent (b : BlipState) (v : Voice) : Prop := v.osc.amp = 0 ∧ v.blip = b

theorem getAmp_zero_volume (c : Cfg) (a : Nat) : getAmp c 0 a = 0 := by simp [getAmp]

theorem pcmAmp_zero (c : Cfg) : pcmAmp c 0 = 0 := by simp [pcmAmp]

theorem updateAmp_silent {b : BlipState} {v : Voice} (c : Cfg) {new : Nat} (hnew : new = 0) (h : v.Silent b) :
    (updateAmp c new v).Silent b := by
  obtain ⟨hamp, hblip⟩ := h
  exact ⟨hnew, by rw [updateAmp_blip, if_pos (by rw [hnew, hamp]), hblip]⟩

theorem Voice.Silent.setTime {b : BlipState} {v : Voice} (h : v.Silent b) (t : Nat) : (v.setTime t).Silent b := h

theorem Voice.Silent.setPhase {b : BlipState} {v : Voice} (h : v.Silent b) (p : Nat) : (v.setPhase p).Silent b := h

theorem toneStep_silent {b : BlipState} {v : Voice} (c : Cfg) {r : Register} (gain : Nibble) (hr : r.volume = 0)
    (h : v.Silent b) : (toneStep c r gain v).Silent b :=
  updateAmp_silent c (by rw [toneAmp, hr]; exact getAmp_zero_volume c _) (h.setPhase _)

theorem noiseStep_silent {b : BlipState} {v : Voice} (c : Cfg) (col : Color) {volume : Nibble} (gain : Nibble)
    (hvolume : volume = 0) (h : v.Silent b) : (noiseStep c col volume gain v).Silent b :=
  updateAmp_silent c (by rw [noiseAmp, hvolume]; exact getAmp_zero_volume c _) (h.setPhase _)

theorem pcmStep_silent {b : BlipState} {v : Voice} (c : Cfg) {pcm : List Byte} (hpcm : ∀ k, (pcm.getD k 0).toNat = 0)
    (h : v.Silent b) : (pcmStep c pcm v).Silent b :=
  (updateAmp_silent c (by rw [hpcm, pcmAmp_zero]) h).setPhase _

/-- A channel at volume 0 submits nothing, whatever its table, its gain and its clock (R103). -/
theorem channelRun_silent {b : BlipState} {v : Voice} (c : Cfg) {r : Register} (gain : Nibble) (hr : r.volume = 0)
    (h : v.Silent b) : (channelRun c r gain v).Silent b := by
  unfold channelRun
  split
  · exact genRun_induct _ (fun _ t hv => hv.setTime t) (fun _ _ hv => toneStep_silent c gain hr hv) h
  · exact genRun_induct _ (fun _ t hv => hv.setTime t) (fun _ _ hv => noiseStep_silent c _ gain hr hv) (h.setPhase _)

/-- A PCM buffer of zeros submits nothing (R117). -/
theorem pcmRun_silent {b : BlipState} {v : Voice} (c : Cfg) {pcm : List Byte} (hpcm : ∀ k, (pcm.getD k 0).toNat = 0)
    (h : v.Silent b) : (pcmRun c pcm v).Silent b :=
  genRun_induct _ (fun _ t hv => hv.setTime t) (fun _ _ hv => pcmStep_silent c hpcm hv) h

/-! ### A silent side -/

theorem runChannels_silent {c : Cfg} {snap : Snapshot} {os : List Osc}
    (hreg : ∀ i, (snap.reg.getD i (registerOfWord 0)).volume = 0) (side : Side) (b : BlipState) (i : Nat)
    (hos : ∀ o ∈ os, o.amp = 0) : (runChannels c side snap i os b).2 = b := by
  induction os generalizing i with
  | nil => rfl
  | cons o rest ih =>
    obtain ⟨ho, hrest⟩ := List.forall_mem_cons.1 hos
    obtain ⟨-, hblip⟩ : (channelVoice c side snap i ⟨o, b⟩).Silent b := channelRun_silent c _ (hreg i) ⟨ho, rfl⟩
    rw [runChannels_cons, hblip]
    exact ih (i + 1) hrest

/-- In the zero snapshot every volume is 0 (R63, R66). -/
theorem snapshotOfBytes_zero_volume (c : Cfg) (n i : Nat) :
    ((snapshotOfBytes c (List.replicate n 0)).reg.getD i (registerOfWord 0)).volume = 0 := by
  by_cases hi : i < c.ch
  · refine BitVec.eq_of_toNat_eq ?_
    rw [List.getD_eq_getElem?_getD, snapshotOfBytes_reg_getElem? c _ hi, Option.getD_some, registerOfBytes_volume,
      List.drop_replicate, List.take_replicate, List.getD_eq_getElem?_getD, List.getElem?_getD_replicate_default_eq]
    rfl
  · rw [List.getD_eq_default _ _ (by simp [snapshotOfBytes_reg]; omega)]
    rfl

/-- In the zero snapshot every PCM sample is 0 (R66, R67). -/
theorem snapshotOfBytes_zero_pcm (c : Cfg) (n k : Nat) :
    ((snapshotOfBytes c (List.replicate n 0)).pcm.getD k 0).toNat = 0 := by
  by_cases hk : k < c.pcmLen
  · rw [snapshotOfBytes_pcm_getD c _ hk]
    simp
  · rw [List.getD_eq_default _ _ (by rw [snapshotOfBytes_pcm, pcmOfBytes_length]; omega)]
    rfl

/-- The zero snapshot submits nothing to a cleared side's accumulator. -/
theorem runSide_init_blip (c : Cfg) (side : Side) (n : Nat) :
    (runSide c side (snapshotOfBytes c (List.replicate n 0)) (SideState.init c)).blip = BlipState.init c := by
  have hchannels := runChannels_silent (c := c) (snapshotOfBytes_zero_volume c n) side (BlipState.init c) 0
    (os := (SideState.init c).osc) fun o ho => by rw [List.eq_of_mem_replicate ho]; rfl
  exact (pcmRun_silent c (snapshotOfBytes_zero_pcm c n) ⟨rfl, hchannels⟩).2

/-! ### A silent read-out -/

theorem zohScan_zero {acc : List Int} (h : ∀ x ∈ acc, x = 0) (n : Nat) :
    (zohScan 0 acc n).2 = List.replicate n 0 := by
  induction n generalizing acc with
  | zero => rfl
  | succ n ih =>
    have hhead : acc.headD 0 = 0 := by
      cases acc with
      | nil => rfl
      | cons a rest => exact h a (by simp)
    simp only [zohScan, hhead, Int.add_zero, ih fun x hx => h x (List.mem_of_mem_tail hx)]
    rfl

/-- An accumulator to which nothing was submitted reads out silence, of either kind (R137 law 5, R138). -/
theorem readOut_init (c : Cfg) (n : Nat) : (readOut c (BlipState.init c) n).2 = List.replicate n 0 := by
  cases hk : c.blip with
  | zoh =>
    simp only [BlipState.init, hk, readOut]
    exact zohScan_zero (fun x hx => List.eq_of_mem_replicate hx) n
  | external =>
    have hsample : externalSample c [[]] = fun _ => 0 := funext fun k => if_pos rfl
    simp [BlipState.init, hk, readOut, hsample]

theorem synthSide_init_out (c : Cfg) (side : Side) (n : Nat) :
    (synthSide c side (snapshotOfBytes c (List.replicate n 0)) (SideState.init c)).out =
      List.replicate c.samplesPerFrame 0 := by
  rw [synthSide, readOutSide_out, runSide_init_blip, readOut_init]

/-! ### What pushes and SYNC steps keep from RESET on -/

/-- What each operation of a list keeps, the run of the list keeps. -/
theorem runTrace_induct {P : State → Prop} {ops : List Instr}
    (step : ∀ i ∈ ops, ∀ s t, P s → exec i s = .next t → P t) {s t : State} (h : P s)
    (hrun : runTrace ops s = .next t) : P t := by
  induction ops generalizing s with
  | nil => cases hrun; exact h
  | cons i rest ih =>
    obtain ⟨hi, hrest⟩ := List.forall_mem_cons.1 step
    cases hu : exec i s with
    | next u => rw [runTrace_cons_next hu] at hrun; exact ih hrest (hi s u h hu) hrun
    | fault r => simp [runTrace, hu] at hrun
    | refused r => simp [runTrace, hu] at hrun

/-- Nothing has been rendered since RESET: the sides are cleared, the selected slot holds zeros, no frame is out. -/
structure State.Unrendered (c : Cfg) (s : State) : Prop where
  inv : s.Inv
  cfg : s.cfg = c
  left : s.left = SideState.init c
  right : s.right = SideState.init c
  selected : s.selected = List.replicate c.snapBytes 0
  busy : s.busy = false
  frames : s.frames = []

theorem resetWith_unrendered {c : Cfg} (hc : c.wf = true) : (State.resetWith c).Unrendered c :=
  ⟨resetWith_inv hc, rfl, rfl, rfl, resetWith_selected c, rfl, rfl⟩

theorem exec_unrendered {c : Cfg} {i : Instr} {s t : State} (hi : beforeRender i = true) (h : s.Unrendered c)
    (hexec : exec i s = .next t) : t.Unrendered c := by
  have hinv := exec_inv h.inv hexec
  have hsel := h.selected
  cases exec_effect hexec with
  | push hm =>
    exact ⟨hinv, by simp [h.cfg], by simp [h.left], by simp [h.right],
      (selected_of_exec_push h.inv hexec).trans hsel, by simp [h.busy], by simp [h.frames]⟩
  | syncHead hj => exact ⟨hinv, h.cfg, h.left, h.right, hsel, h.busy, h.frames⟩
  | syncTail hj => exact ⟨hinv, h.cfg, h.left, h.right, hsel, h.busy, h.frames⟩
  | reset => cases hi
  | renderIgnored => cases hi
  | render => cases hi
  | rtSelect => cases hi
  | rtAdvance => cases hi
  | side hx => rw [beforeRender, hx.inTrace_eq_false] at hi; cases hi

/-- Settles O57: the first render plays the zero snapshot on cleared sides. -/
theorem firstRenderIsSilent : Obligations.FirstRenderIsSilent := by
  intro c ops s hc hops hrun
  have h : s.Unrendered c :=
    runTrace_induct (fun i hi _ _ hs hexec => exec_unrendered (hops i hi) hs hexec) (resetWith_unrendered hc) hrun
  have ⟨_, _, ⟨_, htail, _⟩, _⟩ := h.inv
  refine ⟨_, exec_render_of_memRead h.busy (memRead_readSlot htail), ?_⟩
  simp only [finishRender_frames, finishRender_left, finishRender_right, h.cfg, h.left, h.right, h.selected, h.frames,
    synthSide_init_out, List.nil_append]

end Sys2Proof.Machine
end

section
/-! PROOFS of the oscillator family, 1: periods and amplitudes (spec/41_oscillator.md R101, R103, R110, R111, R117). -/

namespace Sys2Proof.Machine

/-! ### The step period (R101) -/

theorem freq2period_zero (c : Cfg) : freq2period c 0 = c.maxPeriod := if_pos rfl

/-- The clamp of the rule is a `max` of a `min`, and its subtraction may be cut off at 0, since `MIN_PERIOD` is above 0. -/
theorem freq2period_of_pos {c : Cfg} (hc : c.wf = true) {f : Nat} (hf : 0 < f) :
    freq2period c f = max c.minPeriod (min c.maxPeriod (c.rate / f - 1)) := by
  obtain ⟨-, -, -, -, -, -, hmin, hmax, -⟩ := Cfg.wf_facts hc
  rw [freq2period, if_neg (by omega), clampInt]
  generalize c.rate / f = q
  split_ifs <;> omega

theorem minPeriod_le_freq2period {c : Cfg} (hc : c.wf = true) (f : Nat) : c.minPeriod ≤ freq2period c f := by
  obtain ⟨-, -, -, -, -, -, -, hmax, -⟩ := Cfg.wf_facts hc
  rcases Nat.eq_zero_or_pos f with rfl | hf
  · rwa [freq2period_zero]
  · rw [freq2period_of_pos hc hf]; exact Nat.le_max_left _ _

/-- Settles O33: the formula, and its bounds by the clamp. -/
theorem periodFormula : Obligations.PeriodFormula := by
  intro c hc
  refine ⟨freq2period_zero c, fun f hf => freq2period_of_pos hc hf, fun f => ?_, fun freq => ⟨rfl, rfl⟩⟩
  obtain ⟨hone, hmax⟩ := freq2period_bounds hc f
  exact ⟨minPeriod_le_freq2period hc f, hmax, hone⟩

/-! ### Amplitudes (R103, R110, R111, R117) -/

theorem getAmp_zero_level (c : Cfg) (volume : Nat) : getAmp c volume 0 = 0 := by simp [getAmp]

theorem toneLevel_le_maxVolume (r : Register) (gain : Nibble) (phase : Nat) : toneLevel r gain phase ≤ maxVolume :=
  calc toneLevel r gain phase
      ≤ gain.toNat := mul_div_le_of_le (nibble_le_maxVolume _)
    _ ≤ maxVolume := nibble_le_maxVolume gain

theorem toneLevel_full_gain (r : Register) (phase : Nat) : toneLevel r 15 phase = Register.sample r phase :=
  Nat.mul_div_cancel _ (by decide)

theorem noiseAmp_eq (c : Cfg) (volume gain : Nibble) (phase : Nat) :
    noiseAmp c volume gain phase = if phase % 2 = 1 then getAmp c volume.toNat gain.toNat else 0 := by
  unfold noiseAmp noiseLevel
  split
  · rfl
  · exact getAmp_zero_level c _

/-- Settles O34: the formulas are the definitions; each bound scales by at most full scale. -/
theorem amplitudeFormulasAndBounds : Obligations.AmplitudeFormulasAndBounds := by
  intro c _
  refine ⟨fun _ _ => rfl, fun _ _ hv ha => getAmp_le_ampTop hv ha, fun volume a h => ?zero,
    fun r gain phase => ⟨rfl, toneLevel_le_maxVolume r gain phase, toneLevel_full_gain r phase, rfl,
      toneAmp_le_ampTop c r gain phase⟩,
    noiseAmp_eq c, fun _ => rfl, fun x hx => pcmAmp_le_ampTop (Nat.le_sub_one_of_lt hx)⟩
  case zero =>
    rcases h with rfl | rfl
    · exact getAmp_zero_volume c a
    · exact getAmp_zero_level c volume

end Sys2Proof.Machine
end

section
/-! PROOFS of the oscillator family, 2: one step of a generator (spec/41_oscillator.md R104, R105, R108, R114). -/

namespace Sys2Proof.Machine

/-! ### Submitting a change of amplitude (R104) -/

/-- A list without zero sums does not show a zero delta. -/
theorem insertDelta_zero {c : Cfg} {l : List (Nat × Int)} (h : deltasWf c l = true) (t : Nat) : insertDelta t 0 l = l := by
  induction l with
  | nil => rfl
  | cons first rest ih =>
    obtain ⟨u, e⟩ := first
    obtain ⟨-, he, -, hr⟩ := deltasWf_cons.1 h
    simp only [insertDelta, Int.add_zero, if_neg he, ih hr]
    split_ifs <;> rfl

/-- A zero delta leaves an accumulator of the right shape as it is (R137 law 1). -/
theorem addDelta_zero {c : Cfg} {b : BlipState} (h : blipWf c b = true) (t : Nat) : addDelta c b t 0 = b := by
  cases b with
  | zoh level acc =>
    simp only [addDelta, Int.add_zero]
    exact congrArg (BlipState.zoh level) (List.modify_id _ acc)
  | external past now => rw [addDelta, insertDelta_zero (blipWf_external.1 h).2.2]

/-- UPDATE_AMP submits the change, be it zero or not. -/
theorem updateAmp_eq {c : Cfg} {v : Voice} (h : blipWf c v.blip = true) (new : Nat) :
    updateAmp c new v =
      ⟨⟨v.osc.time, v.osc.phase, new⟩, addDelta c v.blip v.osc.time ((new : Int) - v.osc.amp)⟩ := by
  have hblip : (updateAmp c new v).blip = addDelta c v.blip v.osc.time ((new : Int) - v.osc.amp) := by
    rw [updateAmp_blip]
    split
    · next hsame => rw [hsame, Int.sub_self, addDelta_zero h]
    · rfl
  exact congrArg (Voice.mk _) hblip

/-! ### What a step makes of its voice (R105, R108, R114) -/

section
variable {c : Cfg} {v : Voice} (h : blipWf c v.blip = true)
include h

theorem toneStep_eq (r : Register) (gain : Nibble) :
    toneStep c r gain v =
      ⟨⟨v.osc.time, (v.osc.phase + 1) % 32, toneAmp c r gain ((v.osc.phase + 1) % 32)⟩,
        addDelta c v.blip v.osc.time ((toneAmp c r gain ((v.osc.phase + 1) % 32) : Int) - v.osc.amp)⟩ :=
  updateAmp_eq (v := v.setPhase ((v.osc.phase + 1) % waveValues)) h _

theorem noiseStep_eq (col : Color) (volume gain : Nibble) :
    noiseStep c col volume gain v =
      ⟨⟨v.osc.time, lfsrStep (noiseFb c col) v.osc.phase,
          noiseAmp c volume gain (lfsrStep (noiseFb c col) v.osc.phase)⟩,
        addDelta c v.blip v.osc.time
          ((noiseAmp c volume gain (lfsrStep (noiseFb c col) v.osc.phase) : Int) - v.osc.amp)⟩ :=
  updateAmp_eq (v := v.setPhase (lfsrStep (noiseFb c col) v.osc.phase)) h _

theorem pcmStep_eq (pcm : List Byte) :
    pcmStep c pcm v =
      ⟨⟨v.osc.time, (v.osc.phase + 1) % c.pcmLen, pcmAmp c (pcm.getD v.osc.phase 0).toNat⟩,
        addDelta c v.blip v.osc.time ((pcmAmp c (pcm.getD v.osc.phase 0).toNat : Int) - v.osc.amp)⟩ :=
  congrArg (fun w : Voice => w.setPhase _) (updateAmp_eq h _)

end

/-! ### One operation on one oscillator -/

section
variable {id : OscId} {f : Voice → Voice} {s : State} {o : Osc} {v : Voice}
  (ho : (s.side (oscSide id)).osc? id = some o) (hv : f ⟨o, (s.side (oscSide id)).blip⟩ = v)
include ho hv

/-- On an oscillator that exists an operation completes, with the voice it makes stored and nothing else changed. -/
theorem onVoice_of_osc? : ∃ t, onVoice id f s = .next t ∧ s.SameOutside t (oscSide id) ∧
    t.side (oscSide id) = (s.side (oscSide id)).putVoice id v :=
  ⟨_, onVoice_eq_next.2 ⟨o, ho, rfl⟩, sameOutside_setSide s _ _, by rw [State.side_setSide, hv]⟩

/-- The same for an operation that is issued only inside the frame. -/
theorem onVoiceInFrame_of_osc? (ht : o.time < s.cfg.endTime) :
    ∃ t, onVoiceInFrame id f s = .next t ∧ s.SameOutside t (oscSide id) ∧
      t.side (oscSide id) = (s.side (oscSide id)).putVoice id v :=
  ⟨_, onVoiceInFrame_eq_next.2 ⟨o, ho, ht, rfl⟩, sameOutside_setSide s _ _, by rw [State.side_setSide, hv]⟩

end

/-- Settles O35: UPDATE_AMP is `updateAmp_eq` on one oscillator. -/
theorem updateAmpSubmitsTheChange : Obligations.UpdateAmpSubmitsTheChange :=
  fun _ _ _ new hwf ho ht => onVoiceInFrame_of_osc? ho (updateAmp_eq hwf new) ht

/-- Settles O36: TONE_STEP is `toneStep_eq` on one oscillator. -/
theorem toneStepAdvancesThenLooksUp : Obligations.ToneStepAdvancesThenLooksUp :=
  fun _ g r _ hwf ho ht => onVoiceInFrame_of_osc? (id := .chan g.side g.ch) ho (toneStep_eq hwf r g.gain) ht

theorem lfsrStep_eq (fb phase : Nat) : lfsrStep fb phase = (phase / 2) ^^^ (if phase % 2 = 1 then fb else 0) := by
  rw [lfsrStep, Nat.shiftRight_one]

/-- Settles O37, with the mask of each color by name. -/
theorem noiseStepShiftsThenTestsTheNewBit : Obligations.NoiseStepShiftsThenTestsTheNewBit := by
  intro s g col volume o hwf ho ht
  obtain ⟨t, hexec, hframe, hside⟩ :=
    onVoiceInFrame_of_osc? (id := .chan g.side g.ch) ho (noiseStep_eq hwf col volume g.gain) ht
  refine ⟨t, lfsrStep (noiseFb s.cfg col) o.phase, hexec, hframe, ?mask, hside⟩
  case mask => cases col <;> exact lfsrStep_eq _ o.phase

/-- Settles O38: PCM_STEP is `pcmStep_eq` on the side's PCM oscillator. -/
theorem pcmStepLooksUpThenAdvances : Obligations.PcmStepLooksUpThenAdvances := by
  intro s side pcm hwf hlen ht
  obtain ⟨t, hexec, hframe⟩ := onVoiceInFrame_of_osc? (id := .pcm side) rfl (pcmStep_eq hwf pcm) ht
  exact ⟨t, (execPcmStep_of_length_eq hlen side).trans hexec, hframe⟩

end Sys2Proof.Machine
end

section
/-! PROOFS of the oscillator family, 3: whole runs (spec/41_oscillator.md R106, R109, R113, R115, R121). -/

namespace Sys2Proof.Machine

/-! ### The number of steps (R106 e) -/

section
variable {c : Cfg} {period : Nat} (hp : 1 ≤ period)
include hp

/-- A run takes its step `k` exactly if that step's time lies inside the frame. -/
theorem lt_stepsIn_iff {time k : Nat} : k < stepsIn c period time ↔ time + k * period < c.endTime := by
  unfold stepsIn
  split
  · rw [← Nat.succ_le_iff, Nat.le_div_iff_mul_le hp, Nat.succ_mul]
    omega
  · omega

/-- From a time inside the frame: one step, and those from one period later on. -/
theorem stepsIn_of_lt {time : Nat} (h : time < c.endTime) :
    stepsIn c period time = stepsIn c period (time + period) + 1 := by
  refine eq_of_forall_lt_iff fun k => ?_
  rw [lt_stepsIn_iff hp]
  cases k with
  | zero => simpa using h
  | succ k => rw [Nat.succ_lt_succ_iff, lt_stepsIn_iff hp, Nat.succ_mul]; omega

end

theorem stepsIn_of_le {c : Cfg} {period time : Nat} (h : c.endTime ≤ time) : stepsIn c period time = 0 := if_neg (by omega)

/-! ### The loop as its turns -/

/-- One turn of the loop of every run: a step, then the time moved on by the period. -/
def turn (period : Nat) (f : Voice → Voice) (v : Voice) : Voice := (f v).setTime ((f v).osc.time + period)

section
variable {c : Cfg} {period : Nat} {f : Voice → Voice} (hf : ∀ v, (f v).osc.time = v.osc.time)
include hf

theorem turn_time (v : Voice) : (turn period f v).osc.time = v.osc.time + period := by rw [turn, Voice.setTime_time, hf]

theorem iterate_turn_time (n : Nat) (v : Voice) : ((turn period f)^[n] v).osc.time = v.osc.time + n * period := by
  induction n with
  | zero => simp
  | succ n ih => rw [Function.iterate_succ_apply', turn_time hf, ih, Nat.succ_mul, Nat.add_assoc]

/-- With enough fuel the loop is as many turns as there are step times inside the frame. -/
theorem genLoop_eq_iterate (hp : 1 ≤ period) {fuel : Nat} {v : Voice} (hfuel : c.endTime ≤ v.osc.time + fuel) :
    genLoop c period f fuel v = (turn period f)^[stepsIn c period v.osc.time] v := by
  induction fuel generalizing v with
  | zero => rw [stepsIn_of_le (by simpa using hfuel)]; rfl
  | succ fuel ih =>
    by_cases ht : v.osc.time < c.endTime
    · have hturn : genLoop c period f (fuel + 1) v = genLoop c period f fuel (turn period f v) := genLoop_turn ht
      have htime := turn_time (period := period) hf v
      rw [hturn, stepsIn_of_lt hp ht, Function.iterate_succ_apply, ← htime]
      exact ih (by omega)
    · rw [genLoop_done (by omega), stepsIn_of_le (by omega)]
      rfl

/-- A run is its turns, then the time carry. -/
theorem genRun_eq_iterate (hp : 1 ≤ period) (v : Voice) :
    genRun c period f v = ((turn period f)^[stepsIn c period v.osc.time] v).setTime
      (v.osc.time + stepsIn c period v.osc.time * period - c.endTime) := by
  rw [genRun, genLoop_eq_iterate hf hp (by omega), iterate_turn_time hf]

/-- The time carry of a run (R113). -/
theorem genRun_time (hp : 1 ≤ period) (v : Voice) :
    (genRun c period f v).osc.time + c.endTime = v.osc.time + stepsIn c period v.osc.time * period ∧
      (v.osc.time < c.endTime → (genRun c period f v).osc.time < period) := by
  obtain ⟨hend, hlt⟩ := genLoop_time (c := c) hf hp (c.endTime - v.osc.time) v (by omega)
  rw [genLoop_eq_iterate hf hp (by omega), iterate_turn_time hf] at hend hlt
  rw [genRun_eq_iterate hf hp, Voice.setTime_time]
  omega

end

theorem tonePeriod_pos {c : Cfg} (hc : c.wf = true) (freq : BitVec 12) : 1 ≤ tonePeriod c freq :=
  (freq2period_bounds hc _).1

theorem noisePeriod_pos {c : Cfg} (hc : c.wf = true) (freq : BitVec 12) : 1 ≤ noisePeriod c freq :=
  (freq2period_bounds hc _).1

theorem pcmPeriod_pos {c : Cfg} (hc : c.wf = true) : 1 ≤ c.pcmPeriod := by
  obtain ⟨-, -, -, -, -, -, -, -, -, -, hp⟩ := Cfg.wf_facts hc
  exact hp

/-- Settles O43: each of the three runs is a `genRun` of a period of at least 1. -/
theorem runsCarryTheirTime : Obligations.RunsCarryTheirTime := fun c v hc =>
  ⟨fun r gain => genRun_time (toneStep_time c r gain) (tonePeriod_pos hc r.freq) v,
    fun col freq volume gain => genRun_time (noiseStep_time c col volume gain) (noisePeriod_pos hc freq) (v.setPhase _),
    fun pcm => genRun_time (pcmStep_time c pcm) (pcmPeriod_pos hc) v⟩

/-! ### Phases and amplitudes along a run -/

/-- A step takes a voice at entry `k` of the sequences `phase` and `amp` to entry `k + 1` and submits the change. -/
def Follows (c : Cfg) (f : Voice → Voice) (phase amp : Nat → Nat) : Prop :=
  ∀ k t b, blipWf c b = true →
    f ⟨⟨t, phase k, amp k⟩, b⟩ = ⟨⟨t, phase (k + 1), amp (k + 1)⟩, addDelta c b t ((amp (k + 1) : Int) - amp k)⟩

theorem submitRun_wf {c : Cfg} {period t0 n : Nat} {b : BlipState} (amp : Nat → Nat) (hb : blipWf c b = true)
    (ht : ∀ k < n, t0 + k * period < c.endTime) : blipWf c (submitRun c period t0 amp n b) = true := by
  induction n with
  | zero => exact hb
  | succ n ih => exact addDelta_wf _ (ht n (Nat.lt_succ_self n)) (ih fun k hk => ht k (Nat.lt_succ_of_lt hk))

section
variable {c : Cfg} {period t0 : Nat} {f : Voice → Voice} {phase amp : Nat → Nat} {b : BlipState}
  (hstep : Follows c f phase amp) (hb : blipWf c b = true)
include hstep hb

theorem Follows.iterate_turn {n : Nat} (ht : ∀ k < n, t0 + k * period < c.endTime) :
    (turn period f)^[n] ⟨⟨t0, phase 0, amp 0⟩, b⟩ =
      ⟨⟨t0 + n * period, phase n, amp n⟩, submitRun c period t0 amp n b⟩ := by
  induction n with
  | zero => simp [submitRun]
  | succ n ih =>
    have hbefore : ∀ k < n, t0 + k * period < c.endTime := fun k hk => ht k (Nat.lt_succ_of_lt hk)
    rw [Function.iterate_succ_apply', ih hbefore, turn, hstep n _ _ (submitRun_wf amp hb hbefore), Nat.succ_mul,
      ← Nat.add_assoc]
    rfl

/-- A whole run in closed form: as many steps as have their time inside the frame, one period apart, then the time
carry. -/
theorem Follows.genRun_eq (hf : ∀ v, (f v).osc.time = v.osc.time) (hp : 1 ≤ period) {n : Nat}
    (hn : n = stepsIn c period t0) :
    genRun c period f ⟨⟨t0, phase 0, amp 0⟩, b⟩ =
      ⟨⟨t0 + n * period - c.endTime, phase n, amp n⟩, submitRun c period t0 amp n b⟩ := by
  rw [genRun_eq_iterate hf hp, ← hn, hstep.iterate_turn hb fun k hk => (lt_stepsIn_iff hp).1 (hn ▸ hk)]
  rfl

end

/-! ### The three runs (R106, R109, R115) -/

section
variable {c : Cfg} {v : Voice} {n : Nat} {amp : Nat → Nat} (hc : c.wf = true) (hb : blipWf c v.blip = true)
include hc hb

theorem toneRun_eq (r : Register) (gain : Nibble) (hn : n = stepsIn c (tonePeriod c r.freq) v.osc.time)
    (hamp : ∀ k, amp k = if k = 0 then v.osc.amp else toneAmp c r gain ((v.osc.phase + k) % 32)) :
    toneRun c r gain v =
      ⟨⟨v.osc.time + n * tonePeriod c r.freq - c.endTime,
          if n = 0 then v.osc.phase else (v.osc.phase + n) % 32, amp n⟩,
        submitRun c (tonePeriod c r.freq) v.osc.time amp n v.blip⟩ := by
  have hstep : Follows c (toneStep c r gain) (fun k => if k = 0 then v.osc.phase else (v.osc.phase + k) % 32) amp := by
    intro k t b hwf
    have hphase : ((if k = 0 then v.osc.phase else (v.osc.phase + k) % 32) + 1) % 32 = (v.osc.phase + (k + 1)) % 32 := by
      split <;> omega
    simp only [toneStep_eq (v := ⟨_, b⟩) hwf, hphase, hamp (k + 1), Nat.succ_ne_zero, if_false]
  have hrun := hstep.genRun_eq (t0 := v.osc.time) hb (toneStep_time c r gain) (tonePeriod_pos hc r.freq) hn
  rwa [show amp 0 = v.osc.amp from hamp 0] at hrun

theorem noiseRun_eq (col : Color) (freq : BitVec 12) (volume gain : Nibble)
    (hn : n = stepsIn c (noisePeriod c freq) v.osc.time)
    (hamp : ∀ k, amp k = if k = 0 then v.osc.amp else
      noiseAmp c volume gain ((lfsrStep (noiseFb c col))^[k] (lfsrSeed v.osc.phase))) :
    noiseRun c col freq volume gain v =
      ⟨⟨v.osc.time + n * noisePeriod c freq - c.endTime, (lfsrStep (noiseFb c col))^[n] (lfsrSeed v.osc.phase), amp n⟩,
        submitRun c (noisePeriod c freq) v.osc.time amp n v.blip⟩ := by
  have hstep : Follows c (noiseStep c col volume gain)
      (fun k => (lfsrStep (noiseFb c col))^[k] (lfsrSeed v.osc.phase)) amp := by
    intro k t b hwf
    simp only [noiseStep_eq (v := ⟨_, b⟩) hwf, ← Function.iterate_succ_apply', hamp (k + 1), Nat.succ_ne_zero, if_false]
  have hrun := hstep.genRun_eq (t0 := v.osc.time) hb (noiseStep_time c col volume gain) (noisePeriod_pos hc freq) hn
  rwa [show amp 0 = v.osc.amp from hamp 0] at hrun

theorem pcmRun_eq (pcm : List Byte) (hphase : v.osc.phase < c.pcmLen) (hn : n = stepsIn c c.pcmPeriod v.osc.time)
    (hamp : ∀ k, amp k = if k = 0 then v.osc.amp else
      pcmAmp c (pcm.getD ((v.osc.phase + k - 1) % c.pcmLen) 0).toNat) :
    pcmRun c pcm v =
      ⟨⟨v.osc.time + n * c.pcmPeriod - c.endTime, (v.osc.phase + n) % c.pcmLen, amp n⟩,
        submitRun c c.pcmPeriod v.osc.time amp n v.blip⟩ := by
  have hstep : Follows c (pcmStep c pcm) (fun k => (v.osc.phase + k) % c.pcmLen) amp := by
    intro k t b hwf
    simp only [pcmStep_eq (v := ⟨_, b⟩) hwf, Nat.mod_add_mod, hamp (k + 1), Nat.succ_ne_zero, if_false,
      Nat.add_sub_cancel, ← Nat.add_assoc]
  have hrun := hstep.genRun_eq (t0 := v.osc.time) hb (pcmStep_time c pcm) (pcmPeriod_pos hc) hn
  rwa [show amp 0 = v.osc.amp from hamp 0, show (v.osc.phase + 0) % c.pcmLen = v.osc.phase from Nat.mod_eq_of_lt hphase]
    at hrun

end

/-- Settles O40: TONE_RUN is `toneRun_eq` on one oscillator. -/
theorem toneRunResult : Obligations.ToneRunResult := by
  intro s g r o n amp hc hwf ho hn hamp
  exact onVoice_of_osc? (id := .chan g.side g.ch) ho (toneRun_eq hc hwf r g.gain hn hamp)

/-- Settles O41: the run of either color is `noiseRun_eq` on one oscillator. -/
theorem noiseRunResult : Obligations.NoiseRunResult := by
  intro s g col freq volume o n amp hc hwf ho hn hamp
  obtain ⟨t, hexec, hframe⟩ :=
    onVoice_of_osc? (id := .chan g.side g.ch) ho (noiseRun_eq hc hwf col freq volume g.gain hn hamp)
  refine ⟨t, ?exec, hframe⟩
  case exec => cases col <;> exact hexec

theorem execPcmRun_of_length_eq {s : State} {pcm : List Byte} (h : pcm.length = s.cfg.pcmLen) (side : Side) :
    execPcmRun side pcm s = onVoice (.pcm side) (pcmRun s.cfg pcm) s := if_pos h

/-- Settles O42: PCM_RUN is `pcmRun_eq` on the side's PCM oscillator. -/
theorem pcmRunResult : Obligations.PcmRunResult := by
  rintro s side pcm _ n amp hc hwf rfl hphase hlen hn hamp
  obtain ⟨t, hexec, hframe⟩ := onVoice_of_osc? (id := .pcm side) rfl (pcmRun_eq hc hwf pcm hphase hn hamp)
  exact ⟨t, (execPcmRun_of_length_eq hlen side).trans hexec, hframe⟩

/-! ### The deltas of a run (R121) -/

/-- The deltas of a run, at rising times inside the frame, and the accumulator they leave. -/
theorem runDeltas_inside {c : Cfg} {period : Nat} (hp : 1 ≤ period) (t0 : Nat) (amp : Nat → Nat) (b : BlipState) :
    (runDeltas period t0 amp (stepsIn c period t0)).Pairwise (fun a b => a.1 < b.1) ∧
      (∀ e ∈ runDeltas period t0 amp (stepsIn c period t0), e.1 < c.endTime) ∧
      submitRun c period t0 amp (stepsIn c period t0) b =
        (runDeltas period t0 amp (stepsIn c period t0)).foldl (fun b e => addDelta c b e.1 e.2) b := by
  refine ⟨?rising, ?inside, submitRun_eq_foldl c period t0 amp _ b⟩
  case rising =>
    refine List.pairwise_map.2 (List.pairwise_lt_range.imp fun h => ?_)
    exact Nat.add_lt_add_left (Nat.mul_lt_mul_of_pos_right h hp) t0
  case inside =>
    intro e he
    obtain ⟨k, hk, rfl⟩ := List.mem_map.1 he
    exact (lt_stepsIn_iff hp).1 (List.mem_range.1 hk)

/-- Settles O44, from the closed form of each run. -/
theorem runsSubmitInsideTheFrame : Obligations.RunsSubmitInsideTheFrame := by
  intro c v amp hc hb
  refine ⟨fun r gain _ hamp hds => ?tone, fun col freq volume gain _ hamp hds => ?noise, fun pcm _ hphase hamp hds => ?pcm⟩
  case tone =>
    rw [hds, toneRun_eq hc hb r gain rfl hamp]
    exact runDeltas_inside (tonePeriod_pos hc r.freq) v.osc.time amp v.blip
  case noise =>
    rw [hds, noiseRun_eq hc hb col freq volume gain rfl hamp]
    exact runDeltas_inside (noisePeriod_pos hc freq) v.osc.time amp v.blip
  case pcm =>
    rw [hds, pcmRun_eq hc hb pcm hphase rfl hamp]
    exact runDeltas_inside (pcmPeriod_pos hc) v.osc.time amp v.blip

end Sys2Proof.Machine
end

section
/-! PROOFS of the oscillator family, 4: the shift register of the noise generator (spec/41_oscillator.md R107, R108). -/

namespace Sys2Proof.Machine

theorem lfsrStep_zero (fb : Nat) : lfsrStep fb 0 = 0 := by simp [lfsrStep]

/-- With the top bit in the mask, a step leaves the bit it shifted out in the register's top bit. -/
theorem lfsrStep_testBit_top {fb p bits : Nat} (hbits : 0 < bits) (hfb : fb.testBit (bits - 1) = true)
    (hp : p < 2 ^ bits) : (lfsrStep fb p).testBit (bits - 1) = decide (p % 2 = 1) := by
  have hshift : (p >>> 1).testBit (bits - 1) = false := by
    rw [Nat.testBit_shiftRight, show 1 + (bits - 1) = bits by omega, Nat.testBit_lt_two_pow hp]
  rw [lfsrStep, Nat.testBit_xor, hshift]
  split <;> simp [*]

/-- So the step loses nothing: the top bit says whether the mask went in, and without it the other bits are there. -/
theorem lfsrStep_inj {fb p q bits : Nat} (hbits : 0 < bits) (hfb : fb.testBit (bits - 1) = true) (hp : p < 2 ^ bits)
    (hq : q < 2 ^ bits) (h : lfsrStep fb p = lfsrStep fb q) : p = q := by
  have hodd : (p % 2 = 1) ↔ (q % 2 = 1) := by
    rw [← decide_eq_decide, ← lfsrStep_testBit_top hbits hfb hp, ← lfsrStep_testBit_top hbits hfb hq, h]
  have hhalf : p / 2 = q / 2 := by
    simp only [lfsrStep_eq, hodd] at h
    exact Nat.xor_left_inj.1 h
  omega

theorem lfsrStep_ne_zero {fb p bits : Nat} (hbits : 0 < bits) (hfb : fb.testBit (bits - 1) = true) (hp : p < 2 ^ bits)
    (h : p ≠ 0) : lfsrStep fb p ≠ 0 := fun hzero =>
  h (lfsrStep_inj hbits hfb hp (Nat.two_pow_pos bits) (hzero.trans (lfsrStep_zero fb).symm))

/-- One-to-one on finitely many values, the step reaches each of them. -/
theorem exists_lfsrStep_eq {fb q bits : Nat} (hbits : 0 < bits) (hfb : fb.testBit (bits - 1) = true)
    (hlt : fb < 2 ^ bits) (hq : q < 2 ^ bits) : ∃ p, p < 2 ^ bits ∧ lfsrStep fb p = q := by
  have hsurj := Finset.surjOn_of_injOn_of_card_le (s := Finset.range (2 ^ bits)) (t := Finset.range (2 ^ bits))
    (lfsrStep fb) (fun p hp => by simpa using lfsrStep_lt hlt (by simpa using hp))
    (fun p hp q hq => lfsrStep_inj hbits hfb (by simpa using hp) (by simpa using hq)) le_rfl
  simpa using hsurj (show q ∈ (Finset.range (2 ^ bits) : Set Nat) by simpa using hq)

theorem lfsrSeed_ne_zero (phase : Nat) : lfsrSeed phase ≠ 0 := by
  unfold lfsrSeed
  split
  · decide
  · assumption

/-- A noise run keeps the register within its bits and away from 0: the seed starts it so and each step keeps it so. -/
theorem noiseRun_phase_ne_zero {c : Cfg} {v : Voice} (hc : c.wf = true) (col : Color) (freq : BitVec 12)
    (volume gain : Nibble) (h : v.osc.phase < 2 ^ c.lfsrBits) : (noiseRun c col freq volume gain v).osc.phase ≠ 0 := by
  obtain ⟨hfb, hlt⟩ := noiseFb_of_wf hc col
  obtain ⟨-, -, -, -, -, -, -, -, hbits, -⟩ := Cfg.wf_facts hc
  have hseed : lfsrSeed v.osc.phase < 2 ^ c.lfsrBits :=
    lfsrSeed_lt (Nat.lt_of_lt_of_le (by decide) (two_pow_lfsrBits_ge hc)) h
  have hkept := genRun_induct (c := c) (period := noisePeriod c freq) (f := noiseStep c col volume gain)
    (fun w => w.osc.phase < 2 ^ c.lfsrBits ∧ w.osc.phase ≠ 0) (fun _ _ hw => hw)
    (fun _ _ ⟨hw, hne⟩ => ⟨lfsrStep_lt hlt hw, lfsrStep_ne_zero (by omega) hfb hw hne⟩)
    (v := v.setPhase (lfsrSeed v.osc.phase)) ⟨hseed, lfsrSeed_ne_zero _⟩
  exact hkept.2

/-- Settles O45: all of it rests on the mask's top bit. -/
theorem lfsrNeverZero : Obligations.LfsrNeverZero := by
  refine ⟨fun c col hmask => ?mask, fun c col hc => ?_⟩
  case mask =>
    refine Bool.eq_false_iff.2 fun hc => ?_
    rw [(noiseFb_of_wf hc col).1] at hmask
    cases hmask
  obtain ⟨hfb, hlt⟩ := noiseFb_of_wf hc col
  obtain ⟨-, -, -, -, -, -, -, -, hbits, -⟩ := Cfg.wf_facts hc
  have hpos : 0 < c.lfsrBits := by omega
  refine ⟨lfsrStep_zero _, fun p hp => ⟨lfsrStep_lt hlt hp, lfsrStep_ne_zero hpos hfb hp⟩,
    fun p q => lfsrStep_inj hpos hfb, fun q => exists_lfsrStep_eq hpos hfb hlt, fun freq volume gain v h0 => ?seed,
    fun freq volume gain v => noiseRun_phase_ne_zero hc col freq volume gain⟩
  case seed =>
    rw [noiseRun, h0]
    rfl

end Sys2Proof.Machine
end

section
/-! PROOFS of the oscillator family, 5: SYNTH_SIDE (spec/41_oscillator.md R102, spec/42_synth_frame.md R131). -/

namespace Sys2Proof.Machine

/-! ### No oscillator reads the accumulator -/

theorem updateAmp_osc_eq {v w : Voice} (c : Cfg) (new : Nat) (h : v.osc = w.osc) :
    (updateAmp c new v).osc = (updateAmp c new w).osc := congrArg (fun o : Osc => { o with amp := new }) h

theorem setPhase_osc_eq {v w : Voice} (p : Nat) (h : v.osc = w.osc) : (v.setPhase p).osc = (w.setPhase p).osc :=
  congrArg (fun o : Osc => { o with phase := p }) h

/-- If each step makes the same of an oscillator over any two accumulators, a run does. -/
theorem genRun_osc_eq {c : Cfg} {period : Nat} {f : Voice → Voice}
    (hstep : ∀ v w : Voice, v.osc = w.osc → (f v).osc = (f w).osc) {v w : Voice} (h : v.osc = w.osc) :
    (genRun c period f v).osc = (genRun c period f w).osc :=
  genRun_rel (fun v w => v.osc = w.osc) (fun _ _ t h => congrArg (fun o : Osc => { o with time := t }) h)
    (fun _ _ h => congrArg Osc.time h) hstep h

/-- A channel's oscillator runs alike over any two accumulators. -/
theorem channelRun_osc_eq {c : Cfg} (r : Register) (gain : Nibble) {v w : Voice} (h : v.osc = w.osc) :
    (channelRun c r gain v).osc = (channelRun c r gain w).osc := by
  unfold channelRun
  split
  · refine genRun_osc_eq (fun v w h => ?_) h
    rw [toneStep, toneStep, h]
    exact updateAmp_osc_eq c _ (setPhase_osc_eq _ h)
  · refine genRun_osc_eq (fun v w h => ?_) (by rw [h]; exact setPhase_osc_eq _ h)
    rw [noiseStep, noiseStep, h]
    exact updateAmp_osc_eq c _ (setPhase_osc_eq _ h)

/-! ### The channel loop, channel by channel (R131) -/

theorem runChannels_append (c : Cfg) (side : Side) (snap : Snapshot) (xs ys : List Osc) (b : BlipState) (i : Nat) :
    runChannels c side snap i (xs ++ ys) b =
      ((runChannels c side snap i xs b).1 ++
          (runChannels c side snap (i + xs.length) ys (runChannels c side snap i xs b).2).1,
        (runChannels c side snap (i + xs.length) ys (runChannels c side snap i xs b).2).2) := by
  induction xs generalizing i b with
  | nil => rfl
  | cons x xs ih =>
    rw [List.cons_append, runChannels_cons, ih, runChannels_cons, List.length_cons, Nat.add_assoc, Nat.add_comm 1]
    rfl

theorem runChannels_length (c : Cfg) (side : Side) (snap : Snapshot) (os : List Osc) (b : BlipState) (i : Nat) :
    (runChannels c side snap i os b).1.length = os.length := by
  induction os generalizing i b with
  | nil => rfl
  | cons o rest ih => rw [runChannels_cons, List.length_cons, List.length_cons, ih]

/-- The accumulator after the first `i` channels. -/
def blipAfter (c : Cfg) (side : Side) (snap : Snapshot) (os : List Osc) (b : BlipState) (i : Nat) : BlipState :=
  (runChannels c side snap 0 (os.take i) b).2

section
variable (c : Cfg) (side : Side) (snap : Snapshot) {os : List Osc} (b : BlipState) {i : Nat} {o : Osc}
  (ho : os[i]? = some o)
include ho

theorem runChannels_take_succ :
    runChannels c side snap 0 (os.take (i + 1)) b =
      ((runChannels c side snap 0 (os.take i) b).1 ++
          [(channelVoice c side snap i ⟨o, blipAfter c side snap os b i⟩).osc],
        (channelVoice c side snap i ⟨o, blipAfter c side snap os b i⟩).blip) := by
  have hlen : (os.take i).length = i := List.length_take_of_le (List.getElem?_eq_some_iff.1 ho).1.le
  rw [List.take_add_one, ho, Option.toList_some, runChannels_append, hlen, Nat.zero_add]
  rfl

theorem blipAfter_succ :
    blipAfter c side snap os b (i + 1) = (channelVoice c side snap i ⟨o, blipAfter c side snap os b i⟩).blip :=
  congrArg Prod.snd (runChannels_take_succ c side snap b ho)

/-- Channel `i` comes out as its own generator leaves it over the accumulator it finds. -/
theorem runChannels_getElem? :
    (runChannels c side snap 0 os b).1[i]? =
      some (channelVoice c side snap i ⟨o, blipAfter c side snap os b i⟩).osc := by
  have hlen : (runChannels c side snap 0 (os.take i) b).1.length = i := by
    rw [runChannels_length, List.length_take_of_le (List.getElem?_eq_some_iff.1 ho).1.le]
  have hsplit := runChannels_append c side snap (os.take (i + 1)) (os.drop (i + 1)) b 0
  rw [List.take_append_drop, runChannels_take_succ c side snap b ho] at hsplit
  rw [hsplit, List.append_assoc, List.getElem?_append_right hlen.le, hlen, Nat.sub_self]
  rfl

end

/-! ### One side -/

theorem synthSide_osc (c : Cfg) (side : Side) (snap : Snapshot) (x : SideState) :
    (synthSide c side snap x).osc = (runChannels c side snap 0 x.osc x.blip).1 := rfl

theorem synthSide_pcmosc (c : Cfg) (side : Side) (snap : Snapshot) (x : SideState) :
    (synthSide c side snap x).pcmosc = (pcmRun c snap.pcm ⟨x.pcmosc, (runChannels c side snap 0 x.osc x.blip).2⟩).osc :=
  rfl

theorem synthSide_readOut (c : Cfg) (side : Side) (snap : Snapshot) (x : SideState) :
    ((synthSide c side snap x).blip, (synthSide c side snap x).out) = readOut c
      (pcmRun c snap.pcm ⟨x.pcmosc, (runChannels c side snap 0 x.osc x.blip).2⟩).blip c.samplesPerFrame := rfl

theorem zohScan_length (level : Int) (acc : List Int) (n : Nat) : (zohScan level acc n).2.length = n := by
  induction n generalizing level acc with
  | zero => rfl
  | succ n ih => rw [zohScan, List.length_cons, ih]

theorem readOut_length (c : Cfg) (b : BlipState) (n : Nat) : (readOut c b n).2.length = n := by
  cases b with
  | zoh level acc => exact zohScan_length level acc n
  | external past now => simp [readOut]

/-- A channel of a snapshot's bytes runs what its Register, decoded from its bytes, selects with its side's gain. -/
theorem channelVoice_snapshotOfBytes {c : Cfg} {i : Nat} (hi : i < c.ch) (side : Side) (cur : List Byte) (v : Voice) :
    channelVoice c side (snapshotOfBytes c cur) i v =
      channelRun c (registerOfBytes ((cur.drop (18 * i)).take 18))
        (gainOf side (stereoOfByte (cur.getD (18 * c.ch + i) 0))) v := by
  rw [channelVoice, List.getD_eq_getElem?_getD, List.getD_eq_getElem?_getD, snapshotOfBytes_reg_getElem? c cur hi,
    snapshotOfBytes_stereo_getElem? c cur hi, Option.getD_some, Option.getD_some]

theorem exec_synthSide {s : State} {cur : List Byte} (h : cur.length = s.cfg.snapBytes) (side : Side) :
    exec (.synthSide side cur) s =
      .next (s.setSide side (synthSide s.cfg side (snapshotOfBytes s.cfg cur) (s.side side))) := if_pos h

/-- Settles O51, with the accumulator between the channels as `blipAfter` gives it. -/
theorem synthSideRunsEveryGenerator : Obligations.SynthSideRunsEveryGenerator := by
  intro s side cur hc hcur hlen
  refine ⟨_, blipAfter s.cfg side (snapshotOfBytes s.cfg cur) (s.side side).osc (s.side side).blip,
    exec_synthSide hcur side, sameOutside_setSide s side _, ?_⟩
  have hall : blipAfter s.cfg side (snapshotOfBytes s.cfg cur) (s.side side).osc (s.side side).blip s.cfg.ch =
      (runChannels s.cfg side (snapshotOfBytes s.cfg cur) 0 (s.side side).osc (s.side side).blip).2 := by
    rw [blipAfter, List.take_of_length_le hlen.le]
  rw [State.side_setSide, hall, ← snapshotOfBytes_pcm]
  refine ⟨(runChannels_length ..).trans hlen, rfl, fun i o r gain run ho hr hgain hrun => ?channel,
    fun b => pcmRun_osc_eq _ rfl, rfl, readOut_length ..⟩
  case channel =>
    have hi : i < s.cfg.ch := hlen ▸ (List.getElem?_eq_some_iff.1 ho).1
    have hgain' : gain = gainOf side (stereoOfByte (cur.getD (18 * s.cfg.ch + i) 0)) := by cases side <;> exact hgain
    have hvoice (v : Voice) : channelVoice s.cfg side (snapshotOfBytes s.cfg cur) i v = run v := by
      rw [channelVoice_snapshotOfBytes hi, ← hr, ← hgain', hrun]
      rfl
    refine ⟨fun b => ?_, ?_⟩
    · rw [synthSide_osc, runChannels_getElem? _ _ _ _ ho, ← hvoice]
      exact congrArg some (channelRun_osc_eq _ _ rfl)
    · rw [blipAfter_succ _ _ _ _ ho, hvoice]

end Sys2Proof.Machine
end

section
/-! PROOFS of the frame synthesis family, 1: SYNTH_SIDE on both sides, RENDER as its parts, and a PUSH beside it
(spec/42_synth_frame.md R130 to R132, R140, R143, spec/70_reset_and_hazards.md R153). -/

namespace Sys2Proof.Machine

/-! ### The two sides (R143) -/

/-- SYNTH_SIDE of both sides writes the two sides and nothing else, each from what it held before. -/
theorem synthSideOn_R_synthSideOn_L (a b : List Byte) (s : State) :
    synthSideOn .R b (synthSideOn .L a s) = { s with
      left := synthSide s.cfg .L (snapshotOfBytes s.cfg a) s.left
      right := synthSide s.cfg .R (snapshotOfBytes s.cfg b) s.right } := by
  simp only [synthSideOn, State.setSide_cfg, State.side_L, State.side_R, State.setSide_L_right]
  rfl

/-- SYNTH_SIDE of the two sides commutes: neither reads what the other writes. -/
theorem synthSideOn_comm (a b : List Byte) (s : State) :
    synthSideOn .R b (synthSideOn .L a s) = synthSideOn .L a (synthSideOn .R b s) := by
  simp only [synthSideOn, State.setSide_cfg, State.side_L, State.side_R, State.setSide_L_right, State.setSide_R_left]
  exact State.setSide_comm ..

theorem exec_synthSide_eq_synthSideOn {s : State} {cur : List Byte} (h : cur.length = s.cfg.snapBytes) (side : Side) :
    exec (.synthSide side cur) s = .next (synthSideOn side cur s) := exec_synthSide h side

theorem synthSideOn_cfg (side : Side) (cur : List Byte) (s : State) : (synthSideOn side cur s).cfg = s.cfg :=
  State.setSide_cfg ..

/-- Settles O52: each SYNTH_SIDE reads and writes its own side only. -/
theorem sidesAreIndependent : Obligations.SidesAreIndependent := by
  intro s a b ha hb
  have hL := exec_synthSide_eq_synthSideOn ha .L
  have hR := exec_synthSide_eq_synthSideOn hb .R
  have hLR := exec_synthSide_eq_synthSideOn (s := synthSideOn .L a s) (by rw [synthSideOn_cfg, hb]) .R
  have hRL := exec_synthSide_eq_synthSideOn (s := synthSideOn .R b s) (by rw [synthSideOn_cfg, ha]) .L
  refine ⟨synthSideOn .R b (synthSideOn .L a s), ?leftFirst, ?rightFirst, fun u hu => ?left, fun u hu => ?right⟩
  case leftFirst => rw [runTrace_cons_next hL, runTrace_singleton_of_next hLR]
  case rightFirst => rw [runTrace_cons_next hR, runTrace_singleton_of_next hRL, synthSideOn_comm]
  case left =>
    obtain rfl : synthSideOn .L a s = u := by simpa [hL] using hu
    rw [synthSideOn_R_synthSideOn_L]
    exact ⟨rfl, rfl⟩
  case right =>
    obtain rfl : synthSideOn .R b s = u := by simpa [hR] using hu
    rw [synthSideOn_R_synthSideOn_L]
    exact ⟨rfl, rfl⟩

/-! ### RENDER and its parts (R132, R140) -/

/-- All that the rest of a render leaves, after RT_SELECT. -/
theorem finishRender_eq (cur : List Byte) (s : State) :
    finishRender cur s = { s with
      left := synthSide s.cfg .L (snapshotOfBytes s.cfg cur) s.left
      right := synthSide s.cfg .R (snapshotOfBytes s.cfg cur) s.right
      tail := if s.tail = s.headSeen then s.tail else (s.tail + 1) % s.cfg.ringLen
      busy := false
      frames := s.frames ++ [⟨(synthSide s.cfg .L (snapshotOfBytes s.cfg cur) s.left).out,
        (synthSide s.cfg .R (snapshotOfBytes s.cfg cur) s.right).out⟩] } := by
  rw [finishRender, synthSideOn_R_synthSideOn_L, advanceTail_eq, deliver]

theorem selected_length (s : State) : s.selected.length = s.cfg.snapBytes := by simp [State.selected]

/-- The four micro-operations complete while the read slot lies inside the ring memory. -/
theorem runTrace_renderMicro {s : State} (h : s.tail < s.cfg.ringLen) :
    runTrace (renderMicro s.selected) s =
      .next (advanceTail (synthSideOn .R s.selected (synthSideOn .L s.selected { s with cur := s.selected }))) := by
  have hselect : exec .rtSelect s = .next { s with cur := s.selected } := execRtSelect_of_memRead (memRead_readSlot h)
  have hL := exec_synthSide_eq_synthSideOn (s := { s with cur := s.selected }) (selected_length s) .L
  have hR := exec_synthSide_eq_synthSideOn (s := synthSideOn .L s.selected { s with cur := s.selected })
    (selected_length s) .R
  rw [renderMicro, runTrace_cons_next hselect, runTrace_cons_next hL, runTrace_cons_next hR,
    runTrace_singleton_of_next rfl]

theorem exec_render {s : State} (hbusy : s.busy = false) (h : s.tail < s.cfg.ringLen) :
    exec .render s = .next (finishRender s.selected { s with busy := true, cur := s.selected }) :=
  exec_render_of_memRead hbusy (memRead_readSlot h)

/-- Settles O54: RENDER raises `busy`, which no micro-operation reads, and lowers it again. -/
theorem renderIsItsMicroOperations : Obligations.RenderIsItsMicroOperations := by
  intro s hinv hbusy
  obtain ⟨-, -, ⟨-, htail, -⟩, -⟩ := hinv
  refine ⟨_, runTrace_renderMicro htail, ?_⟩
  rw [exec_render hbusy htail, finishRender_eq, synthSideOn_R_synthSideOn_L, advanceTail_eq, hbusy]

/-- Settles O55, field by field of what the rest of a render leaves. -/
theorem renderReturnsOneFrame : Obligations.RenderReturnsOneFrame := by
  intro s hinv hbusy
  obtain ⟨-, -, ⟨-, htail, -⟩, -⟩ := hinv
  rw [exec_render hbusy htail, finishRender_eq]
  refine ⟨_, _, rfl, rfl, readOut_length .., readOut_length .., ?rest⟩
  case rest => simp

/-! ### A PUSH beside a RENDER (R153) -/

/-- After a PUSH a RENDER plays the snapshot it would have played before. -/
theorem exec_render_of_exec_push {s t : State} {snap : List Byte} (hinv : s.Inv) (hbusy : t.busy = false)
    (hpush : exec (.push snap) s = .next t) :
    exec .render t = .next (finishRender s.selected { t with busy := true, cur := s.selected }) := by
  have ⟨_, _, ⟨_, htail, _⟩, _⟩ := exec_inv hinv hpush
  rw [← selected_of_exec_push hinv hpush, exec_render hbusy htail]

/-- The rest of a render and the two effects of a PUSH write different fields, and neither reads what the other writes. -/
theorem finishRender_advanceHead (cur : List Byte) (s : State) (m : List Host.Cell) :
    finishRender cur { advanceHead { s with mem := m } with busy := true, cur := cur } =
      advanceHead { finishRender cur { s with busy := true, cur := cur } with mem := m } := by
  simp only [advanceHead_eq, finishRender_eq]

/-- Settles O29: the PUSH leaves the selected slot alone, and the rest of the RENDER commutes with it. -/
theorem pushAndRenderCommute : Obligations.PushAndRenderCommute := by
  intro s snap hinv hsnap
  have ⟨_, _, ⟨hhead, htail, _⟩, _⟩ := hinv
  have hpush := exec_push_of_head_lt hhead hsnap
  rw [runTrace_cons_next hpush]
  rcases Bool.eq_false_or_eq_true s.busy with hbusy | hbusy
  case inl =>
    refine ⟨_, runTrace_singleton_of_next (exec_render_of_busy ((advanceHead_busy _).trans hbusy)), ?_⟩
    rw [runTrace_cons_next (exec_render_of_busy hbusy), runTrace_singleton_of_next hpush]
  case inr =>
    refine ⟨_, runTrace_singleton_of_next (exec_render_of_exec_push hinv ((advanceHead_busy _).trans hbusy) hpush), ?_⟩
    rw [runTrace_cons_next (exec_render hbusy htail), finishRender_advanceHead]
    apply runTrace_singleton_of_next
    rw [exec_push_of_head_lt (by simpa using hhead) (by simpa using hsnap)]
    simp only [finishRender_cfg, finishRender_mem, finishRender_head]

/-! ### The accumulator calls (R134 to R136) -/

/-- Settles O50: each call puts a new accumulator on its side, the read-out also the samples. -/
theorem accumulatorCalls : Obligations.AccumulatorCalls := by
  intro s side
  refine ⟨fun t d ht => ⟨_, if_pos ht, sameOutside_setSide s side _, State.side_setSide ..⟩,
    ⟨_, if_pos rfl, sameOutside_setSide s side _, ?_⟩, fun n hn => if_neg hn⟩
  rw [State.side_setSide]
  exact ⟨rfl, rfl, rfl, readOut_length ..⟩

end Sys2Proof.Machine
end

section
/-! PROOFS of the frame synthesis family, 2: what an accumulator shows of the deltas submitted to it
(spec/42_synth_frame.md R134, R137, R138). -/

namespace Sys2Proof.Machine

/-! ### A frame's deltas as the sum at each time -/

/-- The sum a frame's deltas hold at a time. -/
def deltaAt : List (Nat × Int) → Nat → Int
  | [], _ => 0
  | (u, e) :: rest, t => (if u = t then e else 0) + deltaAt rest t

/-- Submitting a delta adds it to the sum at its time and touches no other. -/
theorem deltaAt_insertDelta (t : Nat) (d : Int) (l : List (Nat × Int)) (x : Nat) :
    deltaAt (insertDelta t d l) x = deltaAt l x + if t = x then d else 0 := by
  induction l with
  | nil => simp only [insertDelta]; split_ifs <;> simp_all [deltaAt]
  | cons first rest ih =>
    obtain ⟨u, e⟩ := first
    simp only [insertDelta]
    split_ifs <;> simp only [deltaAt, ih] <;> split_ifs <;> omega

theorem deltaAt_of_lt {t : Nat} {l : List (Nat × Int)} (h : ∀ e ∈ l, t < e.1) : deltaAt l t = 0 := by
  induction l with
  | nil => rfl
  | cons first rest ih =>
    obtain ⟨hfirst, hrest⟩ := List.forall_mem_cons.1 h
    rw [deltaAt, if_neg (by omega), ih hrest, Int.add_zero]

/-- In canonical form the entries listed are the times at which the sum is not zero, with that sum. -/
theorem mem_iff_deltaAt {c : Cfg} {l : List (Nat × Int)} (h : deltasWf c l = true) (t : Nat) (d : Int) :
    (t, d) ∈ l ↔ d ≠ 0 ∧ deltaAt l t = d := by
  induction l with
  | nil => simp [deltaAt, eq_comm]
  | cons first rest ih =>
    obtain ⟨u, e⟩ := first
    obtain ⟨-, he, hlt, hr⟩ := deltasWf_cons.1 h
    rw [List.mem_cons, ih hr, deltaAt, Prod.mk.injEq]
    by_cases ht : u = t
    · subst ht
      rw [deltaAt_of_lt hlt, if_pos rfl]
      omega
    · rw [if_neg ht]
      omega

theorem deltasWf_pairwise {c : Cfg} {l : List (Nat × Int)} (h : deltasWf c l = true) :
    l.Pairwise (fun a b => a.1 < b.1) := by
  induction l with
  | nil => exact .nil
  | cons first rest ih =>
    obtain ⟨-, -, hlt, hr⟩ := deltasWf_cons.1 h
    exact .cons hlt (ih hr)

/-- Two frames in canonical form with the same sum at every time are the same list. -/
theorem deltasWf_ext {c : Cfg} {l l' : List (Nat × Int)} (h : deltasWf c l = true) (h' : deltasWf c l' = true)
    (hsum : ∀ t, deltaAt l t = deltaAt l' t) : l = l' := by
  have : Std.Irrefl fun a b : Nat × Int => a.1 < b.1 := ⟨fun a => Nat.lt_irrefl a.1⟩
  have : Std.Antisymm fun a b : Nat × Int => a.1 < b.1 := ⟨fun a b hab hba => absurd hab (Nat.lt_asymm hba)⟩
  refine (deltasWf_pairwise h).eq_of_mem_iff (deltasWf_pairwise h') fun e => ?_
  rw [mem_iff_deltaAt h, mem_iff_deltaAt h', hsum]

/-! ### Order and splitting (R137 laws 1 to 3) -/

/-- Two deltas in either order leave the same accumulator (R137 law 2). -/
theorem addDelta_comm {c : Cfg} {b : BlipState} {t₁ t₂ : Nat} (d₁ d₂ : Int) (hb : blipWf c b = true)
    (h₁ : t₁ < c.endTime) (h₂ : t₂ < c.endTime) :
    addDelta c (addDelta c b t₁ d₁) t₂ d₂ = addDelta c (addDelta c b t₂ d₂) t₁ d₁ := by
  cases b with
  | zoh level acc =>
    simp only [addDelta, BlipState.zoh.injEq, true_and]
    by_cases hbin : zohBin c t₁ = zohBin c t₂
    · rw [hbin, List.modify_modify_eq, List.modify_modify_eq]
      congr 1
      funext x
      simp only [Function.comp_apply]
      omega
    · exact List.modify_modify_ne _ _ acc hbin
  | external past now =>
    obtain ⟨-, -, hnow⟩ := blipWf_external.1 hb
    simp only [addDelta, BlipState.external.injEq, true_and]
    refine deltasWf_ext (insertDelta_wf _ h₂ (insertDelta_wf _ h₁ hnow)) (insertDelta_wf _ h₁ (insertDelta_wf _ h₂ hnow))
      fun t => ?_
    simp only [deltaAt_insertDelta]
    omega

/-- Two deltas at one time are their sum (R137 law 3). -/
theorem addDelta_addDelta_same {c : Cfg} {b : BlipState} {t : Nat} (d₁ d₂ : Int) (hb : blipWf c b = true)
    (ht : t < c.endTime) : addDelta c (addDelta c b t d₁) t d₂ = addDelta c b t (d₁ + d₂) := by
  cases b with
  | zoh level acc =>
    simp only [addDelta, List.modify_modify_eq]
    congr 2
    funext x
    exact Int.add_assoc ..
  | external past now =>
    obtain ⟨-, -, hnow⟩ := blipWf_external.1 hb
    simp only [addDelta, BlipState.external.injEq, true_and]
    refine deltasWf_ext (insertDelta_wf _ ht (insertDelta_wf _ ht hnow)) (insertDelta_wf _ ht hnow) fun x => ?_
    simp only [deltaAt_insertDelta]
    split_ifs <;> omega

/-- Settles O46, law by law. -/
theorem accumulatorIgnoresOrder : Obligations.AccumulatorIgnoresOrder :=
  fun _ _ t₁ _ d₁ d₂ hc hb h₁ h₂ =>
    ⟨addDelta_zero hb t₁, addDelta_comm d₁ d₂ hb h₁ h₂, addDelta_addDelta_same d₁ d₂ hb h₁, addDelta_wf d₁ h₁ hb,
      submitted_addDelta hc d₁ h₁ hb⟩

/-! ### Silence (R137 laws 4 and 5) -/

/-- Nothing but zero deltas was ever submitted. -/
def BlipState.Quiet : BlipState → Prop
  | .zoh level acc => level = 0 ∧ ∀ x ∈ acc, x = 0
  | .external past now => (∀ f ∈ past, f = []) ∧ now = []

theorem init_quiet (c : Cfg) : (BlipState.init c).Quiet := by
  cases h : c.blip with
  | zoh => simp [BlipState.init, BlipState.Quiet, h]
  | external => simp [BlipState.init, BlipState.Quiet, h]

theorem settledPart_eq_nil_iff {h : List (List (Nat × Int))} : settledPart h = [] ↔ ∀ f ∈ h, f = [] := by
  simp [settledPart]

/-- A quiet accumulator reads out zeros and stays quiet. -/
theorem BlipState.Quiet.readOut {c : Cfg} {b : BlipState} (h : b.Quiet) (n : Nat) :
    (readOut c b n).1.Quiet ∧ ∀ x ∈ (readOut c b n).2, x = 0#16 := by
  cases b with
  | zoh level acc =>
    obtain ⟨rfl, hacc⟩ := h
    have hsum : (acc.take n).sum = 0 := List.sum_eq_zero fun x hx => hacc x (List.mem_of_mem_take hx)
    refine ⟨⟨?_, fun x hx => List.eq_of_mem_replicate hx⟩, fun x hx => ?_⟩
    · rw [zohScan_level, hsum]; rfl
    · rw [Machine.readOut, zohScan_zero hacc] at hx
      exact List.eq_of_mem_replicate hx
  | external past now =>
    obtain ⟨hpast, rfl⟩ := h
    have hall : ∀ f ∈ past ++ [[]], f = [] := by simpa [or_imp, forall_and] using hpast
    refine ⟨⟨hall, rfl⟩, fun x hx => ?_⟩
    obtain ⟨k, -, rfl⟩ := List.mem_map.1 hx
    exact if_pos (settledPart_eq_nil_iff.2 hall)

/-- From a quiet accumulator zero deltas give zeros only. -/
theorem samplesRead_eq_zero {c : Cfg} {calls : List BlipCall} (hcalls : ∀ t d, some (t, d) ∈ calls → d = 0)
    {b : BlipState} (hb : blipWf c b = true) (h : b.Quiet) : ∀ x ∈ samplesRead c b calls, x = 0#16 := by
  induction calls generalizing b with
  | nil => exact nofun
  | cons call rest ih =>
    have hrest : ∀ t d, some (t, d) ∈ rest → d = 0 := fun t d hm => hcalls t d (List.mem_cons_of_mem _ hm)
    cases call with
    | some call =>
      obtain ⟨t, d⟩ := call
      obtain rfl := hcalls t d List.mem_cons_self
      rw [samplesRead, addDelta_zero hb]
      exact ih hrest hb h
    | none =>
      obtain ⟨hquiet, hzero⟩ := h.readOut (c := c) c.samplesPerFrame
      exact List.forall_mem_append.2 ⟨hzero, ih hrest (readOut_wf _ hb) hquiet⟩

/-- Settles O47: `init` is quiet, and zero deltas and read-outs keep it so. -/
theorem accumulatorLengthAndSilence : Obligations.AccumulatorLengthAndSilence :=
  fun c _ => ⟨readOut_length c, fun _ hcalls =>
    samplesRead_eq_zero (fun t d hm => (hcalls t d hm).1) (init_blipWf c) (init_quiet c)⟩

/-! ### Settling (R137 laws 6 and 7) -/

/-- The clamp of R138 is a saturation: no value leaves the 16-bit range. -/
theorem clamp16_toInt (x : Int) : (clamp16 x).toInt = max (-32768) (min 32767 x) := by
  have hclamp : clampInt x (-32768) 32767 = max (-32768) (min 32767 x) := by
    unfold clampInt
    split_ifs <;> omega
  rw [clamp16, hclamp, BitVec.toInt_ofInt]
  exact Int.bmod_eq_of_le (by omega) (by omega)

theorem deltaSum_append (h h' : List (List (Nat × Int))) : deltaSum (h ++ h') = deltaSum h + deltaSum h' := by
  simp [deltaSum]

theorem deltaSum_of_all_nil {h : List (List (Nat × Int))} (hall : ∀ f ∈ h, f = []) : deltaSum h = 0 :=
  List.sum_eq_zero fun x hx => by
    obtain ⟨f, hf, rfl⟩ := List.mem_map.1 hx
    rw [hall f hf]
    rfl

/-- Frames in which nothing is submitted add nothing. -/
theorem deltaSum_append_quiet (h : List (List (Nat × Int))) (m : Nat) :
    deltaSum (h ++ List.replicate m []) = deltaSum h := by
  rw [deltaSum_append, deltaSum_of_all_nil fun f hf => List.eq_of_mem_replicate hf, Int.add_zero]

/-- A read-out of one frame with ZOH: the sum of all bins goes to the level, and the bins are cleared (R138). -/
theorem readOut_zoh {c : Cfg} {acc : List Int} (level : Int) (h : acc.length = c.samplesPerFrame) :
    (readOut c (.zoh level acc) c.samplesPerFrame).1 = .zoh (level + acc.sum) (List.replicate c.samplesPerFrame 0) := by
  rw [readOut, zohScan_level, ← h, List.take_length]

/-- A read-out keeps the sum of all deltas submitted. -/
theorem submitted_readOut {c : Cfg} {b : BlipState} (hb : blipWf c b = true) :
    submitted (readOut c b c.samplesPerFrame).1 = submitted b := by
  cases b with
  | zoh level acc => rw [readOut_zoh level (blipWf_zoh.1 hb).2]; simp [submitted]
  | external past now => exact deltaSum_append_quiet (past ++ [now]) 1

/-- Sample `k` of a ZOH frame is the level after the bins `0 .. k`, saturated (R138). -/
theorem zohScan_getElem? {n k : Nat} (level : Int) (acc : List Int) (h : k < n) :
    (zohScan level acc n).2[k]? = some (clamp16 (level + (acc.take (k + 1)).sum)) := by
  induction n generalizing level acc k with
  | zero => exact absurd h (Nat.not_lt_zero k)
  | succ n ih =>
    have htake (j : Nat) : (acc.take (j + 1)).sum = acc.headD 0 + (acc.tail.take j).sum := by cases acc <;> simp
    rw [zohScan, htake]
    cases k with
    | zero => simp
    | succ k => rw [List.getElem?_cons_succ, ih _ _ (Nat.lt_of_succ_lt_succ h), Int.add_assoc]

theorem exists_of_mem_zohScan {n : Nat} {level : Int} {acc : List Int} {x : Sample} (h : x ∈ (zohScan level acc n).2) :
    ∃ k, x = clamp16 (level + (acc.take (k + 1)).sum) := by
  obtain ⟨k, hk⟩ := List.mem_iff_getElem?.1 h
  have hlen : k < n := zohScan_length level acc n ▸ (List.getElem?_eq_some_iff.1 hk).1
  exact ⟨k, Option.some.inj (hk.symm.trans (zohScan_getElem? level acc hlen))⟩

/-- Past its first quiet frame ZOH stays as it is. -/
theorem quietFrames_zoh {c : Cfg} {acc : List Int} (level : Int) (h : acc.length = c.samplesPerFrame) (m : Nat) :
    quietFrames c (m + 1) (.zoh level acc) = .zoh (level + acc.sum) (List.replicate c.samplesPerFrame 0) := by
  induction m generalizing level acc with
  | zero => exact readOut_zoh level h
  | succ m ih => rw [quietFrames, readOut_zoh level h, ih _ List.length_replicate]; simp

theorem quietFrames_external (c : Cfg) (past : List (List (Nat × Int))) (now : List (Nat × Int)) (m n : Nat) :
    (readOut c (quietFrames c m (.external past now)) n).2 =
      (List.range n).map (externalSample c (past ++ [now] ++ List.replicate m [])) := by
  induction m generalizing past now with
  | zero => rw [List.replicate_zero, List.append_nil]; rfl
  | succ m ih => rw [quietFrames, readOut, ih, List.replicate_succ, List.append_assoc _ [[]]]; rfl

theorem settledPart_append_quiet (h : List (List (Nat × Int))) (m : Nat) :
    settledPart (h ++ List.replicate m []) = settledPart h := by
  rw [settledPart, settledPart, List.reverse_append, List.dropWhile_append_of_pos]
  simp

theorem settledPart_length_le (h : List (List (Nat × Int))) : (settledPart h).length ≤ h.length := by
  simpa [settledPart] using (List.dropWhile_sublist List.isEmpty (l := h.reverse)).length_le

/-- Once more quiet frames have passed than such an accumulator needs, it shows the saturated sum. -/
theorem externalSample_settled {c : Cfg} {h : List (List (Nat × Int))} {m : Nat}
    (hm : Config.externalSettle c.clockRate c.sampleRate (settledPart h) < m) (k : Nat) :
    externalSample c (h ++ List.replicate m []) k = clamp16 (deltaSum h) := by
  rw [externalSample, settledPart_append_quiet, deltaSum_append_quiet]
  split_ifs with hnil hsettled
  · rw [deltaSum_of_all_nil (settledPart_eq_nil_iff.1 hnil)]; rfl
  · rfl
  · have := settledPart_length_le h
    rw [List.length_append, List.length_replicate] at hsettled
    omega

/-- Settles O48: ZOH has settled after one quiet frame, another accumulator after as many as it needs. -/
theorem accumulatorSettlesAtTheSum : Obligations.AccumulatorSettlesAtTheSum := by
  intro c b _ hb
  refine ⟨submitted_readOut hb, ?_⟩
  cases b with
  | zoh level acc =>
    refine ⟨1, fun m hm x hx => ?_⟩
    obtain ⟨m, rfl⟩ := Nat.exists_eq_add_of_le' hm
    rw [quietFrames_zoh level (blipWf_zoh.1 hb).2] at hx
    obtain ⟨k, rfl⟩ := exists_of_mem_zohScan hx
    rw [clamp16_toInt, List.take_replicate, List.sum_replicate, smul_zero, Int.add_zero]
    rfl
  | external past now =>
    refine ⟨Config.externalSettle c.clockRate c.sampleRate (settledPart (past ++ [now])) + 1, fun m hm x hx => ?_⟩
    rw [quietFrames_external] at hx
    obtain ⟨k, -, rfl⟩ := List.mem_map.1 hx
    rw [externalSample_settled (Nat.lt_of_succ_le hm), clamp16_toInt]
    rfl

/-! ### ZOH, bin by bin (R138) -/

/-- Adding to one entry of a list shows at that entry alone. -/
theorem getD_modify_add {l : List Int} {j : Nat} (d : Int) (hj : j < l.length) (k : Nat) :
    (l.modify j fun x => x + d).getD k 0 = l.getD k 0 + if k = j then d else 0 := by
  rw [List.getD_eq_getElem?_getD, List.getD_eq_getElem?_getD]
  by_cases hk : k = j
  · subst hk; simp [hj]
  · simp [hk, Ne.symm hk]

/-- Settles O49: a delta goes to the bin of its time, and the read-out scans the bins. -/
theorem zeroOrderHold : Obligations.ZeroOrderHold := by
  intro c level acc hc hlen
  refine ⟨fun t d ht => ⟨zohBin_lt hc ht, _, rfl, List.length_modify .., ?bin⟩, readOut_zoh level hlen,
    fun k hk => ?sample⟩
  case bin => exact getD_modify_add d (hlen ▸ zohBin_lt hc ht)
  case sample => rw [List.getD_eq_getElem?_getD, readOut, zohScan_getElem? level acc hk, Option.getD_some, clamp16_toInt]

end Sys2Proof.Machine
end

section
/-! PROOFS of the frame synthesis family, 3: the order in which generators are run (spec/42_synth_frame.md R131, R137). -/

namespace Sys2Proof.Machine

/-! ### What commutes with submitting a delta -/

/-- A change of an accumulator that keeps its form and may be made before or after submitting a delta. -/
structure CommutesWithDeltas (c : Cfg) (h : BlipState → BlipState) : Prop where
  wf : ∀ b, blipWf c b = true → blipWf c (h b) = true
  comm : ∀ b t d, blipWf c b = true → t < c.endTime → h (addDelta c b t d) = addDelta c (h b) t d

/-- Submitting a delta is such a change (R137 law 2). -/
theorem commutesWithDeltas_addDelta {c : Cfg} {t : Nat} (d : Int) (ht : t < c.endTime) :
    CommutesWithDeltas c fun b => addDelta c b t d where
  wf _ hb := addDelta_wf d ht hb
  comm _ _ e hb hu := addDelta_comm e d hb hu ht

/-- The same oscillator over a changed accumulator. -/
def Voice.mapBlip (h : BlipState → BlipState) (v : Voice) : Voice := ⟨v.osc, h v.blip⟩

/-- What a generator does to its voice: it keeps the accumulator's form, and a change that commutes with deltas may be
made before or after it. For a step `ok` says that its time is inside the frame. -/
structure OnlySubmits (c : Cfg) (ok : Voice → Prop) (f : Voice → Voice) : Prop where
  wf : ∀ v, ok v → blipWf c v.blip = true → blipWf c (f v).blip = true
  mapBlip : ∀ h v, CommutesWithDeltas c h → ok v → blipWf c v.blip = true → f (v.mapBlip h) = (f v).mapBlip h

/-- A generator that only submits deltas is itself a change of the accumulator that commutes with them. -/
theorem OnlySubmits.commutesWithDeltas {c : Cfg} {f : Voice → Voice} (hf : OnlySubmits c (fun _ => True) f) (o : Osc) :
    CommutesWithDeltas c fun b => (f ⟨o, b⟩).blip where
  wf b hb := hf.wf ⟨o, b⟩ trivial hb
  comm b _ d hb ht := congrArg Voice.blip (hf.mapBlip _ ⟨o, b⟩ (commutesWithDeltas_addDelta d ht) trivial hb)

/-- Two generators leave the same accumulator in either order. -/
theorem OnlySubmits.blip_comm {c : Cfg} {f g : Voice → Voice} (hf : OnlySubmits c (fun _ => True) f)
    (hg : OnlySubmits c (fun _ => True) g) (o p : Osc) {b : BlipState} (hb : blipWf c b = true) :
    (g ⟨p, (f ⟨o, b⟩).blip⟩).blip = (f ⟨o, (g ⟨p, b⟩).blip⟩).blip := by
  have hblip := congrArg Voice.blip (hg.mapBlip _ ⟨p, b⟩ (hf.commutesWithDeltas o) trivial hb)
  exact hblip

/-! ### Steps and runs only submit deltas -/

/-- A voice whose next step is inside the frame. -/
def Voice.InFrame (c : Cfg) (v : Voice) : Prop := v.osc.time < c.endTime

theorem updateAmp_onlySubmits (c : Cfg) (new : Nat) : OnlySubmits c (Voice.InFrame c) (updateAmp c new) where
  wf _ ht hb := updateAmp_wf new ht hb
  mapBlip h v hh ht hb := by
    have hblip : (updateAmp c new (v.mapBlip h)).blip = h (updateAmp c new v).blip := by
      rw [updateAmp_blip, updateAmp_blip, apply_ite h, hh.comm _ _ _ hb ht]
      rfl
    exact congrArg (Voice.mk _) hblip

/-- The form of every step: a new phase and a new amplitude, found from the oscillator alone, and the change submitted. -/
theorem updateAmp_setPhase_onlySubmits (c : Cfg) (new phase : Osc → Nat) :
    OnlySubmits c (Voice.InFrame c) fun v => updateAmp c (new v.osc) (v.setPhase (phase v.osc)) where
  wf v := (updateAmp_onlySubmits c (new v.osc)).wf (v.setPhase (phase v.osc))
  mapBlip h v := (updateAmp_onlySubmits c (new v.osc)).mapBlip h (v.setPhase (phase v.osc))

theorem toneStep_onlySubmits (c : Cfg) (r : Register) (gain : Nibble) :
    OnlySubmits c (Voice.InFrame c) (toneStep c r gain) :=
  updateAmp_setPhase_onlySubmits c (fun o => toneAmp c r gain ((o.phase + 1) % waveValues))
    fun o => (o.phase + 1) % waveValues

theorem noiseStep_onlySubmits (c : Cfg) (col : Color) (volume gain : Nibble) :
    OnlySubmits c (Voice.InFrame c) (noiseStep c col volume gain) :=
  updateAmp_setPhase_onlySubmits c (fun o => noiseAmp c volume gain (lfsrStep (noiseFb c col) o.phase))
    fun o => lfsrStep (noiseFb c col) o.phase

theorem pcmStep_onlySubmits (c : Cfg) (pcm : List Byte) : OnlySubmits c (Voice.InFrame c) (pcmStep c pcm) :=
  updateAmp_setPhase_onlySubmits c (fun o => pcmAmp c (pcm.getD o.phase 0).toNat) fun o => (o.phase + 1) % c.pcmLen

section
variable {c : Cfg} {period : Nat} {f : Voice → Voice} (hf : OnlySubmits c (Voice.InFrame c) f)
include hf

theorem genLoop_mapBlip {h : BlipState → BlipState} (hh : CommutesWithDeltas c h) (fuel : Nat) {v : Voice}
    (hb : blipWf c v.blip = true) :
    genLoop c period f fuel (v.mapBlip h) = (genLoop c period f fuel v).mapBlip h := by
  induction fuel generalizing v with
  | zero => rfl
  | succ fuel ih =>
    by_cases ht : v.osc.time < c.endTime
    · rw [genLoop_turn ht, genLoop_turn (v := v.mapBlip h) ht, hf.mapBlip h v hh ht hb, ← ih]
      · rfl
      · exact hf.wf v ht hb
    · rw [genLoop_done (v := v.mapBlip h) (Nat.le_of_not_lt ht), genLoop_done (Nat.le_of_not_lt ht)]

/-- A run only submits deltas if each of its steps does. -/
theorem genRun_onlySubmits : OnlySubmits c (fun _ => True) (genRun c period f) where
  wf _ _ hb := genRun_induct (fun v => blipWf c v.blip = true) (fun _ _ hv => hv) hf.wf hb
  mapBlip h v hh _ hb := by
    have hloop := genLoop_mapBlip (period := period) hf hh (c.endTime - v.osc.time) hb
    simp only [genRun]
    rw [show (v.mapBlip h).osc = v.osc from rfl, hloop]
    rfl

end

theorem channelRun_onlySubmits (c : Cfg) (r : Register) (gain : Nibble) :
    OnlySubmits c (fun _ => True) (channelRun c r gain) := by
  unfold channelRun
  split
  · exact genRun_onlySubmits (toneStep_onlySubmits c r gain)
  · next col _ =>
    have hrun := genRun_onlySubmits (period := noisePeriod c r.freq) (noiseStep_onlySubmits c col r.volume gain)
    exact ⟨fun v => hrun.wf (v.setPhase (lfsrSeed v.osc.phase)),
      fun h v => hrun.mapBlip h (v.setPhase (lfsrSeed v.osc.phase))⟩

theorem pcmRun_onlySubmits (c : Cfg) (pcm : List Byte) : OnlySubmits c (fun _ => True) (pcmRun c pcm) :=
  genRun_onlySubmits (pcmStep_onlySubmits c pcm)

/-- Settles O53: the accumulators agree since both runs only submit deltas, the oscillators since neither reads the
accumulator. -/
theorem channelOrderCannotBeObserved : Obligations.ChannelOrderCannotBeObserved := by
  intro c r₁ r₂ g₁ g₂ pcm o₁ o₂ p b _ hb
  have h₁ := channelRun_onlySubmits c r₁ g₁
  exact ⟨fun _ => rfl, ⟨h₁.blip_comm (channelRun_onlySubmits c r₂ g₂) o₁ o₂ hb, channelRun_osc_eq r₂ g₂ rfl⟩,
    channelRun_osc_eq r₁ g₁ rfl, h₁.blip_comm (pcmRun_onlySubmits c pcm) o₁ p hb, pcmRun_osc_eq pcm rfl,
    channelRun_osc_eq r₁ g₁ rfl⟩

end Sys2Proof.Machine
end

section
/-! PROOFS of the reset and hazards family: the static configuration and the render strobe while busy
(spec/70_reset_and_hazards.md R183, R188). -/

namespace Sys2Proof.Machine

/-! ### The configuration -/

/-- RESET rebuilds the state from the configuration it finds, and no other effect writes that field. -/
theorem Effect.cfg_eq {i : Instr} {s t : State} (h : Effect i s t) : t.cfg = s.cfg := by
  cases h with
  | reset => rfl
  | push hm => exact advanceHead_cfg _
  | renderIgnored hb => rfl
  | render hb hr => exact finishRender_cfg _ _
  | rtSelect hr => rfl
  | rtAdvance => exact advanceTail_cfg s
  | syncHead hj => rfl
  | syncTail hj => rfl
  | side hx => exact State.setSide_cfg s _ _

theorem exec_cfg_eq {i : Instr} {s t : State} (h : exec i s = .next t) : t.cfg = s.cfg := (exec_effect h).cfg_eq

/-- A step that runs no operation writes at most the inputs. -/
theorem step_cfg_eq {s t : State} (h : step s = .next t) : t.cfg = s.cfg := by
  obtain ⟨-, ⟨-, rfl⟩ | ⟨inp, rest, -, ⟨-, rfl⟩ | ⟨i, -, hi⟩⟩⟩ := step_cases h
  · rfl
  · rfl
  · exact exec_cfg_eq (s := { s with inputs := rest }) hi

/-- Settles O17: no effect of an operation writes the configuration, and a step runs at most one operation. -/
theorem configurationIsStatic : Obligations.ConfigurationIsStatic :=
  ⟨fun _ _ _ => exec_cfg_eq, fun _ _ => step_cfg_eq⟩

/-! ### A render strobe while busy -/

/-- The consumer's port drives `c_busy` high, so the match of RENDER fails and the strobe is ignored (R61, R183). -/
theorem decode_cport_render_of_busy {c : Cfg} {w : BitVec 3} (hrender : w.getLsbD 0 = true)
    (hrst : w.getLsbD 2 = false) : decode c (withBusy true (.cport w)) = .ignored := by
  rw [decodeCport_withBusy, hrst, hrender]
  rfl

/-- Settles O11: RENDER itself leaves a busy state alone, and the strobe does not even decode to RENDER. -/
theorem renderWhileBusyIgnored : Obligations.RenderWhileBusyIgnored := by
  refine ⟨fun s hbusy => exec_render_of_busy hbusy, fun s w rest hc hbusy hrender hrst hinputs => ?_⟩
  have hdecode : decode s.cfg (withBusy s.busy (.cport w)) = .ignored := by
    rw [hbusy]; exact decode_cport_render_of_busy hrender hrst
  exact step_of_no_request hc hinputs (.inr hdecode)

end Sys2Proof.Machine
end
